-- ==== Sys2Proof/Word.lean ====
section
/-! DEFINITION. The word types: a bus word, a sample-memory byte and a sample cell. -/

namespace Sys2Proof

/-- A host register and a bus transfer are 32 bits wide (10_state.md R38). -/
abbrev Word := BitVec 32

/-- One byte of the byte-addressed view of the sample memory (20_memory.md R62). -/
abbrev Byte := BitVec 8

/-- A sample: an unsigned integer held in one whole cell, never masked to SAMPLE_BITS (10_state.md R25). The width is
CELL_BITS, fixed at 16 (00_scope.md R8). -/
abbrev Sample := BitVec 16

end Sys2Proof
end

