-- ==== Sys2Proof/Config.lean ====
section
/-! DEFINITION. The implementation parameters of 00_scope.md R8 and the values the spec leaves free. -/

namespace Sys2Proof

/-- BYTE_ORDER: which byte of a cell lies at the lower byte address (20_memory.md R62). -/
inductive ByteOrder where
  | little
  | big
deriving DecidableEq, Repr

/-- A point at which SineSample may lie above the floor of the exact value: sample `i` of `l` at amplitude `amp`. -/
structure SinePoint where
  i : Nat
  l : Nat
  amp : Nat
deriving DecidableEq, Repr

/-- The record Cfg of 00_scope.md R8. CELL_BITS is fixed at 16 (the width of Sample). The record is constant while a machine runs; State carries it, so that a
statement about every state holds for every admitted configuration (log 1, DESIGN CHOICE). -/
structure Cfg where
  /-- N_RAMP: the number of samples in a ramp. -/
  nRamp : Nat
  /-- RAMP_RATE: the ramp playback rate, samples per second. -/
  rampRate : Nat
  /-- CLOCK_RATE: the frequency of the clock the sample timer counts, hertz. -/
  clockRate : Nat
  /-- SILENCE: the quiescent sample level. -/
  silence : Sample
  /-- SAMPLE_BITS: the converter resolution W. -/
  sampleBits : Nat
  /-- TIMER_BITS: the width of the period register. -/
  timerBits : Nat
  /-- ADDR_BITS: the width of a buffer reference (a cell index). -/
  addrBits : Nat
  /-- LEN_BITS: the width of a buffer length and of the remaining counter. -/
  lenBits : Nat
  /-- RATE_BITS: the width of a sample rate. -/
  rateBits : Nat
  /-- MEM_CELLS: the number of cells in the sample memory. -/
  memCells : Nat
  /-- CLEAR_ON_ARM: whether arming the completion interrupt discards a latched completion. -/
  clearOnArm : Bool
  /-- SineSample, as plain data: the points at which it is one above the floor of the exact value; elsewhere it is that
  floor. Every function 43_wavegen.md R176 admits is some such list (log 8, DESIGN CHOICE). -/
  sineAbove : List SinePoint
  /-- BYTE_ORDER. -/
  byteOrder : ByteOrder
  /-- REG_BASE: the base address of the register block on the host bus. -/
  regBase : Nat
deriving DecidableEq, Repr

/-- SAMPLE_MAX = 2^W - 1 (00_scope.md R8). -/
def Cfg.sampleMax (c : Cfg) : Nat := 2 ^ c.sampleBits - 1

/-- The constraint column of 00_scope.md R8: the admitted configurations. -/
abbrev Cfg.Valid (c : Cfg) : Prop :=
  (1 ≤ c.nRamp ∧ c.nRamp < 2 ^ c.lenBits) ∧
  (1 ≤ c.rampRate ∧ c.rampRate ≤ c.clockRate ∧ c.clockRate / c.rampRate - 1 < 2 ^ c.timerBits) ∧
  1 ≤ c.clockRate ∧
  (1 ≤ c.sampleBits ∧ c.sampleBits ≤ 16) ∧
  c.silence.toNat ≤ c.sampleMax ∧
  1 ≤ c.timerBits ∧
  (1 ≤ c.addrBits ∧ c.addrBits ≤ 32) ∧
  (1 ≤ c.lenBits ∧ c.lenBits ≤ 32) ∧
  (1 ≤ c.rateBits ∧ c.rateBits ≤ 32) ∧
  (1 ≤ c.memCells ∧ c.memCells ≤ 2 ^ c.addrBits)

/-- VC, the vector configuration of 00_scope.md R8: the spec's own choice for hand-checkable examples; it
says nothing of the real device. Its SineSample is the reference choice, the floor everywhere. State.reset carries it (log 1, DESIGN CHOICE). -/
def Cfg.vc : Cfg where
  nRamp := 8
  rampRate := 20000
  clockRate := 1000000
  silence := 0
  sampleBits := 12
  timerBits := 16
  addrBits := 32
  lenBits := 16
  rateBits := 32
  memCells := 65536
  clearOnArm := true
  sineAbove := []
  byteOrder := .little
  regBase := 0

/-- FREE VALUE (log 9): what the block reads from a cell that was written while the sequencer referenced it,
"an unspecified value" (20_memory.md R67, 93_implementation_defined.md U9). The argument is the draw counter
of State, so that two reads may differ. -/
opaque Config.freeCell : Nat → Sample

end Sys2Proof
end

