-- ==== Sys2Proof/Syntax.lean ====
section
/-! DEFINITION. The operations of the block, one constructor per row of spec/opcode_table.json, and the codes
that name them. -/

namespace Sys2Proof

/-- The twelve operations of 00_scope.md R7 and the two failure rows of GEN (30_encoding.md R84). -/
inductive Instr where
  /-- INIT, 42_playback.md R143. -/
  | init
  /-- START, 42_playback.md R144. -/
  | start
  /-- STOP, 42_playback.md R146. -/
  | stop
  /-- GEN.SINE, 43_wavegen.md R176. -/
  | genSine
  /-- GEN.TRI, 43_wavegen.md R175. -/
  | genTri
  /-- GEN.SAW, 43_wavegen.md R173. -/
  | genSaw
  /-- GEN.SQUARE, 43_wavegen.md R174. -/
  | genSquare
  /-- GEN.BADWAVE_LO: GEN with an unrecognized wave type 4..7, 43_wavegen.md R178. -/
  | genBadWaveLo (wave : BitVec 4)
  /-- GEN.BADWAVE_HI: GEN with an unrecognized wave type 8..15, 43_wavegen.md R178. -/
  | genBadWaveHi (wave : BitVec 4)
  /-- TICK, 41_timer.md R128. -/
  | tick
  /-- COMPLETE, 42_playback.md R148. -/
  | complete
  /-- CURSAMP, 40_ramp.md R101. -/
  | cursamp
  /-- RAMPFILL, 40_ramp.md R104: the operands `start` and `end` of the caller. -/
  | rampfill (seed goal : Sample)
  /-- TDIV, 41_timer.md R120: the operand `rate` of the caller. -/
  | tdiv (rate : Nat)
deriving DecidableEq, Repr

/-- The three formats of 30_encoding.md R80. -/
inductive Format where
  | cmd
  | evt
  | uop
deriving DecidableEq, Repr

/-- A code of one of the three formats. A CMD code is the 32-bit word the host writes (R81). An EVT or UOP
code is a 2-bit tag that appears on no interface (R82). A micro-operation's operands come from its caller
(R83): they stand beside the tag as two operand words, an unused one zero (log 14, DESIGN CHOICE). -/
inductive Code where
  | cmd (w : Word)
  | evt (tag : BitVec 2)
  | uop (tag : BitVec 2) (x y : Word)
deriving DecidableEq, Repr

/-- Why a code names no operation. -/
inductive Reject where
  /-- A CMD word with bits 7:4 or 31:12 not zero: 30_encoding.md R85 case 1. -/
  | reservedBits
  /-- A CMD word with opcode 1, 2 or 3 and `wave` not zero: R85 case 3. -/
  | reservedWave
  /-- A CMD word with opcode 0 or 5..15: R85 case 6. -/
  | reservedOpcode
  /-- An EVT or UOP tag that names nothing: R82. -/
  | unnamedTag
  /-- A UOP code whose operand words are not those of its micro-operation (log 14). -/
  | strayOperand
deriving DecidableEq, Repr

/-- One row of spec/opcode_table.json: a code of the row's format belongs to it when its bits under `mask`
equal `pattern`. -/
structure Row where
  mnemonic : String
  format : Format
  pattern : Nat
  mask : Nat
deriving DecidableEq, Repr

end Sys2Proof
end

