-- ==== Sys2Proof/WellFormed.lean ====
section
/-! DEFINITION. Which terms of Instr stand for an operation the encodings can express. -/

namespace Sys2Proof

/-- A GEN.BADWAVE_LO form has wave 4..7 and a GEN.BADWAVE_HI form wave 8..15 (30_encoding.md R84); TDIV's
rate fits an operand word, RATE_BITS being at most 32 (00_scope.md R8). Every other term is well formed. -/
def Instr.wellFormed : Instr → Bool
  | .init => true
  | .start => true
  | .stop => true
  | .genSine => true
  | .genTri => true
  | .genSaw => true
  | .genSquare => true
  | .genBadWaveLo wave => 4 ≤ wave.toNat && wave.toNat < 8
  | .genBadWaveHi wave => 8 ≤ wave.toNat
  | .tick => true
  | .complete => true
  | .cursamp => true
  | .rampfill _ _ => true
  | .tdiv rate => rate < 2 ^ 32

end Sys2Proof
end

