-- ==== Sys2Proof/Decode.lean ====
section
/-! DEFINITION. From codes to operations (30_encoding.md R80 to R87) and back, and the opcode table itself. -/

namespace Sys2Proof

/-- Bits 3:0 of a CMD word (30_encoding.md R81). -/
def cmdOpcode (w : Word) : BitVec 4 := w.extractLsb' 0 4

/-- Bits 7:4 of a CMD word, which must be zero. -/
def cmdMbz0 (w : Word) : BitVec 4 := w.extractLsb' 4 4

/-- Bits 11:8 of a CMD word, the wave type. -/
def cmdWave (w : Word) : BitVec 4 := w.extractLsb' 8 4

/-- Bits 31:12 of a CMD word, which must be zero. -/
def cmdMbz1 (w : Word) : BitVec 20 := w.extractLsb' 12 20

/-- GEN's wave field: 0 sine, 1 triangle, 2 sawtooth, 3 square, 4..15 unrecognized (30_encoding.md R81, R85
cases 4 and 5). -/
def decodeWave (wave : BitVec 4) : Instr :=
  if wave = 0#4 then .genSine
  else if wave = 1#4 then .genTri
  else if wave = 2#4 then .genSaw
  else if wave = 3#4 then .genSquare
  else if wave.toNat < 8 then .genBadWaveLo wave
  else .genBadWaveHi wave

/-- An operation with no wave type: `wave` must be zero (30_encoding.md R85 cases 2 and 3). -/
def needWaveZero (wave : BitVec 4) (i : Instr) : Except Reject Instr :=
  if wave = 0#4 then .ok i else .error .reservedWave

/-- Decoding a CMD write, total on all 2^32 words, in the order of 30_encoding.md R85. -/
def decodeCmd (w : Word) : Except Reject Instr :=
  if cmdMbz0 w ≠ 0#4 ∨ cmdMbz1 w ≠ 0#20 then .error .reservedBits
  else if cmdOpcode w = 1#4 then needWaveZero (cmdWave w) .init
  else if cmdOpcode w = 2#4 then needWaveZero (cmdWave w) .start
  else if cmdOpcode w = 3#4 then needWaveZero (cmdWave w) .stop
  else if cmdOpcode w = 4#4 then .ok (decodeWave (cmdWave w))
  else .error .reservedOpcode

/-- The EVT tags of 30_encoding.md R82. -/
def decodeEvt (tag : BitVec 2) : Except Reject Instr :=
  if tag = 1#2 then .ok .tick
  else if tag = 2#2 then .ok .complete
  else .error .unnamedTag

/-- The UOP tags of 30_encoding.md R82, with the caller's operand words: none for CURSAMP, two cell values
for RAMPFILL, a rate for TDIV (R83; log 14). -/
def decodeUop (tag : BitVec 2) (x y : Word) : Except Reject Instr :=
  if tag = 0#2 then (if x = 0#32 ∧ y = 0#32 then .ok .cursamp else .error .strayOperand)
  else if tag = 1#2 then
    (if x.toNat < 2 ^ 16 ∧ y.toNat < 2 ^ 16
      then .ok (.rampfill (x.setWidth 16) (y.setWidth 16)) else .error .strayOperand)
  else if tag = 2#2 then (if y = 0#32 then .ok (.tdiv x.toNat) else .error .strayOperand)
  else .error .unnamedTag

/-- The decoder: total on every code, rejecting by name. -/
def decode : Code → Except Reject Instr
  | .cmd w => decodeCmd w
  | .evt tag => decodeEvt tag
  | .uop tag x y => decodeUop tag x y

/-- A CMD word from its fields (30_encoding.md R81). -/
def cmdWord (wave opcode : BitVec 4) : Word := 0#20 ++ wave ++ 0#4 ++ opcode

/-- The encoder: the code of a well-formed operation, from the tables of 30_encoding.md R81 and R82. -/
def encode : Instr → Code
  | .init => .cmd (cmdWord 0 1)
  | .start => .cmd (cmdWord 0 2)
  | .stop => .cmd (cmdWord 0 3)
  | .genSine => .cmd (cmdWord 0 4)
  | .genTri => .cmd (cmdWord 1 4)
  | .genSaw => .cmd (cmdWord 2 4)
  | .genSquare => .cmd (cmdWord 3 4)
  | .genBadWaveLo wave => .cmd (cmdWord wave 4)
  | .genBadWaveHi wave => .cmd (cmdWord wave 4)
  | .tick => .evt 1
  | .complete => .evt 2
  | .cursamp => .uop 0 0 0
  | .rampfill seed goal => .uop 1 (seed.setWidth 32) (goal.setWidth 32)
  | .tdiv rate => .uop 2 (BitVec.ofNat 32 rate) 0

/-- The format of a code. -/
def Code.format : Code → Format
  | .cmd _ => .cmd
  | .evt _ => .evt
  | .uop _ _ _ => .uop

/-- The bits of a code that the opcode table numbers: the CMD word or the tag. -/
def Code.bits : Code → Nat
  | .cmd w => w.toNat
  | .evt tag => tag.toNat
  | .uop tag _ _ => tag.toNat

/-- A code belongs to a row of the table. -/
def Row.accepts (r : Row) (c : Code) : Bool :=
  decide (c.format = r.format) && decide (c.bits &&& r.mask = r.pattern)

/-- The map of 30_encoding.md R84, row by row. -/
def opcodeTable : List Row :=
  [ ⟨"INIT", .cmd, 0x00000001, 0xFFFFFFFF⟩,
    ⟨"START", .cmd, 0x00000002, 0xFFFFFFFF⟩,
    ⟨"STOP", .cmd, 0x00000003, 0xFFFFFFFF⟩,
    ⟨"GEN.SINE", .cmd, 0x00000004, 0xFFFFFFFF⟩,
    ⟨"GEN.TRI", .cmd, 0x00000104, 0xFFFFFFFF⟩,
    ⟨"GEN.SAW", .cmd, 0x00000204, 0xFFFFFFFF⟩,
    ⟨"GEN.SQUARE", .cmd, 0x00000304, 0xFFFFFFFF⟩,
    ⟨"GEN.BADWAVE_LO", .cmd, 0x00000404, 0xFFFFFCFF⟩,
    ⟨"GEN.BADWAVE_HI", .cmd, 0x00000804, 0xFFFFF8FF⟩,
    ⟨"TICK", .evt, 1, 3⟩,
    ⟨"COMPLETE", .evt, 2, 3⟩,
    ⟨"CURSAMP", .uop, 0, 3⟩,
    ⟨"RAMPFILL", .uop, 1, 3⟩,
    ⟨"TDIV", .uop, 2, 3⟩ ]

/-- The mnemonic of an operation's row. -/
def Instr.mnemonic : Instr → String
  | .init => "INIT"
  | .start => "START"
  | .stop => "STOP"
  | .genSine => "GEN.SINE"
  | .genTri => "GEN.TRI"
  | .genSaw => "GEN.SAW"
  | .genSquare => "GEN.SQUARE"
  | .genBadWaveLo _ => "GEN.BADWAVE_LO"
  | .genBadWaveHi _ => "GEN.BADWAVE_HI"
  | .tick => "TICK"
  | .complete => "COMPLETE"
  | .cursamp => "CURSAMP"
  | .rampfill _ _ => "RAMPFILL"
  | .tdiv _ => "TDIV"

/-- The code that a table word of `nbits` bits stands for. A 32-bit word is a CMD word. A tag is two bits, and
the tables of EVT and UOP give the numbers 1 and 2 twice: a bare 1 or 2 is read as the event, 0 as CURSAMP,
and RAMPFILL and TDIV are named by UOP codes alone (log 14, DESIGN CHOICE). -/
def tableCode (nbits w : Nat) : Option Code :=
  if nbits = 32 then some (.cmd (BitVec.ofNat 32 w))
  else if nbits = 8 ∨ nbits = 2 then
    (if w = 0 then some (.uop 0 0 0) else if w < 4 then some (.evt (BitVec.ofNat 2 w)) else none)
  else none

/-- The operation the decoder reads from a table word (the host's probe). -/
def decodeTableWord (nbits w : Nat) : Option Instr :=
  match tableCode nbits w with
  | none => none
  | some c =>
    match decode c with
    | .ok i => some i
    | .error _ => none

end Sys2Proof
end

