-- ==== Sys2Proof/Machine/State.lean ====
section
/-! DEFINITION. The state of the block (10_state.md R20), the reasons a step can stop, and reset. -/

namespace Sys2Proof.Machine

/-- STATE, the PlaybackState: exactly these four values (10_state.md R21). -/
inductive PlayState where
  | stopped
  | rampingUp
  | playing
  | rampingDown
deriving DecidableEq, Repr

/-- MODE, the backend's transfer mode (10_state.md R26). -/
inductive Mode where
  | oneShot
  | autoRepeat
deriving DecidableEq, Repr

/-- ACT_SEL: which buffer is active (10_state.md R22). -/
inductive ActSel where
  | ramp
  | external
deriving DecidableEq, Repr

/-- RESULT, the status of the last GEN command: OK or InvalidArgument, no other value (10_state.md R35). -/
inductive GenStatus where
  | ok
  | invalidArgument
deriving DecidableEq, Repr

/-- The sample memory as bytes (20_memory.md R62): strictly rising byte addresses, no entry equal to what an
unlisted byte reads as. -/
abbrev Memory := List Host.Cell

/-- One step an agent is about to take: the script lines of 30_encoding.md R88, and the inputs from outside
the block (log 5, DESIGN CHOICE). -/
inductive Action where
  /-- `RD`: the host reads a register, `size` bytes at bus address `addr`. -/
  | rd (size addr : Nat)
  /-- `WR`: the host writes a register; a write of CMD is a command. -/
  | wr (size addr : Nat) (value : Word)
  /-- The host fills one sample-memory cell by means of its own (20_memory.md R60; log 10). -/
  | poke (cell : Nat) (value : Sample)
  /-- `@TICK` or `@COMPLETE`, by its EVT tag. -/
  | evt (tag : BitVec 2)
  /-- `@HANDLER`: the handler body without the delivery condition. -/
  | handler
  /-- A micro-operation called on its own, by its UOP tag, with its caller's operands (log 7). -/
  | uop (tag : BitVec 2) (x y : Word)
  /-- The `rst` port (60_exceptions.md R205; log 17). -/
  | rst
deriving DecidableEq, Repr

/-- The block raises no synchronous exception, trap or fault (60_exceptions.md R190), and "no operation is
fatal": there is no fault reason (log 21, DEDUCED; safe). -/
inductive Fault where
deriving DecidableEq, Repr

/-- Why an operation has no step (00_scope.md R12). The first eight after `notModelled` are the complete list
of 60_exceptions.md R192. A refusal is safe: nothing is proved through it. -/
inductive Refusal where
  /-- exec, for an operation that has no meaning yet. Safe. -/
  | notModelled (mnemonic : String)
  /-- A CMD write of a reserved word (30_encoding.md R86). Safe. -/
  | reservedCommand
  /-- A register access not 32 bits wide or not 4-byte aligned (10_state.md R38). Safe. -/
  | badRegisterAccess
  /-- INIT while STATE is not Stopped (42_playback.md R143). Safe. -/
  | initWhileActive
  /-- START with length 0 (42_playback.md R145). Safe. -/
  | lengthZero
  /-- START, GEN, or any access at or above MEM_CELLS (20_memory.md R61). Safe. -/
  | bufferOutOfRange
  /-- TDIV of rate 0 (41_timer.md R120). Safe. -/
  | rateZero
  /-- TDIV of a rate above CLOCK_RATE (41_timer.md R120). Safe. -/
  | rateAboveClock
  /-- TDIV whose period does not fit TIMER_BITS (41_timer.md R120). Safe. -/
  | periodOverflow
  /-- An EVT or UOP code that names no operation (30_encoding.md R82; log 14). Safe. -/
  | unnamedTag
  /-- A bus address below REG_BASE: no register of this block (log 13). Safe. -/
  | outsideBlock
  /-- A read of RAMP at an index of N_RAMP or more; no reachable state does it (log 12). Safe. -/
  | rampCellOutOfRange
  /-- TICK with REMAIN = 0 or REMAIN > ACT_LEN; no reachable state does it (10_state.md R40; log 12). Safe. -/
  | positionOutOfRange
deriving DecidableEq, Repr

/-- All the state the spec gives the block (10_state.md R20, 00_scope.md R14), then the model's own fields. -/
structure State where
  /-- The parameters of this machine (00_scope.md R8). No operation writes them. -/
  cfg : Cfg
  /-- STATE (R21). -/
  state : PlayState
  /-- ACT_SEL (R22). -/
  actSel : ActSel
  /-- ACT_ADDR (R22). -/
  actAddr : Nat
  /-- ACT_LEN (R22). -/
  actLen : Nat
  /-- TGT_ADDR (R23). -/
  tgtAddr : Nat
  /-- TGT_LEN (R23). -/
  tgtLen : Nat
  /-- TGT_RATE (R23). -/
  tgtRate : Nat
  /-- RAMP[0..N_RAMP-1] (R24). -/
  ramp : List Sample
  /-- MODE (R26). -/
  mode : Mode
  /-- RUN (R26). -/
  run : Bool
  /-- REMAIN (R27). -/
  remain : Nat
  /-- TIMER_PERIOD (R28). -/
  timerPeriod : Nat
  /-- OUT_EN (R29). -/
  outEn : Bool
  /-- IRQ_EN (R30). -/
  irqEn : Bool
  /-- IRQ_PEND (R30). -/
  irqPend : Bool
  /-- DAC_HOLD (R31). -/
  dacHold : Sample
  /-- ARG[0] = ARG_ADDR (R32). -/
  argAddr : Word
  /-- ARG[1] = ARG_LEN (R32). -/
  argLen : Word
  /-- ARG[2] = ARG_RATE (R32). -/
  argRate : Word
  /-- ARG[3] = ARG_AMP (R32). -/
  argAmp : Word
  /-- RESULT (R35). -/
  result : GenStatus
  /-- OUT, the output trace, oldest first (00_scope.md R14). -/
  out : List Sample
  /-- The sample memory (20_memory.md R61). -/
  mem : Memory
  /-- The model's own: the cells written while the sequencer referenced them, strictly rising (log 9). -/
  unsettled : List Nat
  /-- The model's own: how many free values have been drawn (log 9). -/
  draws : Nat
  /-- The model's own: what the last micro-operation run as a step of its own returned (log 7). -/
  uopRet : Nat
  /-- The model's own: the read-data port of the register bus (60_exceptions.md R205; log 11). -/
  busData : Word
  /-- The model's own: the steps the agents are about to take, the next first (log 5). -/
  agenda : List Action
deriving DecidableEq, Repr

/-- The block after hardware reset, for a configuration (10_state.md R42, 70_reset_and_hazards.md R220). The
items the table calls unspecified are 0 here (log 2 and log 3, DESIGN CHOICE). -/
def State.resetWith (c : Cfg) : State where
  cfg := c
  state := .stopped
  actSel := .ramp
  actAddr := 0
  actLen := 0
  tgtAddr := 0
  tgtLen := 0
  tgtRate := 0
  ramp := List.replicate c.nRamp 0
  mode := .oneShot
  run := false
  remain := 0
  timerPeriod := 0
  outEn := false
  irqEn := false
  irqPend := false
  dacHold := 0
  argAddr := 0
  argLen := 0
  argRate := 0
  argAmp := 0
  result := .ok
  out := []
  mem := []
  unsettled := []
  draws := 0
  uopRet := 0
  busData := 0
  agenda := []

/-- The machine right after reset, under the vector configuration (log 1, DESIGN CHOICE). -/
def State.reset : State := State.resetWith Cfg.vc

/-- The outcome of an operation of this block. -/
abbrev Res := Host.Outcome State Fault Refusal

end Sys2Proof.Machine
end

