-- ==== Sys2Proof/Machine/Ops.lean ====
section
/-! DEFINITION. The shared operations: updates of State by name, the sample memory, reads and writes of cells,
the backend's operations, and taking the completion interrupt. -/

namespace Sys2Proof.Machine

/-! ### Updates of State, one name each -/

/-- `STATE <- q`, the control transfer of the block (00_scope.md R10). -/
def State.setState (s : State) (q : PlayState) : State := { s with state := q }

/-- `ACT_SEL <- a`. -/
def State.setActSel (s : State) (a : ActSel) : State := { s with actSel := a }

/-- `ACT_ADDR <- a`. -/
def State.setActAddr (s : State) (a : Nat) : State := { s with actAddr := a }

/-- `ACT_LEN <- l`. -/
def State.setActLen (s : State) (l : Nat) : State := { s with actLen := l }

/-- `TGT_ADDR <- a ; TGT_LEN <- l ; TGT_RATE <- r`: the single-slot pending target (10_state.md R23). -/
def State.setTarget (s : State) (a l r : Nat) : State := { s with tgtAddr := a, tgtLen := l, tgtRate := r }

/-- All of RAMP. -/
def State.setRamp (s : State) (xs : List Sample) : State := { s with ramp := xs }

/-- `MODE <- m`: the backend's configure(mode) (41_timer.md R126). -/
def State.setMode (s : State) (m : Mode) : State := { s with mode := m }

/-- `RUN <- b`. -/
def State.setRun (s : State) (b : Bool) : State := { s with run := b }

/-- `REMAIN <- n`. -/
def State.setRemain (s : State) (n : Nat) : State := { s with remain := n }

/-- `TIMER_PERIOD <- p`. -/
def State.setPeriod (s : State) (p : Nat) : State := { s with timerPeriod := p }

/-- `OUT_EN <- b`. -/
def State.setOutEn (s : State) (b : Bool) : State := { s with outEn := b }

/-- `IRQ_EN <- b`. -/
def State.setIrqEn (s : State) (b : Bool) : State := { s with irqEn := b }

/-- `IRQ_PEND <- b`. -/
def State.setIrqPend (s : State) (b : Bool) : State := { s with irqPend := b }

/-- `OUT <- OUT ++ [v] ; DAC_HOLD <- v`: one sample reaches the converter (41_timer.md R128). -/
def State.emitSample (s : State) (v : Sample) : State := { s with out := s.out ++ [v], dacHold := v }

/-- `ARG_ADDR <- w`. -/
def State.setArgAddr (s : State) (w : Word) : State := { s with argAddr := w }

/-- `ARG_LEN <- w`. -/
def State.setArgLen (s : State) (w : Word) : State := { s with argLen := w }

/-- `ARG_RATE <- w`. -/
def State.setArgRate (s : State) (w : Word) : State := { s with argRate := w }

/-- `ARG_AMP <- w`. -/
def State.setArgAmp (s : State) (w : Word) : State := { s with argAmp := w }

/-- `RESULT <- g`. -/
def State.setResult (s : State) (g : GenStatus) : State := { s with result := g }

/-- The sample memory, with the marks of the cells written while referenced. -/
def State.setStore (s : State) (m : Memory) (u : List Nat) : State := { s with mem := m, unsettled := u }

/-- The model's draw counter (log 9). -/
def State.setDraws (s : State) (n : Nat) : State := { s with draws := n }

/-- The model's micro-operation result (log 7). -/
def State.setUopRet (s : State) (n : Nat) : State := { s with uopRet := n }

/-- The model's read-data port (log 11). -/
def State.setBusData (s : State) (w : Word) : State := { s with busData := w }

/-- The model's agenda (log 5). -/
def State.setAgenda (s : State) (l : List Action) : State := { s with agenda := l }

/-! ### Outcomes -/

/-- Go on with a value, or refuse for the reason there is none (00_scope.md R12). -/
def withVal {α : Type} (r : Except Refusal α) (k : α → Res) : Res :=
  match r with
  | .ok v => k v
  | .error e => .refused e

/-! ### The sample memory as bytes -/

/-- What a byte of the sample memory that nothing has written reads as (log 3, DESIGN CHOICE, unsafe). -/
def unlistedByte : Byte := 0

/-- The canonical form: byte addresses strictly rising, no entry equal to an unlisted byte. -/
abbrev Memory.wf (m : Memory) : Prop :=
  m.Pairwise (fun p q => p.1 < q.1) ∧ ∀ p ∈ m, p.2 ≠ unlistedByte

/-- The byte at a byte address. -/
def Memory.readByte : Memory → Nat → Byte
  | [], _ => unlistedByte
  | (b, v) :: m, a => if a = b then v else Memory.readByte m a

/-- An entry before the rest of the list, unless it says what an unlisted byte says anyway. -/
def Memory.entry (a : Nat) (v : Byte) (m : Memory) : Memory := if v = unlistedByte then m else (a, v) :: m

/-- Write one byte and keep the canonical form. -/
def Memory.writeByte : Memory → Nat → Byte → Memory
  | [], a, v => Memory.entry a v []
  | (b, w) :: m, a, v =>
    if a < b then Memory.entry a v ((b, w) :: m)
    else if a = b then Memory.entry a v m
    else (b, w) :: Memory.writeByte m a v

/-- The byte address of a cell's low byte (20_memory.md R62). -/
def lowByteAddr (o : ByteOrder) (a : Nat) : Nat :=
  match o with
  | .little => 2 * a
  | .big => 2 * a + 1

/-- The byte address of a cell's high byte (20_memory.md R62). -/
def highByteAddr (o : ByteOrder) (a : Nat) : Nat :=
  match o with
  | .little => 2 * a + 1
  | .big => 2 * a

/-- The value of sample-memory cell `a`, made of the bytes 2a and 2a+1 (20_memory.md R61, R62). -/
def Memory.readCell (o : ByteOrder) (m : Memory) (a : Nat) : Sample :=
  m.readByte (highByteAddr o a) ++ m.readByte (lowByteAddr o a)

/-- Replace sample-memory cell `a` (20_memory.md R61, R62). -/
def Memory.writeCell (o : ByteOrder) (m : Memory) (a : Nat) (v : Sample) : Memory :=
  (m.writeByte (lowByteAddr o a) (v.extractLsb' 0 8)).writeByte (highByteAddr o a) (v.extractLsb' 8 8)

/-- The cell's stored value, as the host finds it. -/
def State.cell (s : State) (a : Nat) : Sample := s.mem.readCell s.cfg.byteOrder a

/-! ### The borrow rule, 20_memory.md R67 -/

/-- Whether the sequencer references cell `a`: the buffer a START named is referenced until the next START or
STOP, so it is the pending target in RampingUp and the active buffer in Playing (20_memory.md R67,
93_implementation_defined.md U9; log 22, DEDUCED). -/
def State.references (s : State) (a : Nat) : Bool :=
  match s.state with
  | .stopped => false
  | .rampingUp => decide (s.tgtAddr ≤ a) && decide (a < s.tgtAddr + s.tgtLen)
  | .playing => decide (s.actAddr ≤ a) && decide (a < s.actAddr + s.actLen)
  | .rampingDown => false

/-- Add a cell to a strictly rising list of cells. -/
def markCell (a : Nat) : List Nat → List Nat
  | [] => [a]
  | b :: l => if a < b then a :: b :: l else if a = b then b :: l else b :: markCell a l

/-- Store a cell, and mark it when the sequencer references it (20_memory.md R67, 43_wavegen.md R180). -/
def State.storeSample (s : State) (a : Nat) (v : Sample) : State :=
  s.setStore (s.mem.writeCell s.cfg.byteOrder a v)
    (if s.references a then markCell a s.unsettled else s.unsettled)

/-! ### Reads by the block -/

/-- `MemRead(a, 1)`: a cell at or above MEM_CELLS is refused (20_memory.md R61). A cell written while it was
referenced reads as the free value number `k` (R67; log 9). -/
def memRead (k : Nat) (s : State) (a : Nat) : Except Refusal Sample :=
  if s.cfg.memCells ≤ a then .error .bufferOutOfRange
  else if a ∈ s.unsettled then .ok (Config.freeCell k)
  else .ok (s.cell a)

/-- `RAMP[i]`, 0 <= i < N_RAMP (00_scope.md R10; log 12 for any other i). -/
def rampRead (s : State) (i : Nat) : Except Refusal Sample :=
  match s.ramp[i]? with
  | some v => .ok v
  | none => .error .rampCellOutOfRange

/-- `ActRead(i)`: cell i of the active buffer (00_scope.md R10, 20_memory.md R64). -/
def actRead (k : Nat) (s : State) (i : Nat) : Except Refusal Sample :=
  match s.actSel with
  | .ramp => rampRead s i
  | .external => memRead k s (s.actAddr + i)

/-! ### The backend's operations, 41_timer.md R126 -/

/-- The backend's stop(): REMAIN, MODE and the ACT fields stay. -/
def backendStop (s : State) : State := s.setRun false

/-- The backend's start over the ramp buffer: ACT_ADDR is not used and stays (10_state.md R22). -/
def backendStartRamp (s : State) : State :=
  (((s.setActSel .ramp).setActLen s.cfg.nRamp).setRemain s.cfg.nRamp).setRun true

/-- The backend's start over the caller's buffer of `l` samples at cell `a`. -/
def backendStartBuffer (a l : Nat) (s : State) : State :=
  ((((s.setActSel .external).setActAddr a).setActLen l).setRemain l).setRun true

/-- Stop the backend, configure it one-shot at the ramp's period, start it over the ramp buffer: step 5 of
START and step 4 of STOP (42_playback.md R144, R146). -/
def beginRamp (period : Nat) (s : State) : State :=
  backendStartRamp (((backendStop s).setMode .oneShot).setPeriod period)

/-- Stop the transfer, disable the output and the completion interrupt source: the RampingDown arm of the
handler (42_playback.md R148). -/
def shutDown (s : State) : State :=
  (((s.setOutEn false).setRun false).setIrqEn false).setState .stopped

/-- Loop the pending target at its period: the RampingUp arm of the handler (42_playback.md R148). -/
def beginLoop (period : Nat) (s : State) : State :=
  ((backendStartBuffer s.tgtAddr s.tgtLen ((s.setMode .autoRepeat).setPeriod period)).setIrqEn false).setState
    .playing

/-! ### The completion interrupt: the one exception-like event of the block

Taking it saves nothing and switches nothing: there is no saved program counter, no saved status and no vector
(60_exceptions.md R200). What is done on entry is the acknowledge; what follows is the one fixed handler body of
42_playback.md R148 (`handlerBody` in Playback.lean). There is no return operation (R201): the handler ends when
its body ends and leaves IRQ_EN as the body left it. -/

/-- Taking the completion interrupt: the acknowledge, `IRQ_PEND <- 0`, in every state (60_exceptions.md R197a). -/
def takeCompletion (s : State) : State := s.setIrqPend false

end Sys2Proof.Machine
end

