-- ==== Sys2Proof/Machine/Operands.lean ====
section
/-! DEFINITION. The operand forms: the ARG registers and their hardwired bits, and the register space. -/

namespace Sys2Proof.Machine

/-- The low `n` bits of a word; the bits above are hardwired to zero (10_state.md R32). -/
def lowBits (n : Nat) (w : Word) : Word := BitVec.ofNat 32 (w.toNat % 2 ^ n)

/-- `ARG_ADDR[ADDR_BITS-1:0]`, a cell index (10_state.md R32, 30_encoding.md R83). -/
def opAddr (s : State) : Nat := (lowBits s.cfg.addrBits s.argAddr).toNat

/-- `ARG_LEN[LEN_BITS-1:0]`. -/
def opLen (s : State) : Nat := (lowBits s.cfg.lenBits s.argLen).toNat

/-- `ARG_RATE[RATE_BITS-1:0]`. -/
def opRate (s : State) : Nat := (lowBits s.cfg.rateBits s.argRate).toNat

/-- `ARG_AMP[CELL_BITS-1:0]`. -/
def opAmp (s : State) : Nat := (lowBits 16 s.argAmp).toNat

end Sys2Proof.Machine
end

