-- ==== Sys2Proof/Machine/Flags.lean ====
section
/-! DEFINITION. The one-bit flags of 10_state.md R37, their numeric encodings, the STATUS view and every rule that
sets or clears a flag as a unit: the completion signal, the mask, the arm, the interrupt line. -/

namespace Sys2Proof.Machine

/-- STATE's numbers: Stopped 0, RampingUp 1, Playing 2, RampingDown 3 (10_state.md R21). -/
def PlayState.code : PlayState → BitVec 2
  | .stopped => 0
  | .rampingUp => 1
  | .playing => 2
  | .rampingDown => 3

/-- MODE's bit: OneShot 0, AutoRepeat 1 (10_state.md R26). -/
def Mode.bit : Mode → Bool
  | .oneShot => false
  | .autoRepeat => true

/-- ACT_SEL's bit: ramp buffer 0, caller's buffer 1 (10_state.md R22). -/
def ActSel.bit : ActSel → Bool
  | .ramp => false
  | .external => true

/-- RESULT's codes: OK 0, InvalidArgument 1 (10_state.md R35). -/
def GenStatus.code : GenStatus → Word
  | .ok => 0
  | .invalidArgument => 1

/-- The STATUS view (10_state.md R34): STATE in bits 1:0, OUT_EN 2, IRQ_EN 3, IRQ_PEND 4, RUN 5, MODE 6, ACT_SEL 7,
bits 31:8 zero. -/
def statusWord (s : State) : Word :=
  0#24 ++ BitVec.ofBool s.actSel.bit ++ BitVec.ofBool s.mode.bit ++ BitVec.ofBool s.run ++
    BitVec.ofBool s.irqPend ++ BitVec.ofBool s.irqEn ++ BitVec.ofBool s.outEn ++ s.state.code

/-- COMPLETE is enabled, and the `irq` port is 1, if and only if IRQ_PEND = 1 and IRQ_EN = 1
(60_exceptions.md R196, R205). -/
def irqLine (s : State) : Bool := s.irqPend && s.irqEn

/-- Mask the completion source: step 1 of START and STOP (42_playback.md R144, R146). -/
def maskIrq (s : State) : State := s.setIrqEn false

/-- Arm the completion source: a latched completion is discarded if CLEAR_ON_ARM, then IRQ_EN is set
(60_exceptions.md R197c). -/
def armIrq (s : State) : State := (s.setIrqPend (if s.cfg.clearOnArm then false else s.irqPend)).setIrqEn true

/-- The backend's counter after one sample, and the completion signal when it reaches 0: reload in AutoRepeat,
stop in OneShot (41_timer.md R128, 60_exceptions.md R195). -/
def countDown (s : State) : State :=
  if s.remain - 1 = 0 then
    match s.mode with
    | .autoRepeat => (s.setIrqPend true).setRemain s.actLen
    | .oneShot => ((s.setIrqPend true).setRemain 0).setRun false
  else s.setRemain (s.remain - 1)

end Sys2Proof.Machine
end

