-- ==== Sys2Proof/Machine/Ramp.lean ====
section
/-! DEFINITION. The ramp generator: CURSAMP and RAMPFILL (40_ramp.md). -/

namespace Sys2Proof.Machine

/-- POS, the playback position: `ACT_LEN - REMAIN` as a mathematical integer (10_state.md R36, 40_ramp.md R101). -/
def playPos (s : State) : Int := (s.actLen : Int) - (s.remain : Int)

/-- The index CURSAMP uses: POS, clamped to 0 outside 0..ACT_LEN-1 (40_ramp.md R101, R102). -/
def liveIndex (s : State) : Nat :=
  if playPos s < 0 ∨ (s.actLen : Int) ≤ playPos s then 0 else (playPos s).toNat

/-- CURSAMP: SILENCE in Stopped, else the active buffer at the clamped index (40_ramp.md R101, R103). `k` numbers
the free value a read of an unsettled cell would draw. -/
def curSamp (k : Nat) (s : State) : Except Refusal Sample :=
  match s.state with
  | .stopped => .ok s.cfg.silence
  | .rampingUp => actRead k s (liveIndex s)
  | .playing => actRead k s (liveIndex s)
  | .rampingDown => actRead k s (liveIndex s)

/-- RAMPFILL's step: `tdiv(end - start, N_RAMP)`, toward zero (40_ramp.md R104). -/
def rampStep (n : Nat) (seed goal : Sample) : Int := Int.tdiv ((goal.toNat : Int) - (seed.toNat : Int)) (n : Int)

/-- RAMPFILL's value for cell i: `start + step*(i+1)` (40_ramp.md R104). -/
def rampValue (n : Nat) (seed goal : Sample) (i : Nat) : Int :=
  (seed.toNat : Int) + rampStep n seed goal * ((i : Int) + 1)

/-- The N_RAMP cells RAMPFILL writes; every value fits a cell (40_ramp.md R105). -/
def rampCells (n : Nat) (seed goal : Sample) : List Sample :=
  (List.range n).map fun i => BitVec.ofInt 16 (rampValue n seed goal i)

/-- RAMPFILL(start, end): all of RAMP, nothing else (40_ramp.md R104). -/
def rampFill (seed goal : Sample) (s : State) : State := s.setRamp (rampCells s.cfg.nRamp seed goal)

/-- CURSAMP taken as a step of its own: its result goes to the caller (log 7). -/
def execCursamp (s : State) : Res :=
  withVal (curSamp s.draws s) fun v => .next ((s.setUopRet v.toNat).setDraws (s.draws + 1))

/-- RAMPFILL taken as a step of its own (log 7). -/
def execRampfill (seed goal : Sample) (s : State) : Res := .next (rampFill seed goal s)

end Sys2Proof.Machine
end

