-- ==== Sys2Proof/Machine/Timer.lean ====
section
/-! DEFINITION. The timer divider and the sample tick: TDIV and TICK (41_timer.md). -/

namespace Sys2Proof.Machine

/-- TDIV(rate): the quotient first, then the subtraction, with the three refusals (41_timer.md R120). -/
def timerDivide (c : Cfg) (rate : Nat) : Except Refusal Nat :=
  if rate = 0 then .error .rateZero
  else if c.clockRate / rate = 0 then .error .rateAboveClock
  else if 2 ^ c.timerBits ≤ c.clockRate / rate - 1 then .error .periodOverflow
  else .ok (c.clockRate / rate - 1)

/-- TDIV taken as a step of its own: its result goes to the caller (log 7). -/
def execTdiv (rate : Nat) (s : State) : Res :=
  withVal (timerDivide s.cfg rate) fun p => .next (s.setUopRet p)

/-- TICK with RUN = 1: emit the active buffer's cell at POS, then count down (41_timer.md R128). The position is
in range by 10_state.md R40(a); log 12 for a state that breaks it. -/
def tickRunning (s : State) : Res :=
  if s.remain = 0 ∨ s.actLen < s.remain then .refused .positionOutOfRange
  else withVal (actRead s.draws s (s.actLen - s.remain)) fun v =>
    .next (countDown ((s.emitSample v).setDraws (s.draws + 1)))

/-- TICK: enabled if and only if RUN = 1 (41_timer.md R128). Offered while RUN = 0 it takes no step and has no
effect (60_exceptions.md R208; log 6, DEDUCED). -/
def execTick (s : State) : Res := if s.run then tickRunning s else .next s

end Sys2Proof.Machine
end

