-- ==== Sys2Proof/Machine/Playback.lean ====
section
/-! DEFINITION. The playback sequencer: INIT, START, STOP, COMPLETE (42_playback.md). -/

namespace Sys2Proof.Machine

/-- What INIT writes (42_playback.md R143). -/
def initBody (s : State) : State :=
  ((((((((s.setState .stopped).setOutEn false).setRun false).setIrqEn false).setIrqPend false).setMode
    .oneShot).setActSel .ramp).setRemain 0).setResult .ok

/-- INIT: refused while STATE is not Stopped (42_playback.md R143). -/
def execInit (s : State) : Res :=
  match s.state with
  | .stopped => .next (initBody s)
  | .rampingUp => .refused .initWhileActive
  | .playing => .refused .initWhileActive
  | .rampingDown => .refused .initWhileActive

/-- Steps 1 and 4 to 9 of START, once the seed and the goal are read (42_playback.md R144). -/
def startBody (a l r : Nat) (seed goal : Sample) (period : Nat) (s : State) : State :=
  armIrq ((((beginRamp period (rampFill seed goal (maskIrq s))).setOutEn true).setTarget a l r).setState .rampingUp)

/-- START's refusals, in order, before any state changes (42_playback.md R145, 60_exceptions.md R193). -/
def startCheck (s : State) : Except Refusal Unit :=
  if opLen s = 0 then .error .lengthZero
  else if s.cfg.memCells < opAddr s + opLen s then .error .bufferOutOfRange
  else match timerDivide s.cfg (opRate s) with
    | .ok _ => .ok ()
    | .error e => .error e

/-- START (42_playback.md R144). The seed and the goal are read before RAMPFILL's first write. -/
def execStart (s : State) : Res :=
  withVal (startCheck s) fun _ =>
  withVal (curSamp s.draws s) fun seed =>
  withVal (memRead (s.draws + 1) s (opAddr s)) fun goal =>
  withVal (timerDivide s.cfg s.cfg.rampRate) fun period =>
  .next ((startBody (opAddr s) (opLen s) (opRate s) seed goal period s).setDraws (s.draws + 2))

/-- Steps 1 and 3 to 6 of STOP, once the seed is read (42_playback.md R146). -/
def stopBody (seed : Sample) (period : Nat) (s : State) : State :=
  armIrq ((beginRamp period (rampFill seed s.cfg.silence (maskIrq s))).setState .rampingDown)

/-- STOP in a state that is not Stopped (42_playback.md R146). -/
def stopActive (s : State) : Res :=
  withVal (curSamp s.draws s) fun seed =>
  withVal (timerDivide s.cfg s.cfg.rampRate) fun period =>
  .next ((stopBody seed period s).setDraws (s.draws + 1))

/-- STOP: a no-op in Stopped, "nothing at all is written" (42_playback.md R146). -/
def execStop (s : State) : Res :=
  match s.state with
  | .stopped => .next s
  | .rampingUp => stopActive s
  | .playing => stopActive s
  | .rampingDown => stopActive s

/-- HANDLER(), the one fixed handler body (42_playback.md R148). -/
def handlerBody (s : State) : Res :=
  match s.state with
  | .rampingDown => .next (shutDown s)
  | .rampingUp => withVal (timerDivide s.cfg s.tgtRate) fun period => .next (beginLoop period s)
  | .playing => .next s
  | .stopped => .next s

/-- COMPLETE: enabled if and only if IRQ_PEND = 1 and IRQ_EN = 1 (42_playback.md R148, 60_exceptions.md R196).
Offered while it is not enabled it takes no step (log 6, DEDUCED). -/
def execComplete (s : State) : Res := if irqLine s then handlerBody (takeCompletion s) else .next s

end Sys2Proof.Machine
end

