-- ==== Sys2Proof/Machine/Sine.lean ====
section
/-! DEFINITION. SineSample, the sine's sample function within the bounds of 43_wavegen.md R176 (log 8).

The exact value of sample i is `x = A * (1 - cos(2*pi*i/l)) / 2`. It is bracketed between two rationals, by a bracket
of pi and by partial sums of the series of `1 - cos`, which lie alternately above and below it. When the two have the
same floor, that is the floor of x. Otherwise each integer between them is compared with x exactly, by turning l times
through the angle at which the wave reaches that integer. -/

namespace Sys2Proof.Machine

/-- `pi * 10^40`, rounded down. -/
def piScaled : Nat := 31415926535897932384626433832795028841971

/-- The scale of `piScaled`. -/
def piScale : Nat := 10 ^ 40

/-- The factor between the denominators of two neighbouring partial sums. -/
def versinScale (d k : Nat) : Nat := d ^ 2 * ((2 * k + 1) * (2 * k + 2))

/-- The denominator of the k-th partial sum at the angle n/d: `d^(2k) * (2k)!`. -/
def versinDen (d : Nat) : Nat → Nat
  | 0 => 1
  | k + 1 => versinDen d k * versinScale d k

/-- The numerator of the k-th partial sum of `1 - cos(n/d)`, the sum of `(-1)^(j+1) (n/d)^(2j) / (2j)!` over
`j = 1..k`. -/
def versinNum (n d : Nat) : Nat → Int
  | 0 => 0
  | k + 1 =>
    versinNum n d k * (versinScale d k : Int) +
      (if k % 2 = 0 then ((n ^ (2 * k + 2) : Nat) : Int) else -((n ^ (2 * k + 2) : Nat) : Int))

/-- `floor(A/2 * V)` for the k-th partial sum V of `1 - cos` at the angle n/d. -/
def halfVersinFloor (A n d k : Nat) : Nat := ((A : Int) * versinNum n d k / ((2 * versinDen d k : Nat) : Int)).toNat

/-- The sample's mirror index: the cosine is symmetric about phase 1/2. -/
def sineFold (i l : Nat) : Nat := min i (l - i)

/-- The floor of the k-th partial sum for x, with `pn / pd` in the place of pi. -/
def sineTruncated (pn pd k i l A : Nat) : Nat := halfVersinFloor A (2 * pn * sineFold i l) (pd * l) k

/-- The angle `k * psi`, exactly, where `cos psi = p / q` and `0 < psi < pi`: it is `turns` half turns and a rest r in
`[0, pi]`, with `c = q^k cos r` and `s * sqrt(q^2 - p^2) = q^k sin r`. -/
structure HalfTurns where
  turns : Nat
  c : Int
  s : Int
deriving DecidableEq, Repr

/-- One more psi; the sine of the rest turns negative when the rest passes pi. `d` is `q^2 - p^2`. -/
def HalfTurns.add (p d : Int) (h : HalfTurns) : HalfTurns :=
  if h.c + p * h.s < 0 then ⟨h.turns + 1, -(p * h.c - d * h.s), -(h.c + p * h.s)⟩
  else ⟨h.turns, p * h.c - d * h.s, h.c + p * h.s⟩

/-- `k * psi`. -/
def halfTurns (p d : Int) : Nat → HalfTurns
  | 0 => ⟨0, 1, 0⟩
  | k + 1 => (halfTurns p d k).add p d

/-- `n <= x`, decided exactly, for `0 < n < A`. With `cos psi = 1 - 2*n/A` it is `psi <= 2*pi*f/l`, so `l * psi` is at
most 2*f half turns. -/
def sineReaches (f l A n : Nat) : Bool :=
  (halfTurns ((A : Int) - 2 * n) (4 * n * ((A : Int) - n)) l).turns < 2 * f

/-- The greatest of `lo + 1 .. lo + k` that is at most x, or lo. -/
def sineSearch (f l A lo : Nat) : Nat → Nat
  | 0 => lo
  | k + 1 => if sineReaches f l A (lo + k + 1) then lo + k + 1 else sineSearch f l A lo k

/-- The floor of a lower bound of x. -/
def sineLow (i l A : Nat) : Nat := sineTruncated piScaled piScale 26 i l A

/-- The floor of an upper bound of x. -/
def sineHigh (i l A : Nat) : Nat := sineTruncated (piScaled + 1) piScale 25 i l A

/-- `floor(x)` where the cosine is irrational: the bounds' floors agree for all but the rarest operands, and where
they differ the integers between them are tried. -/
def sineFloor (i l A : Nat) : Nat :=
  sineSearch (sineFold i l) l A (sineLow i l A) (min (sineHigh i l A) (A - 1) - sineLow i l A)

/-- SineSample(i, l, A), for i < l (43_wavegen.md R176): where the cosine is rational, at the phases that are multiples
of 1/4 or of 1/6, the exact floor; elsewhere the floor of the exact value, or one above it at the points the
configuration lists (log 8). -/
def sineSample (above : List SinePoint) (i l A : Nat) : Nat :=
  if i = 0 then 0
  else if 2 * i = l then A
  else if 4 * i = l ∨ 4 * i = 3 * l then A / 2
  else if 6 * i = l ∨ 6 * i = 5 * l then A / 4
  else if 3 * i = l ∨ 3 * i = 2 * l then 3 * A / 4
  else min A (if (⟨i, l, A⟩ : SinePoint) ∈ above then sineFloor i l A + 1 else sineFloor i l A)

end Sys2Proof.Machine
end

