-- ==== Sys2Proof/Machine/Wavegen.lean ====
section
/-! DEFINITION. The waveform generator: GEN.SINE, GEN.TRI, GEN.SAW, GEN.SQUARE and GEN's failure forms
(43_wavegen.md). -/

namespace Sys2Proof.Machine

/-- `f_SAW(i, l, A) = floor(i*A / l)` (43_wavegen.md R173). -/
def sawSample (i l A : Nat) : Nat := i * A / l

/-- `f_SQUARE` (43_wavegen.md R174). -/
def squareSample (i l A : Nat) : Nat := if 2 * i < l then 0 else if 2 * i = l then A / 2 else A

/-- `f_TRI` (43_wavegen.md R175). -/
def triSample (i l A : Nat) : Nat := if 2 * i ≤ l then 2 * i * A / l else 2 * (l - i) * A / l

/-- `n` cells from index i on, ascending: `MemWrite(a + i, 1, f(i))` (43_wavegen.md R171). -/
def fillCells (f : Nat → Nat) (a : Nat) : Nat → Nat → State → State
  | 0, _, s => s
  | n + 1, i, s => fillCells f a n (i + 1) (s.storeSample (a + i) (BitVec.ofNat 16 (f i)))

/-- GEN.w with a recognized wave type: length 0, then the range, then the cells (43_wavegen.md R171, R177, R179). -/
def genWave (f : Nat → Nat → Nat → Nat) (s : State) : Res :=
  if opLen s = 0 then .next (s.setResult .invalidArgument)
  else if s.cfg.memCells < opAddr s + opLen s then .refused .bufferOutOfRange
  else .next ((fillCells (fun i => f i (opLen s) (opAmp s)) (opAddr s) (opLen s) 0 s).setResult .ok)

/-- GEN with an unrecognized wave type: RESULT <- 1, no cell is written, whatever ARG holds (43_wavegen.md R178). -/
def genBadWave (s : State) : Res := .next (s.setResult .invalidArgument)

/-- GEN.SINE (43_wavegen.md R176). -/
def execGenSine (s : State) : Res := genWave (sineSample s.cfg.sineAbove) s

/-- GEN.TRI (43_wavegen.md R175). -/
def execGenTri (s : State) : Res := genWave triSample s

/-- GEN.SAW (43_wavegen.md R173). -/
def execGenSaw (s : State) : Res := genWave sawSample s

/-- GEN.SQUARE (43_wavegen.md R174). -/
def execGenSquare (s : State) : Res := genWave squareSample s

/-- GEN.BADWAVE_LO, wave 4..7: the wave number does not matter (43_wavegen.md R178). -/
def execGenBadWaveLo (_wave : BitVec 4) (s : State) : Res := genBadWave s

/-- GEN.BADWAVE_HI, wave 8..15: the wave number does not matter (43_wavegen.md R178). -/
def execGenBadWaveHi (_wave : BitVec 4) (s : State) : Res := genBadWave s

end Sys2Proof.Machine
end

