-- ==== Sys2Proof/Machine/Dispatch.lean ====
section
/-! DEFINITION. One arm per operation. -/

namespace Sys2Proof.Machine

def exec (i : Instr) (s : State) : Host.Outcome State Fault Refusal :=
  match i with
  | .init => Sys2Proof.Machine.execInit s
  | .start => Sys2Proof.Machine.execStart s
  | .stop => Sys2Proof.Machine.execStop s
  | .genSine => Sys2Proof.Machine.execGenSine s
  | .genTri => Sys2Proof.Machine.execGenTri s
  | .genSaw => Sys2Proof.Machine.execGenSaw s
  | .genSquare => Sys2Proof.Machine.execGenSquare s
  | .genBadWaveLo wave => Sys2Proof.Machine.execGenBadWaveLo wave s
  | .genBadWaveHi wave => Sys2Proof.Machine.execGenBadWaveHi wave s
  | .tick => Sys2Proof.Machine.execTick s
  | .complete => Sys2Proof.Machine.execComplete s
  | .cursamp => Sys2Proof.Machine.execCursamp s
  | .rampfill seed goal => Sys2Proof.Machine.execRampfill seed goal s
  | .tdiv rate => Sys2Proof.Machine.execTdiv rate s

end Sys2Proof.Machine
end

