-- ==== Sys2Proof/Machine/Agents.lean ====
section
/-! DEFINITION. The agents' steps: the host's register reads and writes (10_state.md R32 to R44), the events, and the
inputs from outside the block. -/

namespace Sys2Proof.Machine

/-- The refusal a code that names no operation ends in: a CMD word is reserved (30_encoding.md R86), an EVT or UOP
code is the model's own (log 14). -/
def rejectReason : Reject → Refusal
  | .reservedBits => .reservedCommand
  | .reservedWave => .reservedCommand
  | .reservedOpcode => .reservedCommand
  | .unnamedTag => .unnamedTag
  | .strayOperand => .unnamedTag

/-- Decode a code and execute the operation, once, as one step (10_state.md R33). -/
def runCode (c : Code) (s : State) : Res :=
  match decode c with
  | .ok i => exec i s
  | .error e => .refused (rejectReason e)

/-- What a read of the register at an offset returns: CMD and the reserved offsets 0, STATUS the view, ARG with its
hardwired bits, RESULT (10_state.md R32 to R38, R44). -/
def readReg (s : State) (off : Nat) : Word :=
  if off = 0x04 then statusWord s
  else if off = 0x08 then lowBits s.cfg.addrBits s.argAddr
  else if off = 0x0C then lowBits s.cfg.lenBits s.argLen
  else if off = 0x10 then lowBits s.cfg.rateBits s.argRate
  else if off = 0x14 then lowBits 16 s.argAmp
  else if off = 0x18 then s.result.code
  else 0

/-- What a write of the register at an offset does: CMD executes its word, ARG drops its hardwired bits, STATUS,
RESULT and the reserved offsets ignore it (10_state.md R32 to R38, R44). -/
def writeReg (s : State) (off : Nat) (w : Word) : Res :=
  if off = 0x00 then runCode (.cmd w) s
  else if off = 0x08 then .next (s.setArgAddr (lowBits s.cfg.addrBits w))
  else if off = 0x0C then .next (s.setArgLen (lowBits s.cfg.lenBits w))
  else if off = 0x10 then .next (s.setArgRate (lowBits s.cfg.rateBits w))
  else if off = 0x14 then .next (s.setArgAmp (lowBits 16 w))
  else .next s

/-- The register offset of a bus access of `size` bytes: below REG_BASE is no register of the block (log 13);
anything but an aligned 32-bit word is refused (10_state.md R38, 60_exceptions.md R192). -/
def busOffset (c : Cfg) (size addr : Nat) : Except Refusal Nat :=
  if addr < c.regBase then .error .outsideBlock
  else if size ≠ 4 ∨ (addr - c.regBase) % 4 ≠ 0 then .error .badRegisterAccess
  else .ok (addr - c.regBase)

/-- The host reads a register: no side effect (10_state.md R44); the value appears on the bus. -/
def hostRead (size addr : Nat) (s : State) : Res :=
  withVal (busOffset s.cfg size addr) fun off => .next (s.setBusData (readReg s off))

/-- The host writes a register. -/
def hostWrite (size addr : Nat) (w : Word) (s : State) : Res :=
  withVal (busOffset s.cfg size addr) fun off => writeReg s off w

/-- The host fills a cell by means of its own (20_memory.md R60, R61, R67; log 10). -/
def hostPoke (a : Nat) (v : Sample) (s : State) : Res :=
  if s.cfg.memCells ≤ a then .refused .bufferOutOfRange else .next (s.storeSample a v)

/-- The `rst` port: the block is as after hardware reset; what is not the block's (its configuration, the agenda and
the count of free values drawn) stays (70_reset_and_hazards.md R220; log 17). -/
def hardReset (s : State) : State := ((State.resetWith s.cfg).setDraws s.draws).setAgenda s.agenda

/-- One step of the agent an action names. -/
def perform (a : Action) (s : State) : Res :=
  match a with
  | .rd size addr => hostRead size addr s
  | .wr size addr w => hostWrite size addr w s
  | .poke c v => hostPoke c v s
  | .evt tag => runCode (.evt tag) s
  | .handler => handlerBody s
  | .uop tag x y => runCode (.uop tag x y) s
  | .rst => .next (hardReset s)

/-- Take the next action off the agenda and perform it; with none, no agent moves (log 5). -/
def takeAction (s : State) : Res :=
  match s.agenda with
  | [] => .next s
  | a :: rest => perform a (s.setAgenda rest)

/-- The action that makes a table word's code the next operation: the host's write of CMD, or the tag itself. -/
def codeAction (c : Cfg) : Code → Action
  | .cmd w => .wr 4 c.regBase w
  | .evt tag => .evt tag
  | .uop tag x y => .uop tag x y

/-- Put a table word in front of the agenda, where the next step takes it. -/
def scheduleWord (s : State) (nbits w : Nat) : State :=
  match tableCode nbits w with
  | some c => s.setAgenda (codeAction s.cfg c :: s.agenda)
  | none => s

end Sys2Proof.Machine
end

