-- ==== Sys2Proof/Machine/Step.lean ====
section
/-! DEFINITION. The step of the machine. -/

namespace Sys2Proof.Machine

/-- One step: the next action of the agenda, whole, in one total order (20_memory.md R68; log 5). -/
def step (s : State) : Host.Outcome State Fault Refusal := takeAction s

/-- The state whose next step runs the operation of a table word (the host's probe; log 5). -/
def State.withFetchWord (s : State) (nbits w : Nat) : State := scheduleWord s nbits w

end Sys2Proof.Machine
end

