-- ==== Sys2Proof/Safety.lean ====
section
/-! DEFINITION. What a safe run keeps: the invariants of 10_state.md R39 and R40, the widths of R20, the canonical
memory. -/

namespace Sys2Proof.Machine

/-- STATE is RampingUp or RampingDown. -/
abbrev State.ramping (s : State) : Prop := s.state = .rampingUp ∨ s.state = .rampingDown

/-- Every register holds an unsigned integer of its stated width (00_scope.md R9, 10_state.md R20), ARG's bits above
the parameter widths are zero (R32), and RAMP has N_RAMP cells (R24). -/
structure State.Widths (s : State) : Prop where
  actAddr : s.actAddr < 2 ^ s.cfg.addrBits
  actLen : s.actLen < 2 ^ s.cfg.lenBits
  tgtAddr : s.tgtAddr < 2 ^ s.cfg.addrBits
  tgtLen : s.tgtLen < 2 ^ s.cfg.lenBits
  tgtRate : s.tgtRate < 2 ^ s.cfg.rateBits
  remain : s.remain < 2 ^ s.cfg.lenBits
  timerPeriod : s.timerPeriod < 2 ^ s.cfg.timerBits
  argAddr : s.argAddr.toNat < 2 ^ s.cfg.addrBits
  argLen : s.argLen.toNat < 2 ^ s.cfg.lenBits
  argRate : s.argRate.toNat < 2 ^ s.cfg.rateBits
  argAmp : s.argAmp.toNat < 2 ^ 16
  ramp : s.ramp.length = s.cfg.nRamp

/-- The sample memory is in its canonical form and lists no byte outside MEM_CELLS cells; so are the marks. -/
structure State.StoreOk (s : State) : Prop where
  memWf : s.mem.wf
  memInside : ∀ p ∈ s.mem, p.1 < 2 * s.cfg.memCells
  marksRise : s.unsettled.Pairwise (· < ·)
  marksInside : ∀ a ∈ s.unsettled, a < s.cfg.memCells

/-- The sequencer's invariants: 10_state.md R39 and R40 (a) to (f), and what START's checks leave true of the
pending target and of the looped buffer (42_playback.md R145). -/
structure State.Sequenced (s : State) : Prop where
  position : s.run = true → 1 ≤ s.remain ∧ s.remain ≤ s.actLen
  runEnabled : s.run = true → s.outEn = true
  stopped : s.state = .stopped → s.outEn = false ∧ s.run = false ∧ s.irqEn = false
  active : s.state ≠ .stopped → s.outEn = true
  playing : s.state = .playing → s.mode = .autoRepeat ∧ s.run = true ∧ s.irqEn = false ∧ s.actSel = .external
  ramping : s.ramping → s.actSel = .ramp ∧ s.actLen = s.cfg.nRamp ∧ s.mode = .oneShot ∧ s.irqEn = true
  rampEnded : s.ramping → s.run = false → s.remain = 0 ∧ s.irqPend = true
  target : s.state = .rampingUp →
    1 ≤ s.tgtLen ∧ s.tgtAddr + s.tgtLen ≤ s.cfg.memCells ∧
      (timerDivide s.cfg s.tgtRate).toOption.isSome = true
  looped : s.state = .playing → s.actAddr + s.actLen ≤ s.cfg.memCells

/-- The invariant every step keeps, for every admitted configuration. -/
structure State.Inv (s : State) : Prop where
  cfgValid : s.cfg.Valid
  widths : s.Widths
  store : s.StoreOk
  sequenced : s.Sequenced

/-- `n` steps in a row, stopping at the first refusal. -/
def stepsFrom : Nat → State → Res
  | 0, s => .next s
  | n + 1, s =>
    match step s with
    | .next t => stepsFrom n t
    | .fault e => .fault e
    | .refused e => .refused e

/-- The same machine on a platform of either byte order: every field agrees but BYTE_ORDER and the bytes, and every
cell has the same value (20_memory.md R62). -/
def State.SameCells (s t : State) : Prop :=
  t = { s with cfg := { s.cfg with byteOrder := t.cfg.byteOrder }, mem := t.mem } ∧
    s.mem.wf ∧ t.mem.wf ∧ ∀ a, t.cell a = s.cell a

/-- GEN wrote the wave `f` and nothing else: from the state `s` to the state `t`, the `ARG_LEN` cells at `ARG_ADDR`
hold the wave's values at the amplitude ARG_AMP, RESULT is OK, no other byte and no other field of the spec changes (43_wavegen.md R171). The
model's marks of borrowed cells are not stated here. -/
structure GenWrote (f : Nat → Nat → Nat → Nat) (s t : State) : Prop where
  frame : t = { s with mem := t.mem, unsettled := t.unsettled, result := .ok }
  cells : ∀ i, i < opLen s → (t.cell (opAddr s + i)).toNat = f i (opLen s) (s.argAmp.toNat % 2 ^ 16)
  bytes : ∀ b, b < 2 * opAddr s ∨ 2 * (opAddr s + opLen s) ≤ b → t.mem.readByte b = s.mem.readByte b

end Sys2Proof.Machine
end

