-- ==== Sys2Proof/Certificates/Slice0/Obligations.lean ====
section
/-! DEFINITION. The statements about the model, each from a rule of the spec or from the sections it cites. -/

open Sys2Proof Sys2Proof.Machine

/-! ### Encoding, 30_encoding.md -/

/-- R81, R82, R83: no bit of an encoding is dropped; every operand value a well-formed operation can have comes
back. -/
def Obligations.DecodeOfEncodeIsIdentity : Prop :=
  ∀ i : Instr, i.wellFormed = true → decode (encode i) = .ok i

/-- R84, R85: an accepted code is the code of the operation it decodes to, and that operation is well formed; so no
operation has two codes. -/
def Obligations.AcceptedCodeIsCanonical : Prop :=
  ∀ (c : Code) (i : Instr), decode c = .ok i → encode i = c ∧ i.wellFormed = true

/-- R85, R86: decoding a CMD write, total on all 2^32 words, case by case, by the fields of R81; a reserved word is
refused, and the unrecognized wave type has the effect of R178. -/
def Obligations.CmdWordDecodingIsTotal : Prop :=
  ∀ w : Word,
    let opcode := w.toNat % 16
    let mbz0 := w.toNat / 16 % 16
    let wave := w.toNat / 256 % 16
    let mbz1 := w.toNat / 4096
    (mbz0 ≠ 0 ∨ mbz1 ≠ 0 → decode (.cmd w) = .error .reservedBits) ∧
    (mbz0 = 0 → mbz1 = 0 →
      (opcode = 1 → wave = 0 → decode (.cmd w) = .ok .init) ∧
      (opcode = 2 → wave = 0 → decode (.cmd w) = .ok .start) ∧
      (opcode = 3 → wave = 0 → decode (.cmd w) = .ok .stop) ∧
      (1 ≤ opcode → opcode ≤ 3 → wave ≠ 0 → decode (.cmd w) = .error .reservedWave) ∧
      (opcode = 4 → wave = 0 → decode (.cmd w) = .ok .genSine) ∧
      (opcode = 4 → wave = 1 → decode (.cmd w) = .ok .genTri) ∧
      (opcode = 4 → wave = 2 → decode (.cmd w) = .ok .genSaw) ∧
      (opcode = 4 → wave = 3 → decode (.cmd w) = .ok .genSquare) ∧
      (opcode = 4 → 4 ≤ wave →
        ∀ s : State, runCode (.cmd w) s = .next { s with result := .invalidArgument }) ∧
      (opcode = 0 ∨ 5 ≤ opcode → decode (.cmd w) = .error .reservedOpcode)) ∧
    (∀ e, decode (.cmd w) = .error e → ∀ s : State, runCode (.cmd w) s = .refused .reservedCommand)

/-- R87: the worked encodings. -/
def Obligations.WorkedEncodingsDecode : Prop :=
  decode (.cmd 0x00000001#32) = .ok .init ∧
  decode (.cmd 0x00000002#32) = .ok .start ∧
  decode (.cmd 0x00000003#32) = .ok .stop ∧
  decode (.cmd 0x00000004#32) = .ok .genSine ∧
  decode (.cmd 0x00000104#32) = .ok .genTri ∧
  decode (.cmd 0x00000204#32) = .ok .genSaw ∧
  decode (.cmd 0x00000304#32) = .ok .genSquare ∧
  decode (.cmd 0x00000404#32) = .ok (.genBadWaveLo 4) ∧
  decode (.cmd 0x00000000#32) = .error .reservedOpcode ∧
  decode (.cmd 0x00000102#32) = .error .reservedWave ∧
  decode (.cmd 0x00000012#32) = .error .reservedBits ∧
  decode (.cmd 0x00001002#32) = .error .reservedBits ∧
  decode (.cmd 0x00000005#32) = .error .reservedOpcode ∧
  decode (.evt 1#2) = .ok .tick ∧
  decode (.evt 2#2) = .ok .complete

/-- R84: no two rows of the opcode table match the same word, and a code that decodes lies in the row of its
operation's mnemonic. -/
def Obligations.OpcodeTableRowsAreDisjoint : Prop :=
  (∀ c : Code, ∀ r ∈ opcodeTable, ∀ r' ∈ opcodeTable, r.accepts c = true → r'.accepts c = true → r = r') ∧
  (∀ (c : Code) (i : Instr), decode c = .ok i →
    ∃ r ∈ opcodeTable, r.mnemonic = i.mnemonic ∧ r.accepts c = true)

/-! ### The step -/

/-- 10_state.md R33, 20_memory.md R68: a step takes the next action of the agenda, and when that action is a write of
CMD, an event or a micro-operation whose code decodes to `i`, the step is `exec i` at the state without the action.
With an empty agenda no agent moves (the model's choice, log 5). A word placed by withFetchWord is the next step. -/
def Obligations.StepRunsTheDecodedOperation : Prop :=
  (∀ (s : State) (w : Word) (i : Instr) (rest : List Action),
    s.agenda = .wr 4 s.cfg.regBase w :: rest → decode (.cmd w) = .ok i →
      step s = exec i { s with agenda := rest }) ∧
  (∀ (s : State) (tag : BitVec 2) (i : Instr) (rest : List Action),
    s.agenda = .evt tag :: rest → decode (.evt tag) = .ok i → step s = exec i { s with agenda := rest }) ∧
  (∀ (s : State) (tag : BitVec 2) (x y : Word) (i : Instr) (rest : List Action),
    s.agenda = .uop tag x y :: rest → decode (.uop tag x y) = .ok i →
      step s = exec i { s with agenda := rest }) ∧
  (∀ (s : State) (rest : List Action), s.agenda = .handler :: rest →
    step s = handlerBody { s with agenda := rest }) ∧
  (∀ s : State, s.agenda = [] → step s = .next s) ∧
  (∀ (s : State) (nbits w : Nat) (c : Code) (i : Instr),
    tableCode nbits w = some c → decode c = .ok i → step (s.withFetchWord nbits w) = exec i s)

/-! ### The register space, 10_state.md R32 to R44 -/

/-- R35, R44: what a read step of each register returns, and what a write step changes: a read has no side effect, CMD
and the reserved offsets read 0, RESULT reads 0 for OK and 1 for InvalidArgument, STATUS's reserved bits read 0, an ARG
register reads the bits of its parameter's width; a write of a read-only register or a reserved offset changes nothing, and
no write but CMD's has a side effect. Two clauses are the model's choice: every aligned offset from 0x1C up, with no upper
end, is taken as reserved (log 13), and the value read is put in the field `busData` (log 11). -/
def Obligations.RegisterAccessRights : Prop :=
  ∀ (s : State) (off : Nat) (rest : List Action), off % 4 = 0 →
    (s.agenda = .rd 4 (s.cfg.regBase + off) :: rest →
      ∃ v : Word, step s = .next { s with agenda := rest, busData := v } ∧
        (off = 0x00 ∨ 0x1C ≤ off → v = 0) ∧
        (off = 0x04 → v = statusWord s ∧ v.toNat < 256) ∧
        (off = 0x08 → v.toNat = s.argAddr.toNat % 2 ^ s.cfg.addrBits) ∧
        (off = 0x0C → v.toNat = s.argLen.toNat % 2 ^ s.cfg.lenBits) ∧
        (off = 0x10 → v.toNat = s.argRate.toNat % 2 ^ s.cfg.rateBits) ∧
        (off = 0x14 → v.toNat = s.argAmp.toNat % 2 ^ 16) ∧
        (off = 0x18 → (s.result = .ok → v = 0) ∧ (s.result = .invalidArgument → v = 1))) ∧
    (∀ w : Word, s.agenda = .wr 4 (s.cfg.regBase + off) w :: rest →
      (off = 0x04 ∨ off = 0x18 ∨ 0x1C ≤ off → step s = .next { s with agenda := rest }) ∧
      (off ≠ 0x00 → ∃ a l r m : Word, step s =
        .next { s with agenda := rest, argAddr := a, argLen := l, argRate := r, argAmp := m }))

/-- R32: a write of an ARG register keeps the bits of its parameter's width and drops those above, a read returns what
was kept, and no operation writes an ARG register. -/
def Obligations.ArgRegistersKeepTheirWidths : Prop :=
  (∀ (s : State) (w : Word),
    let cut (n : Nat) : Word := BitVec.ofNat 32 (w.toNat % 2 ^ n)
    hostWrite 4 (s.cfg.regBase + 0x08) w s = .next { s with argAddr := cut s.cfg.addrBits } ∧
    hostWrite 4 (s.cfg.regBase + 0x0C) w s = .next { s with argLen := cut s.cfg.lenBits } ∧
    hostWrite 4 (s.cfg.regBase + 0x10) w s = .next { s with argRate := cut s.cfg.rateBits } ∧
    hostWrite 4 (s.cfg.regBase + 0x14) w s = .next { s with argAmp := cut 16 } ∧
    readReg { s with argAddr := cut s.cfg.addrBits } 0x08 = cut s.cfg.addrBits ∧
    readReg { s with argLen := cut s.cfg.lenBits } 0x0C = cut s.cfg.lenBits ∧
    readReg { s with argRate := cut s.cfg.rateBits } 0x10 = cut s.cfg.rateBits ∧
    readReg { s with argAmp := cut 16 } 0x14 = cut 16) ∧
  (∀ (i : Instr) (s t : State), exec i s = .next t →
    t.argAddr = s.argAddr ∧ t.argLen = s.argLen ∧ t.argRate = s.argRate ∧ t.argAmp = s.argAmp)

/-- R34: STATUS, bit by bit; a read of it has no side effect and a write is ignored. -/
def Obligations.StatusViewLayout : Prop :=
  ∀ s : State,
    (statusWord s).toNat =
      (match s.state with
        | .stopped => 0
        | .rampingUp => 1
        | .playing => 2
        | .rampingDown => 3) +
      4 * s.outEn.toNat + 8 * s.irqEn.toNat + 16 * s.irqPend.toNat + 32 * s.run.toNat +
      64 * (match s.mode with
        | .oneShot => 0
        | .autoRepeat => 1) +
      128 * (match s.actSel with
        | .ramp => 0
        | .external => 1) ∧
    (∀ rest : List Action, s.agenda = .rd 4 (s.cfg.regBase + 4) :: rest →
      step s = .next { s with agenda := rest, busData := statusWord s }) ∧
    (∀ (w : Word) (rest : List Action), s.agenda = .wr 4 (s.cfg.regBase + 4) w :: rest →
      step s = .next { s with agenda := rest })

/-- R38, R192: a register access that is not an aligned 32-bit word is refused. -/
def Obligations.NarrowOrMisalignedAccessIsRefused : Prop :=
  ∀ (s : State) (size off : Nat) (w : Word) (rest : List Action), size ≠ 4 ∨ off % 4 ≠ 0 →
    (s.agenda = .rd size (s.cfg.regBase + off) :: rest → step s = .refused .badRegisterAccess) ∧
    (s.agenda = .wr size (s.cfg.regBase + off) w :: rest → step s = .refused .badRegisterAccess)

/-! ### Reset and the invariants -/

/-- 10_state.md R42, 70_reset_and_hazards.md R220: what the spec gives after hardware reset, for every configuration, at
the start and after the action `rst` (log 17); the items the table calls unspecified are not stated. -/
def Obligations.ResetEstablishesStopped : Prop :=
  ∀ (s t : State), (∃ c, t = State.resetWith c) ∨ perform .rst s = .next t →
    t.state = .stopped ∧ t.outEn = false ∧ t.irqEn = false ∧ t.irqPend = false ∧ t.run = false ∧
    t.mode = .oneShot ∧ t.actSel = .ramp ∧ t.remain = 0 ∧ t.result = .ok ∧
    t.argAddr = 0 ∧ t.argLen = 0 ∧ t.argRate = 0 ∧ t.argAmp = 0 ∧ t.out = [] ∧ statusWord t = 0

/-- 10_state.md R39, R40, R42: the state after reset meets the invariant, for every admitted configuration. -/
def Obligations.ResetMeetsTheInvariant : Prop :=
  (∀ c : Cfg, c.Valid → (State.resetWith c).Inv) ∧ State.reset.Inv

/-- 10_state.md R39, R40: every step of every agent keeps the invariant: the playback state and the backend's mode
agree, RUN's counter is in 1..ACT_LEN, a ramping state has the ramp buffer active and the interrupt enabled, the
target and the looped buffer lie in memory, widths hold, memory is canonical. -/
def Obligations.EveryStepKeepsTheInvariant : Prop :=
  ∀ s t : State, s.Inv → step s = .next t → t.Inv

/-- 00_scope.md R8, R12: no step changes a parameter, and no step faults. -/
def Obligations.NoStepChangesTheConfiguration : Prop :=
  (∀ s t : State, step s = .next t → t.cfg = s.cfg) ∧
  (∀ (s : State) (e : Fault), step s ≠ .fault e)

/-- 60_exceptions.md R192: no event, no run of the handler body and no micro-operation invoked from an accepted command
refuses, in any state that meets the invariant. -/
def Obligations.NoEventRefuses : Prop :=
  ∀ s : State, s.Inv →
    (∃ t, exec .tick s = .next t) ∧ (∃ t, exec .complete s = .next t) ∧ (∃ t, handlerBody s = .next t) ∧
    (∃ t, exec .cursamp s = .next t) ∧ (∃ p, timerDivide s.cfg s.cfg.rampRate = .ok p) ∧
    (s.state = .rampingUp → ∃ p, timerDivide s.cfg s.tgtRate = .ok p)

/-! ### The ramp generator, 40_ramp.md -/

/-- R101, R102, R103: CURSAMP returns SILENCE in Stopped, else the active buffer's cell at ACT_LEN - REMAIN, or at 0
when that is out of range; it changes nothing but what it returns (log 7). A cell written while it was referenced
reads as a free value (log 9). -/
def Obligations.CursampReadsTheLiveSample : Prop :=
  ∀ s : State,
    let idx := if 1 ≤ s.remain ∧ s.remain ≤ s.actLen then s.actLen - s.remain else 0
    (s.state = .stopped →
      exec .cursamp s = .next { s with uopRet := s.cfg.silence.toNat, draws := s.draws + 1 }) ∧
    (s.state ≠ .stopped → s.actSel = .ramp → ∀ v : Sample, s.ramp[idx]? = some v →
      exec .cursamp s = .next { s with uopRet := v.toNat, draws := s.draws + 1 }) ∧
    (s.state ≠ .stopped → s.actSel = .external → s.actAddr + idx < s.cfg.memCells →
      ∃ v : Sample, exec .cursamp s = .next { s with uopRet := v.toNat, draws := s.draws + 1 } ∧
        (s.actAddr + idx ∉ s.unsettled → v = s.cell (s.actAddr + idx)))

/-- R104, R107: RAMPFILL writes all N_RAMP cells of RAMP, cell i the value start + step*(i+1), and nothing else; its
tag is 0b01 of UOP and no CMD word names it. -/
def Obligations.RampfillWritesTheRamp : Prop :=
  (∀ (w : Word) (seed goal : Sample), decode (.cmd w) ≠ .ok (.rampfill seed goal)) ∧
  (∀ (x y : Word) (i : Instr), decode (.uop 1#2 x y) = .ok i → ∃ seed goal, i = .rampfill seed goal) ∧
  ∀ (s : State) (seed goal : Sample), 1 ≤ s.cfg.nRamp →
    ∃ xs : List Sample, exec (.rampfill seed goal) s = .next { s with ramp := xs } ∧ xs.length = s.cfg.nRamp ∧
      ∀ i, i < s.cfg.nRamp → ∃ v, xs[i]? = some v ∧
        (v.toNat : Int) = seed.toNat + Int.tdiv (goal.toNat - seed.toNat) s.cfg.nRamp * (i + 1)

/-- R105: range and shape of a ramp of n samples. -/
def Obligations.RampStaysBetweenItsEnds : Prop :=
  ∀ (n : Nat) (seed goal : Sample), 1 ≤ n →
    let d : Int := goal.toNat - seed.toNat
    let stp : Int := Int.tdiv d n
    let v (i : Nat) : Int := ((rampCells n seed goal).getD i 0).toNat
    (stp = 0 ∨ (0 < stp ∧ 0 < d) ∨ (stp < 0 ∧ d < 0)) ∧
    |stp * n| ≤ |d| ∧
    v 0 = seed.toNat + stp ∧
    (∀ i, i < n → (seed.toNat ≤ v i ∧ v i ≤ goal.toNat) ∨ (goal.toNat ≤ v i ∧ v i ≤ seed.toNat)) ∧
    (∀ i, i + 1 < n → v (i + 1) - v i = stp) ∧
    (∀ i, i + 1 < n → (0 ≤ d → v i ≤ v (i + 1)) ∧ (d ≤ 0 → v (i + 1) ≤ v i)) ∧
    (∀ c : Cfg, seed.toNat ≤ c.sampleMax → goal.toNat ≤ c.sampleMax → ∀ i, i < n → v i ≤ c.sampleMax)

/-- R106: the last sample is end - r, where r is the remainder of the truncating division; it is the end itself exactly
when N_RAMP divides the jump. -/
def Obligations.RampEndsOneRemainderShort : Prop :=
  ∀ (n : Nat) (seed goal : Sample), 1 ≤ n →
    let d : Int := goal.toNat - seed.toNat
    let stp : Int := Int.tdiv d n
    let r : Int := d - stp * n
    let last : Int := ((rampCells n seed goal).getD (n - 1) 0).toNat
    last = seed.toNat + stp * n ∧ last = goal.toNat - r ∧
    (r = 0 ∨ (0 < r ∧ 0 < d) ∨ (r < 0 ∧ d < 0)) ∧ |r| ≤ n - 1 ∧
    (last = goal.toNat ↔ (n : Int) ∣ d)

/-! ### The timer divider and the tick, 41_timer.md -/

/-- R120: TDIV's value and its three refusals; it writes no state but what it returns to its caller (log 7). -/
def Obligations.TdivDividesTruncates : Prop :=
  ∀ (s : State) (rate : Nat),
    (rate = 0 → exec (.tdiv rate) s = .refused .rateZero) ∧
    (s.cfg.clockRate < rate → exec (.tdiv rate) s = .refused .rateAboveClock) ∧
    (1 ≤ rate → rate ≤ s.cfg.clockRate → 2 ^ s.cfg.timerBits ≤ s.cfg.clockRate / rate - 1 →
      exec (.tdiv rate) s = .refused .periodOverflow) ∧
    (1 ≤ rate → rate ≤ s.cfg.clockRate → s.cfg.clockRate / rate - 1 < 2 ^ s.cfg.timerBits →
      exec (.tdiv rate) s = .next { s with uopRet := s.cfg.clockRate / rate - 1 })

/-- R122: the rate obtained, CLOCK_RATE / (period + 1), is never below the requested rate, and exceeds it exactly when
the rate does not divide CLOCK_RATE. -/
def Obligations.ObtainedRateIsNotBelowRequested : Prop :=
  ∀ (c : Cfg) (rate p : Nat), timerDivide c rate = .ok p →
    (rate : ℚ) ≤ c.clockRate / (p + 1) ∧ ((rate : ℚ) < c.clockRate / (p + 1) ↔ ¬ rate ∣ c.clockRate)

/-- R124: TIMER_PERIOD is written by START and by STOP when not Stopped with TDIV(RAMP_RATE), by COMPLETE in RampingUp
with TDIV(TGT_RATE), and by no other operation. -/
def Obligations.TimerPeriodHasThreeWriters : Prop :=
  ∀ (i : Instr) (s t : State), exec i s = .next t →
    (i = .start → timerDivide s.cfg s.cfg.rampRate = .ok t.timerPeriod) ∧
    (i = .stop → s.state ≠ .stopped → timerDivide s.cfg s.cfg.rampRate = .ok t.timerPeriod) ∧
    (i = .stop → s.state = .stopped → t.timerPeriod = s.timerPeriod) ∧
    (i = .complete → irqLine s = true → s.state = .rampingUp →
      timerDivide s.cfg s.tgtRate = .ok t.timerPeriod) ∧
    (i = .complete → irqLine s = false ∨ s.state ≠ .rampingUp → t.timerPeriod = s.timerPeriod) ∧
    (i ≠ .start → i ≠ .stop → i ≠ .complete → t.timerPeriod = s.timerPeriod)

/-- R128: TICK with RUN = 1 emits the active buffer's cell at ACT_LEN - REMAIN and counts down; at the end it signals
completion and reloads (AutoRepeat) or stops (OneShot); nothing else changes. A cell written while it was referenced
is emitted as a free value (R67, log 9). -/
def Obligations.TickEmitsOneSample : Prop :=
  ∀ s : State, s.run = true → 1 ≤ s.remain → s.remain ≤ s.actLen →
    let idx := s.actLen - s.remain
    (s.actSel = .ramp → idx < s.ramp.length) →
    (s.actSel = .external → s.actAddr + idx < s.cfg.memCells) →
    ∃ v : Sample,
      (s.actSel = .ramp → s.ramp[idx]? = some v) ∧
      (s.actSel = .external → s.actAddr + idx ∉ s.unsettled → v = s.cell (s.actAddr + idx)) ∧
      (2 ≤ s.remain → exec .tick s =
        .next { s with out := s.out ++ [v], dacHold := v, draws := s.draws + 1, remain := s.remain - 1 }) ∧
      (s.remain = 1 → s.mode = .autoRepeat → exec .tick s =
        .next { s with out := s.out ++ [v], dacHold := v, draws := s.draws + 1, irqPend := true,
                       remain := s.actLen }) ∧
      (s.remain = 1 → s.mode = .oneShot → exec .tick s =
        .next { s with out := s.out ++ [v], dacHold := v, draws := s.draws + 1, irqPend := true, remain := 0,
                       run := false })

/-- The model's choice (log 6): an event offered while it is not enabled takes no step. TICK needs RUN = 1 (R128),
COMPLETE needs IRQ_PEND = 1 and IRQ_EN = 1 (60_exceptions.md R196). -/
def Obligations.DisabledEventsChangeNothing : Prop :=
  ∀ s : State, (s.run = false → exec .tick s = .next s) ∧
    (s.irqPend = false ∨ s.irqEn = false → exec .complete s = .next s)

/-- R129: a one-shot transfer of the ramp buffer takes exactly N_RAMP ticks, emits RAMP[0] to RAMP[N_RAMP-1] in that
order, and ends with IRQ_PEND = 1, RUN = 0, REMAIN = 0 and the last sample held. -/
def Obligations.OneShotTransferPlaysTheRampOnce : Prop :=
  ∀ (s : State) (rest : List Action), s.Inv → s.run = true → s.mode = .oneShot → s.actSel = .ramp →
    s.actLen = s.cfg.nRamp → s.remain = s.cfg.nRamp →
    s.agenda = List.replicate s.cfg.nRamp (.evt 1) ++ rest →
    (∀ k, k < s.cfg.nRamp → ∃ u, stepsFrom k s = .next u ∧ u.run = true ∧ u.remain = s.cfg.nRamp - k ∧
      u.out = s.out ++ s.ramp.take k) ∧
    ∃ t, stepsFrom s.cfg.nRamp s = .next t ∧
      t = { s with out := s.out ++ s.ramp, dacHold := t.dacHold, draws := t.draws, agenda := rest, remain := 0,
                   irqPend := true, run := false } ∧
      s.ramp[s.cfg.nRamp - 1]? = some t.dacHold ∧ exec .tick t = .next t

/-- R130: an auto-repeating transfer of a buffer of length L: the k-th tick emits cell k mod L, TICK stays enabled,
after every L-th tick REMAIN is L again and the completion signal is pending, and the converter holds the last sample. -/
def Obligations.AutoRepeatTransferLoopsTheBuffer : Prop :=
  ∀ (s : State) (n : Nat) (rest : List Action), s.Inv → s.state = .playing → s.remain = s.actLen →
    (∀ i, i < s.actLen → s.actAddr + i ∉ s.unsettled) →
    s.agenda = List.replicate n (.evt 1) ++ rest →
    ∃ t, stepsFrom n s = .next t ∧
      t = { s with out := t.out, dacHold := t.dacHold, draws := s.draws + n, agenda := rest, remain := t.remain,
                   irqPend := t.irqPend } ∧
      t.out = s.out ++ (List.range n).map (fun k => s.cell (s.actAddr + k % s.actLen)) ∧
      t.dacHold = (if n = 0 then s.dacHold else s.cell (s.actAddr + (n - 1) % s.actLen)) ∧
      t.remain = s.actLen - n % s.actLen ∧
      t.irqPend = (s.irqPend || decide (s.actLen ≤ n))

/-! ### The sequencer, 42_playback.md -/

/-- R143: INIT in Stopped writes what the rule lists and nothing else, twice as once; elsewhere it is refused. -/
def Obligations.InitEstablishesStopped : Prop :=
  decode (.cmd 0x00000001#32) = .ok .init ∧
  ∀ s : State,
    (s.state = .stopped → exec .init s =
      .next { s with state := .stopped, outEn := false, run := false, irqEn := false, irqPend := false,
                     mode := .oneShot, actSel := .ramp, remain := 0, result := .ok }) ∧
    (s.state ≠ .stopped → exec .init s = .refused .initWhileActive) ∧
    (∀ t, exec .init s = .next t → exec .init t = .next t ∧ statusWord t = 0)

/-- R144: START, with its preconditions met, ramps from the live sample to buffer[0]: every field it writes, and no
other. The goal is the target's first cell, a free value if that cell was written while referenced (log 9). -/
def Obligations.StartRampsToTheTarget : Prop :=
  ∀ s : State, s.Inv →
    let a := s.argAddr.toNat % 2 ^ s.cfg.addrBits
    let l := s.argLen.toNat % 2 ^ s.cfg.lenBits
    let r := s.argRate.toNat % 2 ^ s.cfg.rateBits
    l ≠ 0 → a + l ≤ s.cfg.memCells → 1 ≤ r → r ≤ s.cfg.clockRate →
    s.cfg.clockRate / r - 1 < 2 ^ s.cfg.timerBits →
    ∃ seed goal : Sample, curSamp s.draws s = .ok seed ∧ (a ∉ s.unsettled → goal = s.cell a) ∧
      exec .start s =
        .next { s with ramp := rampCells s.cfg.nRamp seed goal, run := true, mode := .oneShot,
                       timerPeriod := s.cfg.clockRate / s.cfg.rampRate - 1, actSel := .ramp,
                       actLen := s.cfg.nRamp, remain := s.cfg.nRamp, outEn := true, tgtAddr := a,
                       tgtLen := l, tgtRate := r, state := .rampingUp,
                       irqPend := !s.cfg.clearOnArm && s.irqPend, irqEn := true, draws := s.draws + 2 }

/-- R145, R193: START's refusals, in the order of the tests, in every state. -/
def Obligations.StartRefusesBadOperands : Prop :=
  ∀ s : State,
    let a := s.argAddr.toNat % 2 ^ s.cfg.addrBits
    let l := s.argLen.toNat % 2 ^ s.cfg.lenBits
    let r := s.argRate.toNat % 2 ^ s.cfg.rateBits
    (l = 0 → exec .start s = .refused .lengthZero) ∧
    (l ≠ 0 → s.cfg.memCells < a + l → exec .start s = .refused .bufferOutOfRange) ∧
    (l ≠ 0 → a + l ≤ s.cfg.memCells → r = 0 → exec .start s = .refused .rateZero) ∧
    (l ≠ 0 → a + l ≤ s.cfg.memCells → s.cfg.clockRate < r → exec .start s = .refused .rateAboveClock) ∧
    (l ≠ 0 → a + l ≤ s.cfg.memCells → 1 ≤ r → r ≤ s.cfg.clockRate →
      2 ^ s.cfg.timerBits ≤ s.cfg.clockRate / r - 1 → exec .start s = .refused .periodOverflow)

/-- R146: STOP in Stopped writes nothing at all; elsewhere it ramps from the live sample to SILENCE. -/
def Obligations.StopRampsToSilence : Prop :=
  ∀ s : State,
    (s.state = .stopped → exec .stop s = .next s) ∧
    (s.Inv → s.state ≠ .stopped → ∃ seed : Sample, curSamp s.draws s = .ok seed ∧
      exec .stop s =
        .next { s with ramp := rampCells s.cfg.nRamp seed s.cfg.silence, run := true, mode := .oneShot,
                       timerPeriod := s.cfg.clockRate / s.cfg.rampRate - 1, actSel := .ramp,
                       actLen := s.cfg.nRamp, remain := s.cfg.nRamp, state := .rampingDown,
                       irqPend := !s.cfg.clearOnArm && s.irqPend, irqEn := true, draws := s.draws + 1 })

/-- R147, 70_reset_and_hazards.md R233: the seed of START and STOP in each state that meets the invariant; an ended
ramp gives its first sample. -/
def Obligations.SeedIsTheLiveSampleOfEachState : Prop :=
  ∀ (s : State) (k : Nat), s.Inv →
    (s.state = .stopped → curSamp k s = .ok s.cfg.silence) ∧
    (s.state = .playing → s.actAddr + (s.actLen - s.remain) ∉ s.unsettled →
      curSamp k s = .ok (s.cell (s.actAddr + (s.actLen - s.remain)))) ∧
    (s.ramping → s.run = true → ∃ v, s.ramp[s.cfg.nRamp - s.remain]? = some v ∧ curSamp k s = .ok v) ∧
    (s.ramping → s.run = false → ∃ v, s.ramp[0]? = some v ∧ curSamp k s = .ok v)

/-- R148, R142: an enabled COMPLETE acknowledges and runs the one fixed handler body; the body alone, spuriously, does the
same without the acknowledge, whether a completion is pending or not, and writes nothing in Playing and Stopped. -/
def Obligations.CompleteRunsTheHandler : Prop :=
  ∀ s : State,
    (s.irqPend = true → s.irqEn = true → s.state = .rampingDown → exec .complete s =
      .next { s with irqPend := false, outEn := false, run := false, irqEn := false, state := .stopped }) ∧
    (∀ p, s.irqPend = true → s.irqEn = true → s.state = .rampingUp → timerDivide s.cfg s.tgtRate = .ok p →
      exec .complete s =
        .next { s with irqPend := false, mode := .autoRepeat, timerPeriod := p, actSel := .external,
                       actAddr := s.tgtAddr, actLen := s.tgtLen, remain := s.tgtLen, run := true,
                       irqEn := false, state := .playing }) ∧
    (s.irqPend = true → s.irqEn = true → s.state = .playing ∨ s.state = .stopped →
      exec .complete s = .next { s with irqPend := false }) ∧
    (s.irqPend = true → s.irqEn = true → exec .complete s = handlerBody { s with irqPend := false }) ∧
    (s.state = .playing ∨ s.state = .stopped → handlerBody s = .next s) ∧
    (s.state = .rampingDown → handlerBody s =
      .next { s with outEn := false, run := false, irqEn := false, state := .stopped }) ∧
    (∀ p, s.state = .rampingUp → timerDivide s.cfg s.tgtRate = .ok p → handlerBody s =
      .next { s with mode := .autoRepeat, timerPeriod := p, actSel := .external, actAddr := s.tgtAddr,
                     actLen := s.tgtLen, remain := s.tgtLen, run := true, irqEn := false, state := .playing })

/-- R149: the handler body is idempotent: run again on what it left, it changes nothing. -/
def Obligations.HandlerBodyIsIdempotent : Prop :=
  ∀ s t : State, handlerBody s = .next t → handlerBody t = .next t

/-- R141, R142: the transition table, every operation and every state: where STATE goes. -/
def Obligations.TransitionTable : Prop :=
  ∀ (i : Instr) (s t : State), exec i s = .next t →
    (i = .init → s.state = .stopped ∧ t.state = .stopped) ∧
    (i = .start → t.state = .rampingUp) ∧
    (i = .stop → (s.state = .stopped → t.state = .stopped) ∧ (s.state ≠ .stopped → t.state = .rampingDown)) ∧
    (i = .complete → irqLine s = true →
      (s.state = .rampingUp → t.state = .playing) ∧ (s.state = .rampingDown → t.state = .stopped) ∧
      (s.state = .playing → t.state = .playing) ∧ (s.state = .stopped → t.state = .stopped)) ∧
    (i = .complete → irqLine s = false → t.state = s.state) ∧
    (i ≠ .init → i ≠ .start → i ≠ .stop → i ≠ .complete → t.state = s.state)

/-- 10_state.md R21, 60_exceptions.md R208: a step that changes STATE is a write of CMD with START or STOP, the
handler body (delivered or spurious) or a hardware reset; and only a START leaves Stopped. -/
def Obligations.OnlySequencerStepsChangeState : Prop :=
  ∀ (s t : State) (a : Action) (rest : List Action), s.agenda = a :: rest → step s = .next t →
    t.state ≠ s.state →
    ((∃ w, a = .wr 4 s.cfg.regBase w ∧ (decode (.cmd w) = .ok .start ∨ decode (.cmd w) = .ok .stop)) ∨
      a = .evt 2 ∨ a = .handler ∨ a = .rst) ∧
    (s.state = .stopped → a = .wr 4 s.cfg.regBase 2)

/-- 60_exceptions.md R195, R197: IRQ_PEND is set by the TICK that brings REMAIN to 0 and by nothing else, and cleared by
COMPLETE, by INIT and, if CLEAR_ON_ARM, by START and STOP, and by nothing else. -/
def Obligations.CompletionFlagSetAndCleared : Prop :=
  ∀ (i : Instr) (s t : State), exec i s = .next t →
    (s.irqPend = false → t.irqPend = true → i = .tick ∧ s.run = true ∧ s.remain = 1) ∧
    (s.irqPend = true → t.irqPend = false →
      (i = .complete ∧ s.irqEn = true) ∨ i = .init ∨ ((i = .start ∨ i = .stop) ∧ s.cfg.clearOnArm = true)) ∧
    (i = .tick → s.run = true → s.remain = 1 → t.irqPend = true) ∧
    (i = .complete → irqLine s = true → t.irqPend = false) ∧
    (i = .init → t.irqPend = false) ∧
    (i = .start → s.cfg.clearOnArm = true → t.irqPend = false) ∧
    (i = .stop → s.state ≠ .stopped → s.cfg.clearOnArm = true → t.irqPend = false)

/-- 60_exceptions.md R198: a completion is never lost: while ramping with RUN = 1, after REMAIN ticks COMPLETE is enabled;
with RUN = 0 it is enabled already. -/
def Obligations.CompletionIsNeverLost : Prop :=
  ∀ (s : State) (rest : List Action), s.Inv → s.ramping →
    (s.run = false → irqLine s = true) ∧
    (s.run = true → s.agenda = List.replicate s.remain (.evt 1) ++ rest →
      ∃ t, stepsFrom s.remain s = .next t ∧ irqLine t = true ∧ t.state = s.state)

/-- R140, R150: a START that is accepted, followed by N_RAMP ticks and COMPLETE, plays its ramp once and then loops the
buffer the START named, at its rate; whatever target was pending before is gone. -/
def Obligations.StartThenRampThenLoop : Prop :=
  ∀ (s u : State) (rest : List Action), s.Inv →
    s.agenda = List.replicate s.cfg.nRamp (.evt 1) ++ .evt 2 :: rest → exec .start s = .next u →
    ∃ t, stepsFrom (s.cfg.nRamp + 1) u = .next t ∧ t.out = s.out ++ u.ramp ∧ t.state = .playing ∧
      t.mode = .autoRepeat ∧ t.actSel = .external ∧ t.actAddr = s.argAddr.toNat ∧ t.actLen = s.argLen.toNat ∧
      t.remain = s.argLen.toNat ∧ t.timerPeriod = s.cfg.clockRate / s.argRate.toNat - 1 ∧ t.run = true ∧
      t.outEn = true ∧ t.irqEn = false ∧ t.irqPend = false

/-- R140: a STOP while not Stopped, followed by N_RAMP ticks and COMPLETE, plays its ramp to SILENCE once and then
disables the output. -/
def Obligations.StopThenRampThenSilence : Prop :=
  ∀ (s u : State) (rest : List Action), s.Inv → s.state ≠ .stopped →
    s.agenda = List.replicate s.cfg.nRamp (.evt 1) ++ .evt 2 :: rest → exec .stop s = .next u →
    ∃ t, stepsFrom (s.cfg.nRamp + 1) u = .next t ∧ t.out = s.out ++ u.ramp ∧ t.state = .stopped ∧
      t.outEn = false ∧ t.run = false ∧ t.irqEn = false ∧ t.irqPend = false

/-- 60_exceptions.md R197: with CLEAR_ON_ARM a completion latched before a START does not end the new ramp; without it,
COMPLETE is enabled at once and leaves Playing with the ramp unplayed. -/
def Obligations.StaleCompletionEndsARampOnlyUncleared : Prop :=
  ∀ s u : State, s.Inv → s.irqPend = true → exec .start s = .next u →
    (s.cfg.clearOnArm = true → irqLine u = false) ∧
    (s.cfg.clearOnArm = false → irqLine u = true ∧
      ∃ t, exec .complete u = .next t ∧ t.state = .playing ∧ t.out = s.out)

/-! ### The waveform generator, 43_wavegen.md -/

/-- R173: GEN.SAW writes floor(i*A/l) into cell i, and no other byte of memory; A itself is never produced. -/
def Obligations.GenSawWritesTheSawtooth : Prop :=
  decode (.cmd 0x00000204#32) = .ok .genSaw ∧
  (∀ s : State, s.mem.wf → opLen s ≠ 0 → opAddr s + opLen s ≤ s.cfg.memCells →
    ∃ t, exec .genSaw s = .next t ∧ GenWrote (fun i l A => i * A / l) s t) ∧
  (∀ i l A : Nat, i < l → 0 < A → i * A / l < A ∧ i * A / l ≤ (l - 1) * A / l)

/-- R174: GEN.SQUARE writes 0 below phase 1/2, floor(A/2) at it, A above it, and no other byte of memory. -/
def Obligations.GenSquareWritesTheSquare : Prop :=
  decode (.cmd 0x00000304#32) = .ok .genSquare ∧
  ∀ s : State, s.mem.wf → opLen s ≠ 0 → opAddr s + opLen s ≤ s.cfg.memCells →
    ∃ t, exec .genSquare s = .next t ∧
      GenWrote (fun i l A => if 2 * i < l then 0 else if 2 * i = l then A / 2 else A) s t

/-- R171, R175: GEN.TRI writes floor(2*i*A/l) up to phase 1/2 and floor(2*(l-i)*A/l) above it, a wave symmetric about
its peak. -/
def Obligations.GenTriWritesTheTriangle : Prop :=
  (∀ s : State, s.mem.wf → opLen s ≠ 0 → opAddr s + opLen s ≤ s.cfg.memCells →
    ∃ t, exec .genTri s = .next t ∧
      GenWrote (fun i l A => if 2 * i ≤ l then 2 * i * A / l else 2 * (l - i) * A / l) s t) ∧
  (∀ i l A, 0 < i → i < l → triSample i l A = triSample (l - i) l A ∧ (2 * i = l → triSample i l A = A))

/-- R171, R176: GEN.SINE writes SineSample(i, l, A), the configuration's, into cell i. -/
def Obligations.GenSineWritesSineSamples : Prop :=
  ∀ s : State, s.mem.wf → opLen s ≠ 0 → opAddr s + opLen s ≤ s.cfg.memCells →
    ∃ t, exec .genSine s = .next t ∧ GenWrote (sineSample s.cfg.sineAbove) s t

/-- R176: the three bounds, for every SineSample a configuration can hold (log 8): an integer in 0..A, less than 1 from
the exact real value, and its floor where the cosine is rational, which is so only at the phases that are multiples of 1/4
or of 1/6. The reference choice, which VC holds (00_scope.md R8), is the floor everywhere. -/
def Obligations.SineSampleMeetsItsBounds : Prop :=
  ∀ (above : List SinePoint) (i l A : Nat), i < l → l < 2 ^ 32 → A < 2 ^ 16 →
    let cosine : ℝ := Real.cos (2 * Real.pi * i / l)
    let x : ℝ := A * (1 - cosine) / 2
    sineSample above i l A ≤ A ∧ |(sineSample above i l A : ℝ) - x| < 1 ∧
    (¬Irrational cosine → sineSample above i l A = ⌊x⌋₊) ∧
    (¬Irrational cosine ↔ (4 * i) % l = 0 ∨ (6 * i) % l = 0) ∧
    sineSample Cfg.vc.sineAbove i l A = ⌊x⌋₊

/-- R177, R179: a length of 0 gives RESULT = 1 and writes nothing else, wherever the buffer would lie; a buffer outside
memory is refused (R171). -/
def Obligations.GenReportsLengthZero : Prop :=
  ∀ (s : State) (i : Instr), i = .genSine ∨ i = .genTri ∨ i = .genSaw ∨ i = .genSquare →
    (opLen s = 0 → exec i s = .next { s with result := .invalidArgument }) ∧
    (opLen s ≠ 0 → s.cfg.memCells < opAddr s + opLen s → exec i s = .refused .bufferOutOfRange)

/-- R178: a CMD word with opcode 4 and `wave` in 4..15 gives RESULT = 1 and writes nothing else, whatever ARG holds, a
length of 0 too. -/
def Obligations.GenReportsUnrecognizedWave : Prop :=
  ∀ (s : State) (wave : BitVec 4),
    exec (.genBadWaveLo wave) s = .next { s with result := .invalidArgument } ∧
    exec (.genBadWaveHi wave) s = .next { s with result := .invalidArgument } ∧
    (4 ≤ wave.toNat → runCode (.cmd (BitVec.ofNat 32 (256 * wave.toNat + 4))) s =
      .next { s with result := .invalidArgument })

/-- R172, R181: every value of every wave lies in 0..A, and every wave starts at 0. -/
def Obligations.WaveValuesStartAtZeroAndFit : Prop :=
  ∀ (above : List SinePoint) (i l A : Nat), i < l →
    (sineSample above i l A ≤ A ∧ triSample i l A ≤ A ∧ sawSample i l A ≤ A ∧ squareSample i l A ≤ A) ∧
    sineSample above 0 l A = 0 ∧ triSample 0 l A = 0 ∧ sawSample 0 l A = 0 ∧ squareSample 0 l A = 0

/-! ### The memory, 20_memory.md -/

/-- R64: of all operations only the four GEN waves write the sample memory or mark a cell, only START, STOP and RAMPFILL
write RAMP, only TICK appends to OUT or moves DAC_HOLD, only INIT and GEN write RESULT. -/
def Obligations.OperationFrames : Prop :=
  ∀ (i : Instr) (s t : State), exec i s = .next t →
    (i ≠ .genSine → i ≠ .genTri → i ≠ .genSaw → i ≠ .genSquare →
      (∀ b, t.mem.readByte b = s.mem.readByte b) ∧ t.unsettled = s.unsettled) ∧
    (i ≠ .start → i ≠ .stop → (∀ x y, i ≠ .rampfill x y) → t.ramp = s.ramp) ∧
    (i ≠ .tick → t.out = s.out ∧ t.dacHold = s.dacHold) ∧
    (i = .start ∨ i = .stop ∨ i = .tick ∨ i = .complete → t.result = s.result) ∧
    (i ≠ .start → t.tgtAddr = s.tgtAddr ∧ t.tgtLen = s.tgtLen ∧ t.tgtRate = s.tgtRate) ∧
    (i ≠ .complete → t.actAddr = s.actAddr) ∧ t.cfg = s.cfg ∧ t.agenda = s.agenda ∧ t.busData = s.busData

/-- R61, R67 (93 U9), 43_wavegen.md R180: a host fill (log 10) stores its cell and changes nothing else; one outside memory is
refused. A cell the host, or a GEN, writes while the sequencer references it reads as an unspecified value, a free value of
the model (log 9), in every later state up to a hardware reset; a fill of any other cell marks nothing. -/
def Obligations.BorrowedCellWrittenReadsAsAnyValue : Prop :=
  (∀ (s : State) (a : Nat) (v : Sample),
    (s.cfg.memCells ≤ a → perform (.poke a v) s = .refused .bufferOutOfRange) ∧
    (a < s.cfg.memCells → ∃ t, perform (.poke a v) s = .next t ∧
      t = { s with mem := t.mem, unsettled := t.unsettled } ∧ (s.mem.wf → t.cell a = v) ∧
      (∀ b, b ≠ 2 * a → b ≠ 2 * a + 1 → t.mem.readByte b = s.mem.readByte b) ∧
      (s.references a = true → ∀ x, x ∈ t.unsettled ↔ x = a ∨ x ∈ s.unsettled) ∧
      (s.references a = false → t.unsettled = s.unsettled))) ∧
  (∀ (s t : State) (a : Nat), a ∈ s.unsettled → step s = .next t → s.agenda.head? ≠ some .rst →
    a ∈ t.unsettled) ∧
  (∀ (s t : State) (i : Instr) (a : Nat), i = .genSine ∨ i = .genTri ∨ i = .genSaw ∨ i = .genSquare →
    exec i s = .next t → opLen s ≠ 0 →
      (a ∈ t.unsettled ↔
        a ∈ s.unsettled ∨ (s.references a = true ∧ opAddr s ≤ a ∧ a < opAddr s + opLen s))) ∧
  (∀ (s : State) (k a : Nat), a ∈ s.unsettled → a < s.cfg.memCells →
    memRead k s a = .ok (Config.freeCell k))

/-- R62: no byte order is observable: two machines that differ only in BYTE_ORDER, with the same cell values, take the
same steps, whatever any agent does. -/
def Obligations.ByteOrderIsNotObservable : Prop :=
  ∀ s t : State, s.SameCells t →
    (∀ s', step s = .next s' → ∃ t', step t = .next t' ∧ s'.SameCells t') ∧
    (∀ e, step s = .refused e → step t = .refused e)

/-! ### The parameter SineSample, 00_scope.md R8 -/

/-- R8, R176: every sample function within the three bounds of R176 is the SineSample of some configuration, over all
lengths and amplitudes the widest registers hold: the model's form of the parameter (log 8) leaves none out. -/
def Obligations.EveryAdmittedSineSampleIsConfigurable : Prop :=
  ∀ g : Nat → Nat → Nat → Nat,
    (∀ i l A : Nat, i < l → l < 2 ^ 32 → A < 2 ^ 16 →
      let cosine : ℝ := Real.cos (2 * Real.pi * i / l)
      let x : ℝ := A * (1 - cosine) / 2
      g i l A ≤ A ∧ |(g i l A : ℝ) - x| < 1 ∧ (¬Irrational cosine → g i l A = ⌊x⌋₊)) →
    ∃ c : Cfg, c.Valid ∧ ∀ i l A : Nat, i < l → l < 2 ^ 32 → A < 2 ^ 16 → sineSample c.sineAbove i l A = g i l A
end

