-- ==== Sys2Proof/Laws/State.lean ====
section
/-! SUPPORT. One lemma per field per update of State, so that no proof unfolds a record update. -/

namespace Sys2Proof.Machine

variable (s : State)

/-! ### `setState` -/

@[simp] theorem State.setState_cfg (q : PlayState) : (s.setState q).cfg = s.cfg := rfl
@[simp] theorem State.setState_state (q : PlayState) : (s.setState q).state = q := rfl
@[simp] theorem State.setState_actSel (q : PlayState) : (s.setState q).actSel = s.actSel := rfl
@[simp] theorem State.setState_actAddr (q : PlayState) : (s.setState q).actAddr = s.actAddr := rfl
@[simp] theorem State.setState_actLen (q : PlayState) : (s.setState q).actLen = s.actLen := rfl
@[simp] theorem State.setState_tgtAddr (q : PlayState) : (s.setState q).tgtAddr = s.tgtAddr := rfl
@[simp] theorem State.setState_tgtLen (q : PlayState) : (s.setState q).tgtLen = s.tgtLen := rfl
@[simp] theorem State.setState_tgtRate (q : PlayState) : (s.setState q).tgtRate = s.tgtRate := rfl
@[simp] theorem State.setState_ramp (q : PlayState) : (s.setState q).ramp = s.ramp := rfl
@[simp] theorem State.setState_mode (q : PlayState) : (s.setState q).mode = s.mode := rfl
@[simp] theorem State.setState_run (q : PlayState) : (s.setState q).run = s.run := rfl
@[simp] theorem State.setState_remain (q : PlayState) : (s.setState q).remain = s.remain := rfl
@[simp] theorem State.setState_timerPeriod (q : PlayState) : (s.setState q).timerPeriod = s.timerPeriod := rfl
@[simp] theorem State.setState_outEn (q : PlayState) : (s.setState q).outEn = s.outEn := rfl
@[simp] theorem State.setState_irqEn (q : PlayState) : (s.setState q).irqEn = s.irqEn := rfl
@[simp] theorem State.setState_irqPend (q : PlayState) : (s.setState q).irqPend = s.irqPend := rfl
@[simp] theorem State.setState_dacHold (q : PlayState) : (s.setState q).dacHold = s.dacHold := rfl
@[simp] theorem State.setState_argAddr (q : PlayState) : (s.setState q).argAddr = s.argAddr := rfl
@[simp] theorem State.setState_argLen (q : PlayState) : (s.setState q).argLen = s.argLen := rfl
@[simp] theorem State.setState_argRate (q : PlayState) : (s.setState q).argRate = s.argRate := rfl
@[simp] theorem State.setState_argAmp (q : PlayState) : (s.setState q).argAmp = s.argAmp := rfl
@[simp] theorem State.setState_result (q : PlayState) : (s.setState q).result = s.result := rfl
@[simp] theorem State.setState_out (q : PlayState) : (s.setState q).out = s.out := rfl
@[simp] theorem State.setState_mem (q : PlayState) : (s.setState q).mem = s.mem := rfl
@[simp] theorem State.setState_unsettled (q : PlayState) : (s.setState q).unsettled = s.unsettled := rfl
@[simp] theorem State.setState_draws (q : PlayState) : (s.setState q).draws = s.draws := rfl
@[simp] theorem State.setState_uopRet (q : PlayState) : (s.setState q).uopRet = s.uopRet := rfl
@[simp] theorem State.setState_busData (q : PlayState) : (s.setState q).busData = s.busData := rfl
@[simp] theorem State.setState_agenda (q : PlayState) : (s.setState q).agenda = s.agenda := rfl

/-! ### `setActSel` -/

@[simp] theorem State.setActSel_cfg (b : ActSel) : (s.setActSel b).cfg = s.cfg := rfl
@[simp] theorem State.setActSel_state (b : ActSel) : (s.setActSel b).state = s.state := rfl
@[simp] theorem State.setActSel_actSel (b : ActSel) : (s.setActSel b).actSel = b := rfl
@[simp] theorem State.setActSel_actAddr (b : ActSel) : (s.setActSel b).actAddr = s.actAddr := rfl
@[simp] theorem State.setActSel_actLen (b : ActSel) : (s.setActSel b).actLen = s.actLen := rfl
@[simp] theorem State.setActSel_tgtAddr (b : ActSel) : (s.setActSel b).tgtAddr = s.tgtAddr := rfl
@[simp] theorem State.setActSel_tgtLen (b : ActSel) : (s.setActSel b).tgtLen = s.tgtLen := rfl
@[simp] theorem State.setActSel_tgtRate (b : ActSel) : (s.setActSel b).tgtRate = s.tgtRate := rfl
@[simp] theorem State.setActSel_ramp (b : ActSel) : (s.setActSel b).ramp = s.ramp := rfl
@[simp] theorem State.setActSel_mode (b : ActSel) : (s.setActSel b).mode = s.mode := rfl
@[simp] theorem State.setActSel_run (b : ActSel) : (s.setActSel b).run = s.run := rfl
@[simp] theorem State.setActSel_remain (b : ActSel) : (s.setActSel b).remain = s.remain := rfl
@[simp] theorem State.setActSel_timerPeriod (b : ActSel) : (s.setActSel b).timerPeriod = s.timerPeriod := rfl
@[simp] theorem State.setActSel_outEn (b : ActSel) : (s.setActSel b).outEn = s.outEn := rfl
@[simp] theorem State.setActSel_irqEn (b : ActSel) : (s.setActSel b).irqEn = s.irqEn := rfl
@[simp] theorem State.setActSel_irqPend (b : ActSel) : (s.setActSel b).irqPend = s.irqPend := rfl
@[simp] theorem State.setActSel_dacHold (b : ActSel) : (s.setActSel b).dacHold = s.dacHold := rfl
@[simp] theorem State.setActSel_argAddr (b : ActSel) : (s.setActSel b).argAddr = s.argAddr := rfl
@[simp] theorem State.setActSel_argLen (b : ActSel) : (s.setActSel b).argLen = s.argLen := rfl
@[simp] theorem State.setActSel_argRate (b : ActSel) : (s.setActSel b).argRate = s.argRate := rfl
@[simp] theorem State.setActSel_argAmp (b : ActSel) : (s.setActSel b).argAmp = s.argAmp := rfl
@[simp] theorem State.setActSel_result (b : ActSel) : (s.setActSel b).result = s.result := rfl
@[simp] theorem State.setActSel_out (b : ActSel) : (s.setActSel b).out = s.out := rfl
@[simp] theorem State.setActSel_mem (b : ActSel) : (s.setActSel b).mem = s.mem := rfl
@[simp] theorem State.setActSel_unsettled (b : ActSel) : (s.setActSel b).unsettled = s.unsettled := rfl
@[simp] theorem State.setActSel_draws (b : ActSel) : (s.setActSel b).draws = s.draws := rfl
@[simp] theorem State.setActSel_uopRet (b : ActSel) : (s.setActSel b).uopRet = s.uopRet := rfl
@[simp] theorem State.setActSel_busData (b : ActSel) : (s.setActSel b).busData = s.busData := rfl
@[simp] theorem State.setActSel_agenda (b : ActSel) : (s.setActSel b).agenda = s.agenda := rfl

/-! ### `setActAddr` -/

@[simp] theorem State.setActAddr_cfg (a : Nat) : (s.setActAddr a).cfg = s.cfg := rfl
@[simp] theorem State.setActAddr_state (a : Nat) : (s.setActAddr a).state = s.state := rfl
@[simp] theorem State.setActAddr_actSel (a : Nat) : (s.setActAddr a).actSel = s.actSel := rfl
@[simp] theorem State.setActAddr_actAddr (a : Nat) : (s.setActAddr a).actAddr = a := rfl
@[simp] theorem State.setActAddr_actLen (a : Nat) : (s.setActAddr a).actLen = s.actLen := rfl
@[simp] theorem State.setActAddr_tgtAddr (a : Nat) : (s.setActAddr a).tgtAddr = s.tgtAddr := rfl
@[simp] theorem State.setActAddr_tgtLen (a : Nat) : (s.setActAddr a).tgtLen = s.tgtLen := rfl
@[simp] theorem State.setActAddr_tgtRate (a : Nat) : (s.setActAddr a).tgtRate = s.tgtRate := rfl
@[simp] theorem State.setActAddr_ramp (a : Nat) : (s.setActAddr a).ramp = s.ramp := rfl
@[simp] theorem State.setActAddr_mode (a : Nat) : (s.setActAddr a).mode = s.mode := rfl
@[simp] theorem State.setActAddr_run (a : Nat) : (s.setActAddr a).run = s.run := rfl
@[simp] theorem State.setActAddr_remain (a : Nat) : (s.setActAddr a).remain = s.remain := rfl
@[simp] theorem State.setActAddr_timerPeriod (a : Nat) : (s.setActAddr a).timerPeriod = s.timerPeriod := rfl
@[simp] theorem State.setActAddr_outEn (a : Nat) : (s.setActAddr a).outEn = s.outEn := rfl
@[simp] theorem State.setActAddr_irqEn (a : Nat) : (s.setActAddr a).irqEn = s.irqEn := rfl
@[simp] theorem State.setActAddr_irqPend (a : Nat) : (s.setActAddr a).irqPend = s.irqPend := rfl
@[simp] theorem State.setActAddr_dacHold (a : Nat) : (s.setActAddr a).dacHold = s.dacHold := rfl
@[simp] theorem State.setActAddr_argAddr (a : Nat) : (s.setActAddr a).argAddr = s.argAddr := rfl
@[simp] theorem State.setActAddr_argLen (a : Nat) : (s.setActAddr a).argLen = s.argLen := rfl
@[simp] theorem State.setActAddr_argRate (a : Nat) : (s.setActAddr a).argRate = s.argRate := rfl
@[simp] theorem State.setActAddr_argAmp (a : Nat) : (s.setActAddr a).argAmp = s.argAmp := rfl
@[simp] theorem State.setActAddr_result (a : Nat) : (s.setActAddr a).result = s.result := rfl
@[simp] theorem State.setActAddr_out (a : Nat) : (s.setActAddr a).out = s.out := rfl
@[simp] theorem State.setActAddr_mem (a : Nat) : (s.setActAddr a).mem = s.mem := rfl
@[simp] theorem State.setActAddr_unsettled (a : Nat) : (s.setActAddr a).unsettled = s.unsettled := rfl
@[simp] theorem State.setActAddr_draws (a : Nat) : (s.setActAddr a).draws = s.draws := rfl
@[simp] theorem State.setActAddr_uopRet (a : Nat) : (s.setActAddr a).uopRet = s.uopRet := rfl
@[simp] theorem State.setActAddr_busData (a : Nat) : (s.setActAddr a).busData = s.busData := rfl
@[simp] theorem State.setActAddr_agenda (a : Nat) : (s.setActAddr a).agenda = s.agenda := rfl

/-! ### `setActLen` -/

@[simp] theorem State.setActLen_cfg (l : Nat) : (s.setActLen l).cfg = s.cfg := rfl
@[simp] theorem State.setActLen_state (l : Nat) : (s.setActLen l).state = s.state := rfl
@[simp] theorem State.setActLen_actSel (l : Nat) : (s.setActLen l).actSel = s.actSel := rfl
@[simp] theorem State.setActLen_actAddr (l : Nat) : (s.setActLen l).actAddr = s.actAddr := rfl
@[simp] theorem State.setActLen_actLen (l : Nat) : (s.setActLen l).actLen = l := rfl
@[simp] theorem State.setActLen_tgtAddr (l : Nat) : (s.setActLen l).tgtAddr = s.tgtAddr := rfl
@[simp] theorem State.setActLen_tgtLen (l : Nat) : (s.setActLen l).tgtLen = s.tgtLen := rfl
@[simp] theorem State.setActLen_tgtRate (l : Nat) : (s.setActLen l).tgtRate = s.tgtRate := rfl
@[simp] theorem State.setActLen_ramp (l : Nat) : (s.setActLen l).ramp = s.ramp := rfl
@[simp] theorem State.setActLen_mode (l : Nat) : (s.setActLen l).mode = s.mode := rfl
@[simp] theorem State.setActLen_run (l : Nat) : (s.setActLen l).run = s.run := rfl
@[simp] theorem State.setActLen_remain (l : Nat) : (s.setActLen l).remain = s.remain := rfl
@[simp] theorem State.setActLen_timerPeriod (l : Nat) : (s.setActLen l).timerPeriod = s.timerPeriod := rfl
@[simp] theorem State.setActLen_outEn (l : Nat) : (s.setActLen l).outEn = s.outEn := rfl
@[simp] theorem State.setActLen_irqEn (l : Nat) : (s.setActLen l).irqEn = s.irqEn := rfl
@[simp] theorem State.setActLen_irqPend (l : Nat) : (s.setActLen l).irqPend = s.irqPend := rfl
@[simp] theorem State.setActLen_dacHold (l : Nat) : (s.setActLen l).dacHold = s.dacHold := rfl
@[simp] theorem State.setActLen_argAddr (l : Nat) : (s.setActLen l).argAddr = s.argAddr := rfl
@[simp] theorem State.setActLen_argLen (l : Nat) : (s.setActLen l).argLen = s.argLen := rfl
@[simp] theorem State.setActLen_argRate (l : Nat) : (s.setActLen l).argRate = s.argRate := rfl
@[simp] theorem State.setActLen_argAmp (l : Nat) : (s.setActLen l).argAmp = s.argAmp := rfl
@[simp] theorem State.setActLen_result (l : Nat) : (s.setActLen l).result = s.result := rfl
@[simp] theorem State.setActLen_out (l : Nat) : (s.setActLen l).out = s.out := rfl
@[simp] theorem State.setActLen_mem (l : Nat) : (s.setActLen l).mem = s.mem := rfl
@[simp] theorem State.setActLen_unsettled (l : Nat) : (s.setActLen l).unsettled = s.unsettled := rfl
@[simp] theorem State.setActLen_draws (l : Nat) : (s.setActLen l).draws = s.draws := rfl
@[simp] theorem State.setActLen_uopRet (l : Nat) : (s.setActLen l).uopRet = s.uopRet := rfl
@[simp] theorem State.setActLen_busData (l : Nat) : (s.setActLen l).busData = s.busData := rfl
@[simp] theorem State.setActLen_agenda (l : Nat) : (s.setActLen l).agenda = s.agenda := rfl

/-! ### `setTarget` -/

@[simp] theorem State.setTarget_cfg (a l r : Nat) : (s.setTarget a l r).cfg = s.cfg := rfl
@[simp] theorem State.setTarget_state (a l r : Nat) : (s.setTarget a l r).state = s.state := rfl
@[simp] theorem State.setTarget_actSel (a l r : Nat) : (s.setTarget a l r).actSel = s.actSel := rfl
@[simp] theorem State.setTarget_actAddr (a l r : Nat) : (s.setTarget a l r).actAddr = s.actAddr := rfl
@[simp] theorem State.setTarget_actLen (a l r : Nat) : (s.setTarget a l r).actLen = s.actLen := rfl
@[simp] theorem State.setTarget_tgtAddr (a l r : Nat) : (s.setTarget a l r).tgtAddr = a := rfl
@[simp] theorem State.setTarget_tgtLen (a l r : Nat) : (s.setTarget a l r).tgtLen = l := rfl
@[simp] theorem State.setTarget_tgtRate (a l r : Nat) : (s.setTarget a l r).tgtRate = r := rfl
@[simp] theorem State.setTarget_ramp (a l r : Nat) : (s.setTarget a l r).ramp = s.ramp := rfl
@[simp] theorem State.setTarget_mode (a l r : Nat) : (s.setTarget a l r).mode = s.mode := rfl
@[simp] theorem State.setTarget_run (a l r : Nat) : (s.setTarget a l r).run = s.run := rfl
@[simp] theorem State.setTarget_remain (a l r : Nat) : (s.setTarget a l r).remain = s.remain := rfl
@[simp] theorem State.setTarget_timerPeriod (a l r : Nat) : (s.setTarget a l r).timerPeriod = s.timerPeriod := rfl
@[simp] theorem State.setTarget_outEn (a l r : Nat) : (s.setTarget a l r).outEn = s.outEn := rfl
@[simp] theorem State.setTarget_irqEn (a l r : Nat) : (s.setTarget a l r).irqEn = s.irqEn := rfl
@[simp] theorem State.setTarget_irqPend (a l r : Nat) : (s.setTarget a l r).irqPend = s.irqPend := rfl
@[simp] theorem State.setTarget_dacHold (a l r : Nat) : (s.setTarget a l r).dacHold = s.dacHold := rfl
@[simp] theorem State.setTarget_argAddr (a l r : Nat) : (s.setTarget a l r).argAddr = s.argAddr := rfl
@[simp] theorem State.setTarget_argLen (a l r : Nat) : (s.setTarget a l r).argLen = s.argLen := rfl
@[simp] theorem State.setTarget_argRate (a l r : Nat) : (s.setTarget a l r).argRate = s.argRate := rfl
@[simp] theorem State.setTarget_argAmp (a l r : Nat) : (s.setTarget a l r).argAmp = s.argAmp := rfl
@[simp] theorem State.setTarget_result (a l r : Nat) : (s.setTarget a l r).result = s.result := rfl
@[simp] theorem State.setTarget_out (a l r : Nat) : (s.setTarget a l r).out = s.out := rfl
@[simp] theorem State.setTarget_mem (a l r : Nat) : (s.setTarget a l r).mem = s.mem := rfl
@[simp] theorem State.setTarget_unsettled (a l r : Nat) : (s.setTarget a l r).unsettled = s.unsettled := rfl
@[simp] theorem State.setTarget_draws (a l r : Nat) : (s.setTarget a l r).draws = s.draws := rfl
@[simp] theorem State.setTarget_uopRet (a l r : Nat) : (s.setTarget a l r).uopRet = s.uopRet := rfl
@[simp] theorem State.setTarget_busData (a l r : Nat) : (s.setTarget a l r).busData = s.busData := rfl
@[simp] theorem State.setTarget_agenda (a l r : Nat) : (s.setTarget a l r).agenda = s.agenda := rfl

/-! ### `setRamp` -/

@[simp] theorem State.setRamp_cfg (xs : List Sample) : (s.setRamp xs).cfg = s.cfg := rfl
@[simp] theorem State.setRamp_state (xs : List Sample) : (s.setRamp xs).state = s.state := rfl
@[simp] theorem State.setRamp_actSel (xs : List Sample) : (s.setRamp xs).actSel = s.actSel := rfl
@[simp] theorem State.setRamp_actAddr (xs : List Sample) : (s.setRamp xs).actAddr = s.actAddr := rfl
@[simp] theorem State.setRamp_actLen (xs : List Sample) : (s.setRamp xs).actLen = s.actLen := rfl
@[simp] theorem State.setRamp_tgtAddr (xs : List Sample) : (s.setRamp xs).tgtAddr = s.tgtAddr := rfl
@[simp] theorem State.setRamp_tgtLen (xs : List Sample) : (s.setRamp xs).tgtLen = s.tgtLen := rfl
@[simp] theorem State.setRamp_tgtRate (xs : List Sample) : (s.setRamp xs).tgtRate = s.tgtRate := rfl
@[simp] theorem State.setRamp_ramp (xs : List Sample) : (s.setRamp xs).ramp = xs := rfl
@[simp] theorem State.setRamp_mode (xs : List Sample) : (s.setRamp xs).mode = s.mode := rfl
@[simp] theorem State.setRamp_run (xs : List Sample) : (s.setRamp xs).run = s.run := rfl
@[simp] theorem State.setRamp_remain (xs : List Sample) : (s.setRamp xs).remain = s.remain := rfl
@[simp] theorem State.setRamp_timerPeriod (xs : List Sample) : (s.setRamp xs).timerPeriod = s.timerPeriod := rfl
@[simp] theorem State.setRamp_outEn (xs : List Sample) : (s.setRamp xs).outEn = s.outEn := rfl
@[simp] theorem State.setRamp_irqEn (xs : List Sample) : (s.setRamp xs).irqEn = s.irqEn := rfl
@[simp] theorem State.setRamp_irqPend (xs : List Sample) : (s.setRamp xs).irqPend = s.irqPend := rfl
@[simp] theorem State.setRamp_dacHold (xs : List Sample) : (s.setRamp xs).dacHold = s.dacHold := rfl
@[simp] theorem State.setRamp_argAddr (xs : List Sample) : (s.setRamp xs).argAddr = s.argAddr := rfl
@[simp] theorem State.setRamp_argLen (xs : List Sample) : (s.setRamp xs).argLen = s.argLen := rfl
@[simp] theorem State.setRamp_argRate (xs : List Sample) : (s.setRamp xs).argRate = s.argRate := rfl
@[simp] theorem State.setRamp_argAmp (xs : List Sample) : (s.setRamp xs).argAmp = s.argAmp := rfl
@[simp] theorem State.setRamp_result (xs : List Sample) : (s.setRamp xs).result = s.result := rfl
@[simp] theorem State.setRamp_out (xs : List Sample) : (s.setRamp xs).out = s.out := rfl
@[simp] theorem State.setRamp_mem (xs : List Sample) : (s.setRamp xs).mem = s.mem := rfl
@[simp] theorem State.setRamp_unsettled (xs : List Sample) : (s.setRamp xs).unsettled = s.unsettled := rfl
@[simp] theorem State.setRamp_draws (xs : List Sample) : (s.setRamp xs).draws = s.draws := rfl
@[simp] theorem State.setRamp_uopRet (xs : List Sample) : (s.setRamp xs).uopRet = s.uopRet := rfl
@[simp] theorem State.setRamp_busData (xs : List Sample) : (s.setRamp xs).busData = s.busData := rfl
@[simp] theorem State.setRamp_agenda (xs : List Sample) : (s.setRamp xs).agenda = s.agenda := rfl

/-! ### `setMode` -/

@[simp] theorem State.setMode_cfg (m : Mode) : (s.setMode m).cfg = s.cfg := rfl
@[simp] theorem State.setMode_state (m : Mode) : (s.setMode m).state = s.state := rfl
@[simp] theorem State.setMode_actSel (m : Mode) : (s.setMode m).actSel = s.actSel := rfl
@[simp] theorem State.setMode_actAddr (m : Mode) : (s.setMode m).actAddr = s.actAddr := rfl
@[simp] theorem State.setMode_actLen (m : Mode) : (s.setMode m).actLen = s.actLen := rfl
@[simp] theorem State.setMode_tgtAddr (m : Mode) : (s.setMode m).tgtAddr = s.tgtAddr := rfl
@[simp] theorem State.setMode_tgtLen (m : Mode) : (s.setMode m).tgtLen = s.tgtLen := rfl
@[simp] theorem State.setMode_tgtRate (m : Mode) : (s.setMode m).tgtRate = s.tgtRate := rfl
@[simp] theorem State.setMode_ramp (m : Mode) : (s.setMode m).ramp = s.ramp := rfl
@[simp] theorem State.setMode_mode (m : Mode) : (s.setMode m).mode = m := rfl
@[simp] theorem State.setMode_run (m : Mode) : (s.setMode m).run = s.run := rfl
@[simp] theorem State.setMode_remain (m : Mode) : (s.setMode m).remain = s.remain := rfl
@[simp] theorem State.setMode_timerPeriod (m : Mode) : (s.setMode m).timerPeriod = s.timerPeriod := rfl
@[simp] theorem State.setMode_outEn (m : Mode) : (s.setMode m).outEn = s.outEn := rfl
@[simp] theorem State.setMode_irqEn (m : Mode) : (s.setMode m).irqEn = s.irqEn := rfl
@[simp] theorem State.setMode_irqPend (m : Mode) : (s.setMode m).irqPend = s.irqPend := rfl
@[simp] theorem State.setMode_dacHold (m : Mode) : (s.setMode m).dacHold = s.dacHold := rfl
@[simp] theorem State.setMode_argAddr (m : Mode) : (s.setMode m).argAddr = s.argAddr := rfl
@[simp] theorem State.setMode_argLen (m : Mode) : (s.setMode m).argLen = s.argLen := rfl
@[simp] theorem State.setMode_argRate (m : Mode) : (s.setMode m).argRate = s.argRate := rfl
@[simp] theorem State.setMode_argAmp (m : Mode) : (s.setMode m).argAmp = s.argAmp := rfl
@[simp] theorem State.setMode_result (m : Mode) : (s.setMode m).result = s.result := rfl
@[simp] theorem State.setMode_out (m : Mode) : (s.setMode m).out = s.out := rfl
@[simp] theorem State.setMode_mem (m : Mode) : (s.setMode m).mem = s.mem := rfl
@[simp] theorem State.setMode_unsettled (m : Mode) : (s.setMode m).unsettled = s.unsettled := rfl
@[simp] theorem State.setMode_draws (m : Mode) : (s.setMode m).draws = s.draws := rfl
@[simp] theorem State.setMode_uopRet (m : Mode) : (s.setMode m).uopRet = s.uopRet := rfl
@[simp] theorem State.setMode_busData (m : Mode) : (s.setMode m).busData = s.busData := rfl
@[simp] theorem State.setMode_agenda (m : Mode) : (s.setMode m).agenda = s.agenda := rfl

/-! ### `setRun` -/

@[simp] theorem State.setRun_cfg (b : Bool) : (s.setRun b).cfg = s.cfg := rfl
@[simp] theorem State.setRun_state (b : Bool) : (s.setRun b).state = s.state := rfl
@[simp] theorem State.setRun_actSel (b : Bool) : (s.setRun b).actSel = s.actSel := rfl
@[simp] theorem State.setRun_actAddr (b : Bool) : (s.setRun b).actAddr = s.actAddr := rfl
@[simp] theorem State.setRun_actLen (b : Bool) : (s.setRun b).actLen = s.actLen := rfl
@[simp] theorem State.setRun_tgtAddr (b : Bool) : (s.setRun b).tgtAddr = s.tgtAddr := rfl
@[simp] theorem State.setRun_tgtLen (b : Bool) : (s.setRun b).tgtLen = s.tgtLen := rfl
@[simp] theorem State.setRun_tgtRate (b : Bool) : (s.setRun b).tgtRate = s.tgtRate := rfl
@[simp] theorem State.setRun_ramp (b : Bool) : (s.setRun b).ramp = s.ramp := rfl
@[simp] theorem State.setRun_mode (b : Bool) : (s.setRun b).mode = s.mode := rfl
@[simp] theorem State.setRun_run (b : Bool) : (s.setRun b).run = b := rfl
@[simp] theorem State.setRun_remain (b : Bool) : (s.setRun b).remain = s.remain := rfl
@[simp] theorem State.setRun_timerPeriod (b : Bool) : (s.setRun b).timerPeriod = s.timerPeriod := rfl
@[simp] theorem State.setRun_outEn (b : Bool) : (s.setRun b).outEn = s.outEn := rfl
@[simp] theorem State.setRun_irqEn (b : Bool) : (s.setRun b).irqEn = s.irqEn := rfl
@[simp] theorem State.setRun_irqPend (b : Bool) : (s.setRun b).irqPend = s.irqPend := rfl
@[simp] theorem State.setRun_dacHold (b : Bool) : (s.setRun b).dacHold = s.dacHold := rfl
@[simp] theorem State.setRun_argAddr (b : Bool) : (s.setRun b).argAddr = s.argAddr := rfl
@[simp] theorem State.setRun_argLen (b : Bool) : (s.setRun b).argLen = s.argLen := rfl
@[simp] theorem State.setRun_argRate (b : Bool) : (s.setRun b).argRate = s.argRate := rfl
@[simp] theorem State.setRun_argAmp (b : Bool) : (s.setRun b).argAmp = s.argAmp := rfl
@[simp] theorem State.setRun_result (b : Bool) : (s.setRun b).result = s.result := rfl
@[simp] theorem State.setRun_out (b : Bool) : (s.setRun b).out = s.out := rfl
@[simp] theorem State.setRun_mem (b : Bool) : (s.setRun b).mem = s.mem := rfl
@[simp] theorem State.setRun_unsettled (b : Bool) : (s.setRun b).unsettled = s.unsettled := rfl
@[simp] theorem State.setRun_draws (b : Bool) : (s.setRun b).draws = s.draws := rfl
@[simp] theorem State.setRun_uopRet (b : Bool) : (s.setRun b).uopRet = s.uopRet := rfl
@[simp] theorem State.setRun_busData (b : Bool) : (s.setRun b).busData = s.busData := rfl
@[simp] theorem State.setRun_agenda (b : Bool) : (s.setRun b).agenda = s.agenda := rfl

/-! ### `setRemain` -/

@[simp] theorem State.setRemain_cfg (n : Nat) : (s.setRemain n).cfg = s.cfg := rfl
@[simp] theorem State.setRemain_state (n : Nat) : (s.setRemain n).state = s.state := rfl
@[simp] theorem State.setRemain_actSel (n : Nat) : (s.setRemain n).actSel = s.actSel := rfl
@[simp] theorem State.setRemain_actAddr (n : Nat) : (s.setRemain n).actAddr = s.actAddr := rfl
@[simp] theorem State.setRemain_actLen (n : Nat) : (s.setRemain n).actLen = s.actLen := rfl
@[simp] theorem State.setRemain_tgtAddr (n : Nat) : (s.setRemain n).tgtAddr = s.tgtAddr := rfl
@[simp] theorem State.setRemain_tgtLen (n : Nat) : (s.setRemain n).tgtLen = s.tgtLen := rfl
@[simp] theorem State.setRemain_tgtRate (n : Nat) : (s.setRemain n).tgtRate = s.tgtRate := rfl
@[simp] theorem State.setRemain_ramp (n : Nat) : (s.setRemain n).ramp = s.ramp := rfl
@[simp] theorem State.setRemain_mode (n : Nat) : (s.setRemain n).mode = s.mode := rfl
@[simp] theorem State.setRemain_run (n : Nat) : (s.setRemain n).run = s.run := rfl
@[simp] theorem State.setRemain_remain (n : Nat) : (s.setRemain n).remain = n := rfl
@[simp] theorem State.setRemain_timerPeriod (n : Nat) : (s.setRemain n).timerPeriod = s.timerPeriod := rfl
@[simp] theorem State.setRemain_outEn (n : Nat) : (s.setRemain n).outEn = s.outEn := rfl
@[simp] theorem State.setRemain_irqEn (n : Nat) : (s.setRemain n).irqEn = s.irqEn := rfl
@[simp] theorem State.setRemain_irqPend (n : Nat) : (s.setRemain n).irqPend = s.irqPend := rfl
@[simp] theorem State.setRemain_dacHold (n : Nat) : (s.setRemain n).dacHold = s.dacHold := rfl
@[simp] theorem State.setRemain_argAddr (n : Nat) : (s.setRemain n).argAddr = s.argAddr := rfl
@[simp] theorem State.setRemain_argLen (n : Nat) : (s.setRemain n).argLen = s.argLen := rfl
@[simp] theorem State.setRemain_argRate (n : Nat) : (s.setRemain n).argRate = s.argRate := rfl
@[simp] theorem State.setRemain_argAmp (n : Nat) : (s.setRemain n).argAmp = s.argAmp := rfl
@[simp] theorem State.setRemain_result (n : Nat) : (s.setRemain n).result = s.result := rfl
@[simp] theorem State.setRemain_out (n : Nat) : (s.setRemain n).out = s.out := rfl
@[simp] theorem State.setRemain_mem (n : Nat) : (s.setRemain n).mem = s.mem := rfl
@[simp] theorem State.setRemain_unsettled (n : Nat) : (s.setRemain n).unsettled = s.unsettled := rfl
@[simp] theorem State.setRemain_draws (n : Nat) : (s.setRemain n).draws = s.draws := rfl
@[simp] theorem State.setRemain_uopRet (n : Nat) : (s.setRemain n).uopRet = s.uopRet := rfl
@[simp] theorem State.setRemain_busData (n : Nat) : (s.setRemain n).busData = s.busData := rfl
@[simp] theorem State.setRemain_agenda (n : Nat) : (s.setRemain n).agenda = s.agenda := rfl

/-! ### `setPeriod` -/

@[simp] theorem State.setPeriod_cfg (p : Nat) : (s.setPeriod p).cfg = s.cfg := rfl
@[simp] theorem State.setPeriod_state (p : Nat) : (s.setPeriod p).state = s.state := rfl
@[simp] theorem State.setPeriod_actSel (p : Nat) : (s.setPeriod p).actSel = s.actSel := rfl
@[simp] theorem State.setPeriod_actAddr (p : Nat) : (s.setPeriod p).actAddr = s.actAddr := rfl
@[simp] theorem State.setPeriod_actLen (p : Nat) : (s.setPeriod p).actLen = s.actLen := rfl
@[simp] theorem State.setPeriod_tgtAddr (p : Nat) : (s.setPeriod p).tgtAddr = s.tgtAddr := rfl
@[simp] theorem State.setPeriod_tgtLen (p : Nat) : (s.setPeriod p).tgtLen = s.tgtLen := rfl
@[simp] theorem State.setPeriod_tgtRate (p : Nat) : (s.setPeriod p).tgtRate = s.tgtRate := rfl
@[simp] theorem State.setPeriod_ramp (p : Nat) : (s.setPeriod p).ramp = s.ramp := rfl
@[simp] theorem State.setPeriod_mode (p : Nat) : (s.setPeriod p).mode = s.mode := rfl
@[simp] theorem State.setPeriod_run (p : Nat) : (s.setPeriod p).run = s.run := rfl
@[simp] theorem State.setPeriod_remain (p : Nat) : (s.setPeriod p).remain = s.remain := rfl
@[simp] theorem State.setPeriod_timerPeriod (p : Nat) : (s.setPeriod p).timerPeriod = p := rfl
@[simp] theorem State.setPeriod_outEn (p : Nat) : (s.setPeriod p).outEn = s.outEn := rfl
@[simp] theorem State.setPeriod_irqEn (p : Nat) : (s.setPeriod p).irqEn = s.irqEn := rfl
@[simp] theorem State.setPeriod_irqPend (p : Nat) : (s.setPeriod p).irqPend = s.irqPend := rfl
@[simp] theorem State.setPeriod_dacHold (p : Nat) : (s.setPeriod p).dacHold = s.dacHold := rfl
@[simp] theorem State.setPeriod_argAddr (p : Nat) : (s.setPeriod p).argAddr = s.argAddr := rfl
@[simp] theorem State.setPeriod_argLen (p : Nat) : (s.setPeriod p).argLen = s.argLen := rfl
@[simp] theorem State.setPeriod_argRate (p : Nat) : (s.setPeriod p).argRate = s.argRate := rfl
@[simp] theorem State.setPeriod_argAmp (p : Nat) : (s.setPeriod p).argAmp = s.argAmp := rfl
@[simp] theorem State.setPeriod_result (p : Nat) : (s.setPeriod p).result = s.result := rfl
@[simp] theorem State.setPeriod_out (p : Nat) : (s.setPeriod p).out = s.out := rfl
@[simp] theorem State.setPeriod_mem (p : Nat) : (s.setPeriod p).mem = s.mem := rfl
@[simp] theorem State.setPeriod_unsettled (p : Nat) : (s.setPeriod p).unsettled = s.unsettled := rfl
@[simp] theorem State.setPeriod_draws (p : Nat) : (s.setPeriod p).draws = s.draws := rfl
@[simp] theorem State.setPeriod_uopRet (p : Nat) : (s.setPeriod p).uopRet = s.uopRet := rfl
@[simp] theorem State.setPeriod_busData (p : Nat) : (s.setPeriod p).busData = s.busData := rfl
@[simp] theorem State.setPeriod_agenda (p : Nat) : (s.setPeriod p).agenda = s.agenda := rfl

/-! ### `setOutEn` -/

@[simp] theorem State.setOutEn_cfg (b : Bool) : (s.setOutEn b).cfg = s.cfg := rfl
@[simp] theorem State.setOutEn_state (b : Bool) : (s.setOutEn b).state = s.state := rfl
@[simp] theorem State.setOutEn_actSel (b : Bool) : (s.setOutEn b).actSel = s.actSel := rfl
@[simp] theorem State.setOutEn_actAddr (b : Bool) : (s.setOutEn b).actAddr = s.actAddr := rfl
@[simp] theorem State.setOutEn_actLen (b : Bool) : (s.setOutEn b).actLen = s.actLen := rfl
@[simp] theorem State.setOutEn_tgtAddr (b : Bool) : (s.setOutEn b).tgtAddr = s.tgtAddr := rfl
@[simp] theorem State.setOutEn_tgtLen (b : Bool) : (s.setOutEn b).tgtLen = s.tgtLen := rfl
@[simp] theorem State.setOutEn_tgtRate (b : Bool) : (s.setOutEn b).tgtRate = s.tgtRate := rfl
@[simp] theorem State.setOutEn_ramp (b : Bool) : (s.setOutEn b).ramp = s.ramp := rfl
@[simp] theorem State.setOutEn_mode (b : Bool) : (s.setOutEn b).mode = s.mode := rfl
@[simp] theorem State.setOutEn_run (b : Bool) : (s.setOutEn b).run = s.run := rfl
@[simp] theorem State.setOutEn_remain (b : Bool) : (s.setOutEn b).remain = s.remain := rfl
@[simp] theorem State.setOutEn_timerPeriod (b : Bool) : (s.setOutEn b).timerPeriod = s.timerPeriod := rfl
@[simp] theorem State.setOutEn_outEn (b : Bool) : (s.setOutEn b).outEn = b := rfl
@[simp] theorem State.setOutEn_irqEn (b : Bool) : (s.setOutEn b).irqEn = s.irqEn := rfl
@[simp] theorem State.setOutEn_irqPend (b : Bool) : (s.setOutEn b).irqPend = s.irqPend := rfl
@[simp] theorem State.setOutEn_dacHold (b : Bool) : (s.setOutEn b).dacHold = s.dacHold := rfl
@[simp] theorem State.setOutEn_argAddr (b : Bool) : (s.setOutEn b).argAddr = s.argAddr := rfl
@[simp] theorem State.setOutEn_argLen (b : Bool) : (s.setOutEn b).argLen = s.argLen := rfl
@[simp] theorem State.setOutEn_argRate (b : Bool) : (s.setOutEn b).argRate = s.argRate := rfl
@[simp] theorem State.setOutEn_argAmp (b : Bool) : (s.setOutEn b).argAmp = s.argAmp := rfl
@[simp] theorem State.setOutEn_result (b : Bool) : (s.setOutEn b).result = s.result := rfl
@[simp] theorem State.setOutEn_out (b : Bool) : (s.setOutEn b).out = s.out := rfl
@[simp] theorem State.setOutEn_mem (b : Bool) : (s.setOutEn b).mem = s.mem := rfl
@[simp] theorem State.setOutEn_unsettled (b : Bool) : (s.setOutEn b).unsettled = s.unsettled := rfl
@[simp] theorem State.setOutEn_draws (b : Bool) : (s.setOutEn b).draws = s.draws := rfl
@[simp] theorem State.setOutEn_uopRet (b : Bool) : (s.setOutEn b).uopRet = s.uopRet := rfl
@[simp] theorem State.setOutEn_busData (b : Bool) : (s.setOutEn b).busData = s.busData := rfl
@[simp] theorem State.setOutEn_agenda (b : Bool) : (s.setOutEn b).agenda = s.agenda := rfl

/-! ### `setIrqEn` -/

@[simp] theorem State.setIrqEn_cfg (b : Bool) : (s.setIrqEn b).cfg = s.cfg := rfl
@[simp] theorem State.setIrqEn_state (b : Bool) : (s.setIrqEn b).state = s.state := rfl
@[simp] theorem State.setIrqEn_actSel (b : Bool) : (s.setIrqEn b).actSel = s.actSel := rfl
@[simp] theorem State.setIrqEn_actAddr (b : Bool) : (s.setIrqEn b).actAddr = s.actAddr := rfl
@[simp] theorem State.setIrqEn_actLen (b : Bool) : (s.setIrqEn b).actLen = s.actLen := rfl
@[simp] theorem State.setIrqEn_tgtAddr (b : Bool) : (s.setIrqEn b).tgtAddr = s.tgtAddr := rfl
@[simp] theorem State.setIrqEn_tgtLen (b : Bool) : (s.setIrqEn b).tgtLen = s.tgtLen := rfl
@[simp] theorem State.setIrqEn_tgtRate (b : Bool) : (s.setIrqEn b).tgtRate = s.tgtRate := rfl
@[simp] theorem State.setIrqEn_ramp (b : Bool) : (s.setIrqEn b).ramp = s.ramp := rfl
@[simp] theorem State.setIrqEn_mode (b : Bool) : (s.setIrqEn b).mode = s.mode := rfl
@[simp] theorem State.setIrqEn_run (b : Bool) : (s.setIrqEn b).run = s.run := rfl
@[simp] theorem State.setIrqEn_remain (b : Bool) : (s.setIrqEn b).remain = s.remain := rfl
@[simp] theorem State.setIrqEn_timerPeriod (b : Bool) : (s.setIrqEn b).timerPeriod = s.timerPeriod := rfl
@[simp] theorem State.setIrqEn_outEn (b : Bool) : (s.setIrqEn b).outEn = s.outEn := rfl
@[simp] theorem State.setIrqEn_irqEn (b : Bool) : (s.setIrqEn b).irqEn = b := rfl
@[simp] theorem State.setIrqEn_irqPend (b : Bool) : (s.setIrqEn b).irqPend = s.irqPend := rfl
@[simp] theorem State.setIrqEn_dacHold (b : Bool) : (s.setIrqEn b).dacHold = s.dacHold := rfl
@[simp] theorem State.setIrqEn_argAddr (b : Bool) : (s.setIrqEn b).argAddr = s.argAddr := rfl
@[simp] theorem State.setIrqEn_argLen (b : Bool) : (s.setIrqEn b).argLen = s.argLen := rfl
@[simp] theorem State.setIrqEn_argRate (b : Bool) : (s.setIrqEn b).argRate = s.argRate := rfl
@[simp] theorem State.setIrqEn_argAmp (b : Bool) : (s.setIrqEn b).argAmp = s.argAmp := rfl
@[simp] theorem State.setIrqEn_result (b : Bool) : (s.setIrqEn b).result = s.result := rfl
@[simp] theorem State.setIrqEn_out (b : Bool) : (s.setIrqEn b).out = s.out := rfl
@[simp] theorem State.setIrqEn_mem (b : Bool) : (s.setIrqEn b).mem = s.mem := rfl
@[simp] theorem State.setIrqEn_unsettled (b : Bool) : (s.setIrqEn b).unsettled = s.unsettled := rfl
@[simp] theorem State.setIrqEn_draws (b : Bool) : (s.setIrqEn b).draws = s.draws := rfl
@[simp] theorem State.setIrqEn_uopRet (b : Bool) : (s.setIrqEn b).uopRet = s.uopRet := rfl
@[simp] theorem State.setIrqEn_busData (b : Bool) : (s.setIrqEn b).busData = s.busData := rfl
@[simp] theorem State.setIrqEn_agenda (b : Bool) : (s.setIrqEn b).agenda = s.agenda := rfl

/-! ### `setIrqPend` -/

@[simp] theorem State.setIrqPend_cfg (b : Bool) : (s.setIrqPend b).cfg = s.cfg := rfl
@[simp] theorem State.setIrqPend_state (b : Bool) : (s.setIrqPend b).state = s.state := rfl
@[simp] theorem State.setIrqPend_actSel (b : Bool) : (s.setIrqPend b).actSel = s.actSel := rfl
@[simp] theorem State.setIrqPend_actAddr (b : Bool) : (s.setIrqPend b).actAddr = s.actAddr := rfl
@[simp] theorem State.setIrqPend_actLen (b : Bool) : (s.setIrqPend b).actLen = s.actLen := rfl
@[simp] theorem State.setIrqPend_tgtAddr (b : Bool) : (s.setIrqPend b).tgtAddr = s.tgtAddr := rfl
@[simp] theorem State.setIrqPend_tgtLen (b : Bool) : (s.setIrqPend b).tgtLen = s.tgtLen := rfl
@[simp] theorem State.setIrqPend_tgtRate (b : Bool) : (s.setIrqPend b).tgtRate = s.tgtRate := rfl
@[simp] theorem State.setIrqPend_ramp (b : Bool) : (s.setIrqPend b).ramp = s.ramp := rfl
@[simp] theorem State.setIrqPend_mode (b : Bool) : (s.setIrqPend b).mode = s.mode := rfl
@[simp] theorem State.setIrqPend_run (b : Bool) : (s.setIrqPend b).run = s.run := rfl
@[simp] theorem State.setIrqPend_remain (b : Bool) : (s.setIrqPend b).remain = s.remain := rfl
@[simp] theorem State.setIrqPend_timerPeriod (b : Bool) : (s.setIrqPend b).timerPeriod = s.timerPeriod := rfl
@[simp] theorem State.setIrqPend_outEn (b : Bool) : (s.setIrqPend b).outEn = s.outEn := rfl
@[simp] theorem State.setIrqPend_irqEn (b : Bool) : (s.setIrqPend b).irqEn = s.irqEn := rfl
@[simp] theorem State.setIrqPend_irqPend (b : Bool) : (s.setIrqPend b).irqPend = b := rfl
@[simp] theorem State.setIrqPend_dacHold (b : Bool) : (s.setIrqPend b).dacHold = s.dacHold := rfl
@[simp] theorem State.setIrqPend_argAddr (b : Bool) : (s.setIrqPend b).argAddr = s.argAddr := rfl
@[simp] theorem State.setIrqPend_argLen (b : Bool) : (s.setIrqPend b).argLen = s.argLen := rfl
@[simp] theorem State.setIrqPend_argRate (b : Bool) : (s.setIrqPend b).argRate = s.argRate := rfl
@[simp] theorem State.setIrqPend_argAmp (b : Bool) : (s.setIrqPend b).argAmp = s.argAmp := rfl
@[simp] theorem State.setIrqPend_result (b : Bool) : (s.setIrqPend b).result = s.result := rfl
@[simp] theorem State.setIrqPend_out (b : Bool) : (s.setIrqPend b).out = s.out := rfl
@[simp] theorem State.setIrqPend_mem (b : Bool) : (s.setIrqPend b).mem = s.mem := rfl
@[simp] theorem State.setIrqPend_unsettled (b : Bool) : (s.setIrqPend b).unsettled = s.unsettled := rfl
@[simp] theorem State.setIrqPend_draws (b : Bool) : (s.setIrqPend b).draws = s.draws := rfl
@[simp] theorem State.setIrqPend_uopRet (b : Bool) : (s.setIrqPend b).uopRet = s.uopRet := rfl
@[simp] theorem State.setIrqPend_busData (b : Bool) : (s.setIrqPend b).busData = s.busData := rfl
@[simp] theorem State.setIrqPend_agenda (b : Bool) : (s.setIrqPend b).agenda = s.agenda := rfl

/-! ### `emitSample` -/

@[simp] theorem State.emitSample_cfg (v : Sample) : (s.emitSample v).cfg = s.cfg := rfl
@[simp] theorem State.emitSample_state (v : Sample) : (s.emitSample v).state = s.state := rfl
@[simp] theorem State.emitSample_actSel (v : Sample) : (s.emitSample v).actSel = s.actSel := rfl
@[simp] theorem State.emitSample_actAddr (v : Sample) : (s.emitSample v).actAddr = s.actAddr := rfl
@[simp] theorem State.emitSample_actLen (v : Sample) : (s.emitSample v).actLen = s.actLen := rfl
@[simp] theorem State.emitSample_tgtAddr (v : Sample) : (s.emitSample v).tgtAddr = s.tgtAddr := rfl
@[simp] theorem State.emitSample_tgtLen (v : Sample) : (s.emitSample v).tgtLen = s.tgtLen := rfl
@[simp] theorem State.emitSample_tgtRate (v : Sample) : (s.emitSample v).tgtRate = s.tgtRate := rfl
@[simp] theorem State.emitSample_ramp (v : Sample) : (s.emitSample v).ramp = s.ramp := rfl
@[simp] theorem State.emitSample_mode (v : Sample) : (s.emitSample v).mode = s.mode := rfl
@[simp] theorem State.emitSample_run (v : Sample) : (s.emitSample v).run = s.run := rfl
@[simp] theorem State.emitSample_remain (v : Sample) : (s.emitSample v).remain = s.remain := rfl
@[simp] theorem State.emitSample_timerPeriod (v : Sample) : (s.emitSample v).timerPeriod = s.timerPeriod := rfl
@[simp] theorem State.emitSample_outEn (v : Sample) : (s.emitSample v).outEn = s.outEn := rfl
@[simp] theorem State.emitSample_irqEn (v : Sample) : (s.emitSample v).irqEn = s.irqEn := rfl
@[simp] theorem State.emitSample_irqPend (v : Sample) : (s.emitSample v).irqPend = s.irqPend := rfl
@[simp] theorem State.emitSample_dacHold (v : Sample) : (s.emitSample v).dacHold = v := rfl
@[simp] theorem State.emitSample_argAddr (v : Sample) : (s.emitSample v).argAddr = s.argAddr := rfl
@[simp] theorem State.emitSample_argLen (v : Sample) : (s.emitSample v).argLen = s.argLen := rfl
@[simp] theorem State.emitSample_argRate (v : Sample) : (s.emitSample v).argRate = s.argRate := rfl
@[simp] theorem State.emitSample_argAmp (v : Sample) : (s.emitSample v).argAmp = s.argAmp := rfl
@[simp] theorem State.emitSample_result (v : Sample) : (s.emitSample v).result = s.result := rfl
@[simp] theorem State.emitSample_out (v : Sample) : (s.emitSample v).out = s.out ++ [v] := rfl
@[simp] theorem State.emitSample_mem (v : Sample) : (s.emitSample v).mem = s.mem := rfl
@[simp] theorem State.emitSample_unsettled (v : Sample) : (s.emitSample v).unsettled = s.unsettled := rfl
@[simp] theorem State.emitSample_draws (v : Sample) : (s.emitSample v).draws = s.draws := rfl
@[simp] theorem State.emitSample_uopRet (v : Sample) : (s.emitSample v).uopRet = s.uopRet := rfl
@[simp] theorem State.emitSample_busData (v : Sample) : (s.emitSample v).busData = s.busData := rfl
@[simp] theorem State.emitSample_agenda (v : Sample) : (s.emitSample v).agenda = s.agenda := rfl

/-! ### `setArgAddr` -/

@[simp] theorem State.setArgAddr_cfg (w : Word) : (s.setArgAddr w).cfg = s.cfg := rfl
@[simp] theorem State.setArgAddr_state (w : Word) : (s.setArgAddr w).state = s.state := rfl
@[simp] theorem State.setArgAddr_actSel (w : Word) : (s.setArgAddr w).actSel = s.actSel := rfl
@[simp] theorem State.setArgAddr_actAddr (w : Word) : (s.setArgAddr w).actAddr = s.actAddr := rfl
@[simp] theorem State.setArgAddr_actLen (w : Word) : (s.setArgAddr w).actLen = s.actLen := rfl
@[simp] theorem State.setArgAddr_tgtAddr (w : Word) : (s.setArgAddr w).tgtAddr = s.tgtAddr := rfl
@[simp] theorem State.setArgAddr_tgtLen (w : Word) : (s.setArgAddr w).tgtLen = s.tgtLen := rfl
@[simp] theorem State.setArgAddr_tgtRate (w : Word) : (s.setArgAddr w).tgtRate = s.tgtRate := rfl
@[simp] theorem State.setArgAddr_ramp (w : Word) : (s.setArgAddr w).ramp = s.ramp := rfl
@[simp] theorem State.setArgAddr_mode (w : Word) : (s.setArgAddr w).mode = s.mode := rfl
@[simp] theorem State.setArgAddr_run (w : Word) : (s.setArgAddr w).run = s.run := rfl
@[simp] theorem State.setArgAddr_remain (w : Word) : (s.setArgAddr w).remain = s.remain := rfl
@[simp] theorem State.setArgAddr_timerPeriod (w : Word) : (s.setArgAddr w).timerPeriod = s.timerPeriod := rfl
@[simp] theorem State.setArgAddr_outEn (w : Word) : (s.setArgAddr w).outEn = s.outEn := rfl
@[simp] theorem State.setArgAddr_irqEn (w : Word) : (s.setArgAddr w).irqEn = s.irqEn := rfl
@[simp] theorem State.setArgAddr_irqPend (w : Word) : (s.setArgAddr w).irqPend = s.irqPend := rfl
@[simp] theorem State.setArgAddr_dacHold (w : Word) : (s.setArgAddr w).dacHold = s.dacHold := rfl
@[simp] theorem State.setArgAddr_argAddr (w : Word) : (s.setArgAddr w).argAddr = w := rfl
@[simp] theorem State.setArgAddr_argLen (w : Word) : (s.setArgAddr w).argLen = s.argLen := rfl
@[simp] theorem State.setArgAddr_argRate (w : Word) : (s.setArgAddr w).argRate = s.argRate := rfl
@[simp] theorem State.setArgAddr_argAmp (w : Word) : (s.setArgAddr w).argAmp = s.argAmp := rfl
@[simp] theorem State.setArgAddr_result (w : Word) : (s.setArgAddr w).result = s.result := rfl
@[simp] theorem State.setArgAddr_out (w : Word) : (s.setArgAddr w).out = s.out := rfl
@[simp] theorem State.setArgAddr_mem (w : Word) : (s.setArgAddr w).mem = s.mem := rfl
@[simp] theorem State.setArgAddr_unsettled (w : Word) : (s.setArgAddr w).unsettled = s.unsettled := rfl
@[simp] theorem State.setArgAddr_draws (w : Word) : (s.setArgAddr w).draws = s.draws := rfl
@[simp] theorem State.setArgAddr_uopRet (w : Word) : (s.setArgAddr w).uopRet = s.uopRet := rfl
@[simp] theorem State.setArgAddr_busData (w : Word) : (s.setArgAddr w).busData = s.busData := rfl
@[simp] theorem State.setArgAddr_agenda (w : Word) : (s.setArgAddr w).agenda = s.agenda := rfl

/-! ### `setArgLen` -/

@[simp] theorem State.setArgLen_cfg (w : Word) : (s.setArgLen w).cfg = s.cfg := rfl
@[simp] theorem State.setArgLen_state (w : Word) : (s.setArgLen w).state = s.state := rfl
@[simp] theorem State.setArgLen_actSel (w : Word) : (s.setArgLen w).actSel = s.actSel := rfl
@[simp] theorem State.setArgLen_actAddr (w : Word) : (s.setArgLen w).actAddr = s.actAddr := rfl
@[simp] theorem State.setArgLen_actLen (w : Word) : (s.setArgLen w).actLen = s.actLen := rfl
@[simp] theorem State.setArgLen_tgtAddr (w : Word) : (s.setArgLen w).tgtAddr = s.tgtAddr := rfl
@[simp] theorem State.setArgLen_tgtLen (w : Word) : (s.setArgLen w).tgtLen = s.tgtLen := rfl
@[simp] theorem State.setArgLen_tgtRate (w : Word) : (s.setArgLen w).tgtRate = s.tgtRate := rfl
@[simp] theorem State.setArgLen_ramp (w : Word) : (s.setArgLen w).ramp = s.ramp := rfl
@[simp] theorem State.setArgLen_mode (w : Word) : (s.setArgLen w).mode = s.mode := rfl
@[simp] theorem State.setArgLen_run (w : Word) : (s.setArgLen w).run = s.run := rfl
@[simp] theorem State.setArgLen_remain (w : Word) : (s.setArgLen w).remain = s.remain := rfl
@[simp] theorem State.setArgLen_timerPeriod (w : Word) : (s.setArgLen w).timerPeriod = s.timerPeriod := rfl
@[simp] theorem State.setArgLen_outEn (w : Word) : (s.setArgLen w).outEn = s.outEn := rfl
@[simp] theorem State.setArgLen_irqEn (w : Word) : (s.setArgLen w).irqEn = s.irqEn := rfl
@[simp] theorem State.setArgLen_irqPend (w : Word) : (s.setArgLen w).irqPend = s.irqPend := rfl
@[simp] theorem State.setArgLen_dacHold (w : Word) : (s.setArgLen w).dacHold = s.dacHold := rfl
@[simp] theorem State.setArgLen_argAddr (w : Word) : (s.setArgLen w).argAddr = s.argAddr := rfl
@[simp] theorem State.setArgLen_argLen (w : Word) : (s.setArgLen w).argLen = w := rfl
@[simp] theorem State.setArgLen_argRate (w : Word) : (s.setArgLen w).argRate = s.argRate := rfl
@[simp] theorem State.setArgLen_argAmp (w : Word) : (s.setArgLen w).argAmp = s.argAmp := rfl
@[simp] theorem State.setArgLen_result (w : Word) : (s.setArgLen w).result = s.result := rfl
@[simp] theorem State.setArgLen_out (w : Word) : (s.setArgLen w).out = s.out := rfl
@[simp] theorem State.setArgLen_mem (w : Word) : (s.setArgLen w).mem = s.mem := rfl
@[simp] theorem State.setArgLen_unsettled (w : Word) : (s.setArgLen w).unsettled = s.unsettled := rfl
@[simp] theorem State.setArgLen_draws (w : Word) : (s.setArgLen w).draws = s.draws := rfl
@[simp] theorem State.setArgLen_uopRet (w : Word) : (s.setArgLen w).uopRet = s.uopRet := rfl
@[simp] theorem State.setArgLen_busData (w : Word) : (s.setArgLen w).busData = s.busData := rfl
@[simp] theorem State.setArgLen_agenda (w : Word) : (s.setArgLen w).agenda = s.agenda := rfl

/-! ### `setArgRate` -/

@[simp] theorem State.setArgRate_cfg (w : Word) : (s.setArgRate w).cfg = s.cfg := rfl
@[simp] theorem State.setArgRate_state (w : Word) : (s.setArgRate w).state = s.state := rfl
@[simp] theorem State.setArgRate_actSel (w : Word) : (s.setArgRate w).actSel = s.actSel := rfl
@[simp] theorem State.setArgRate_actAddr (w : Word) : (s.setArgRate w).actAddr = s.actAddr := rfl
@[simp] theorem State.setArgRate_actLen (w : Word) : (s.setArgRate w).actLen = s.actLen := rfl
@[simp] theorem State.setArgRate_tgtAddr (w : Word) : (s.setArgRate w).tgtAddr = s.tgtAddr := rfl
@[simp] theorem State.setArgRate_tgtLen (w : Word) : (s.setArgRate w).tgtLen = s.tgtLen := rfl
@[simp] theorem State.setArgRate_tgtRate (w : Word) : (s.setArgRate w).tgtRate = s.tgtRate := rfl
@[simp] theorem State.setArgRate_ramp (w : Word) : (s.setArgRate w).ramp = s.ramp := rfl
@[simp] theorem State.setArgRate_mode (w : Word) : (s.setArgRate w).mode = s.mode := rfl
@[simp] theorem State.setArgRate_run (w : Word) : (s.setArgRate w).run = s.run := rfl
@[simp] theorem State.setArgRate_remain (w : Word) : (s.setArgRate w).remain = s.remain := rfl
@[simp] theorem State.setArgRate_timerPeriod (w : Word) : (s.setArgRate w).timerPeriod = s.timerPeriod := rfl
@[simp] theorem State.setArgRate_outEn (w : Word) : (s.setArgRate w).outEn = s.outEn := rfl
@[simp] theorem State.setArgRate_irqEn (w : Word) : (s.setArgRate w).irqEn = s.irqEn := rfl
@[simp] theorem State.setArgRate_irqPend (w : Word) : (s.setArgRate w).irqPend = s.irqPend := rfl
@[simp] theorem State.setArgRate_dacHold (w : Word) : (s.setArgRate w).dacHold = s.dacHold := rfl
@[simp] theorem State.setArgRate_argAddr (w : Word) : (s.setArgRate w).argAddr = s.argAddr := rfl
@[simp] theorem State.setArgRate_argLen (w : Word) : (s.setArgRate w).argLen = s.argLen := rfl
@[simp] theorem State.setArgRate_argRate (w : Word) : (s.setArgRate w).argRate = w := rfl
@[simp] theorem State.setArgRate_argAmp (w : Word) : (s.setArgRate w).argAmp = s.argAmp := rfl
@[simp] theorem State.setArgRate_result (w : Word) : (s.setArgRate w).result = s.result := rfl
@[simp] theorem State.setArgRate_out (w : Word) : (s.setArgRate w).out = s.out := rfl
@[simp] theorem State.setArgRate_mem (w : Word) : (s.setArgRate w).mem = s.mem := rfl
@[simp] theorem State.setArgRate_unsettled (w : Word) : (s.setArgRate w).unsettled = s.unsettled := rfl
@[simp] theorem State.setArgRate_draws (w : Word) : (s.setArgRate w).draws = s.draws := rfl
@[simp] theorem State.setArgRate_uopRet (w : Word) : (s.setArgRate w).uopRet = s.uopRet := rfl
@[simp] theorem State.setArgRate_busData (w : Word) : (s.setArgRate w).busData = s.busData := rfl
@[simp] theorem State.setArgRate_agenda (w : Word) : (s.setArgRate w).agenda = s.agenda := rfl

/-! ### `setArgAmp` -/

@[simp] theorem State.setArgAmp_cfg (w : Word) : (s.setArgAmp w).cfg = s.cfg := rfl
@[simp] theorem State.setArgAmp_state (w : Word) : (s.setArgAmp w).state = s.state := rfl
@[simp] theorem State.setArgAmp_actSel (w : Word) : (s.setArgAmp w).actSel = s.actSel := rfl
@[simp] theorem State.setArgAmp_actAddr (w : Word) : (s.setArgAmp w).actAddr = s.actAddr := rfl
@[simp] theorem State.setArgAmp_actLen (w : Word) : (s.setArgAmp w).actLen = s.actLen := rfl
@[simp] theorem State.setArgAmp_tgtAddr (w : Word) : (s.setArgAmp w).tgtAddr = s.tgtAddr := rfl
@[simp] theorem State.setArgAmp_tgtLen (w : Word) : (s.setArgAmp w).tgtLen = s.tgtLen := rfl
@[simp] theorem State.setArgAmp_tgtRate (w : Word) : (s.setArgAmp w).tgtRate = s.tgtRate := rfl
@[simp] theorem State.setArgAmp_ramp (w : Word) : (s.setArgAmp w).ramp = s.ramp := rfl
@[simp] theorem State.setArgAmp_mode (w : Word) : (s.setArgAmp w).mode = s.mode := rfl
@[simp] theorem State.setArgAmp_run (w : Word) : (s.setArgAmp w).run = s.run := rfl
@[simp] theorem State.setArgAmp_remain (w : Word) : (s.setArgAmp w).remain = s.remain := rfl
@[simp] theorem State.setArgAmp_timerPeriod (w : Word) : (s.setArgAmp w).timerPeriod = s.timerPeriod := rfl
@[simp] theorem State.setArgAmp_outEn (w : Word) : (s.setArgAmp w).outEn = s.outEn := rfl
@[simp] theorem State.setArgAmp_irqEn (w : Word) : (s.setArgAmp w).irqEn = s.irqEn := rfl
@[simp] theorem State.setArgAmp_irqPend (w : Word) : (s.setArgAmp w).irqPend = s.irqPend := rfl
@[simp] theorem State.setArgAmp_dacHold (w : Word) : (s.setArgAmp w).dacHold = s.dacHold := rfl
@[simp] theorem State.setArgAmp_argAddr (w : Word) : (s.setArgAmp w).argAddr = s.argAddr := rfl
@[simp] theorem State.setArgAmp_argLen (w : Word) : (s.setArgAmp w).argLen = s.argLen := rfl
@[simp] theorem State.setArgAmp_argRate (w : Word) : (s.setArgAmp w).argRate = s.argRate := rfl
@[simp] theorem State.setArgAmp_argAmp (w : Word) : (s.setArgAmp w).argAmp = w := rfl
@[simp] theorem State.setArgAmp_result (w : Word) : (s.setArgAmp w).result = s.result := rfl
@[simp] theorem State.setArgAmp_out (w : Word) : (s.setArgAmp w).out = s.out := rfl
@[simp] theorem State.setArgAmp_mem (w : Word) : (s.setArgAmp w).mem = s.mem := rfl
@[simp] theorem State.setArgAmp_unsettled (w : Word) : (s.setArgAmp w).unsettled = s.unsettled := rfl
@[simp] theorem State.setArgAmp_draws (w : Word) : (s.setArgAmp w).draws = s.draws := rfl
@[simp] theorem State.setArgAmp_uopRet (w : Word) : (s.setArgAmp w).uopRet = s.uopRet := rfl
@[simp] theorem State.setArgAmp_busData (w : Word) : (s.setArgAmp w).busData = s.busData := rfl
@[simp] theorem State.setArgAmp_agenda (w : Word) : (s.setArgAmp w).agenda = s.agenda := rfl

/-! ### `setResult` -/

@[simp] theorem State.setResult_cfg (g : GenStatus) : (s.setResult g).cfg = s.cfg := rfl
@[simp] theorem State.setResult_state (g : GenStatus) : (s.setResult g).state = s.state := rfl
@[simp] theorem State.setResult_actSel (g : GenStatus) : (s.setResult g).actSel = s.actSel := rfl
@[simp] theorem State.setResult_actAddr (g : GenStatus) : (s.setResult g).actAddr = s.actAddr := rfl
@[simp] theorem State.setResult_actLen (g : GenStatus) : (s.setResult g).actLen = s.actLen := rfl
@[simp] theorem State.setResult_tgtAddr (g : GenStatus) : (s.setResult g).tgtAddr = s.tgtAddr := rfl
@[simp] theorem State.setResult_tgtLen (g : GenStatus) : (s.setResult g).tgtLen = s.tgtLen := rfl
@[simp] theorem State.setResult_tgtRate (g : GenStatus) : (s.setResult g).tgtRate = s.tgtRate := rfl
@[simp] theorem State.setResult_ramp (g : GenStatus) : (s.setResult g).ramp = s.ramp := rfl
@[simp] theorem State.setResult_mode (g : GenStatus) : (s.setResult g).mode = s.mode := rfl
@[simp] theorem State.setResult_run (g : GenStatus) : (s.setResult g).run = s.run := rfl
@[simp] theorem State.setResult_remain (g : GenStatus) : (s.setResult g).remain = s.remain := rfl
@[simp] theorem State.setResult_timerPeriod (g : GenStatus) : (s.setResult g).timerPeriod = s.timerPeriod := rfl
@[simp] theorem State.setResult_outEn (g : GenStatus) : (s.setResult g).outEn = s.outEn := rfl
@[simp] theorem State.setResult_irqEn (g : GenStatus) : (s.setResult g).irqEn = s.irqEn := rfl
@[simp] theorem State.setResult_irqPend (g : GenStatus) : (s.setResult g).irqPend = s.irqPend := rfl
@[simp] theorem State.setResult_dacHold (g : GenStatus) : (s.setResult g).dacHold = s.dacHold := rfl
@[simp] theorem State.setResult_argAddr (g : GenStatus) : (s.setResult g).argAddr = s.argAddr := rfl
@[simp] theorem State.setResult_argLen (g : GenStatus) : (s.setResult g).argLen = s.argLen := rfl
@[simp] theorem State.setResult_argRate (g : GenStatus) : (s.setResult g).argRate = s.argRate := rfl
@[simp] theorem State.setResult_argAmp (g : GenStatus) : (s.setResult g).argAmp = s.argAmp := rfl
@[simp] theorem State.setResult_result (g : GenStatus) : (s.setResult g).result = g := rfl
@[simp] theorem State.setResult_out (g : GenStatus) : (s.setResult g).out = s.out := rfl
@[simp] theorem State.setResult_mem (g : GenStatus) : (s.setResult g).mem = s.mem := rfl
@[simp] theorem State.setResult_unsettled (g : GenStatus) : (s.setResult g).unsettled = s.unsettled := rfl
@[simp] theorem State.setResult_draws (g : GenStatus) : (s.setResult g).draws = s.draws := rfl
@[simp] theorem State.setResult_uopRet (g : GenStatus) : (s.setResult g).uopRet = s.uopRet := rfl
@[simp] theorem State.setResult_busData (g : GenStatus) : (s.setResult g).busData = s.busData := rfl
@[simp] theorem State.setResult_agenda (g : GenStatus) : (s.setResult g).agenda = s.agenda := rfl

/-! ### `setStore` -/

@[simp] theorem State.setStore_cfg (m : Memory) (u : List Nat) : (s.setStore m u).cfg = s.cfg := rfl
@[simp] theorem State.setStore_state (m : Memory) (u : List Nat) : (s.setStore m u).state = s.state := rfl
@[simp] theorem State.setStore_actSel (m : Memory) (u : List Nat) : (s.setStore m u).actSel = s.actSel := rfl
@[simp] theorem State.setStore_actAddr (m : Memory) (u : List Nat) : (s.setStore m u).actAddr = s.actAddr := rfl
@[simp] theorem State.setStore_actLen (m : Memory) (u : List Nat) : (s.setStore m u).actLen = s.actLen := rfl
@[simp] theorem State.setStore_tgtAddr (m : Memory) (u : List Nat) : (s.setStore m u).tgtAddr = s.tgtAddr := rfl
@[simp] theorem State.setStore_tgtLen (m : Memory) (u : List Nat) : (s.setStore m u).tgtLen = s.tgtLen := rfl
@[simp] theorem State.setStore_tgtRate (m : Memory) (u : List Nat) : (s.setStore m u).tgtRate = s.tgtRate := rfl
@[simp] theorem State.setStore_ramp (m : Memory) (u : List Nat) : (s.setStore m u).ramp = s.ramp := rfl
@[simp] theorem State.setStore_mode (m : Memory) (u : List Nat) : (s.setStore m u).mode = s.mode := rfl
@[simp] theorem State.setStore_run (m : Memory) (u : List Nat) : (s.setStore m u).run = s.run := rfl
@[simp] theorem State.setStore_remain (m : Memory) (u : List Nat) : (s.setStore m u).remain = s.remain := rfl
@[simp] theorem State.setStore_timerPeriod (m : Memory) (u : List Nat) : (s.setStore m u).timerPeriod = s.timerPeriod := rfl
@[simp] theorem State.setStore_outEn (m : Memory) (u : List Nat) : (s.setStore m u).outEn = s.outEn := rfl
@[simp] theorem State.setStore_irqEn (m : Memory) (u : List Nat) : (s.setStore m u).irqEn = s.irqEn := rfl
@[simp] theorem State.setStore_irqPend (m : Memory) (u : List Nat) : (s.setStore m u).irqPend = s.irqPend := rfl
@[simp] theorem State.setStore_dacHold (m : Memory) (u : List Nat) : (s.setStore m u).dacHold = s.dacHold := rfl
@[simp] theorem State.setStore_argAddr (m : Memory) (u : List Nat) : (s.setStore m u).argAddr = s.argAddr := rfl
@[simp] theorem State.setStore_argLen (m : Memory) (u : List Nat) : (s.setStore m u).argLen = s.argLen := rfl
@[simp] theorem State.setStore_argRate (m : Memory) (u : List Nat) : (s.setStore m u).argRate = s.argRate := rfl
@[simp] theorem State.setStore_argAmp (m : Memory) (u : List Nat) : (s.setStore m u).argAmp = s.argAmp := rfl
@[simp] theorem State.setStore_result (m : Memory) (u : List Nat) : (s.setStore m u).result = s.result := rfl
@[simp] theorem State.setStore_out (m : Memory) (u : List Nat) : (s.setStore m u).out = s.out := rfl
@[simp] theorem State.setStore_mem (m : Memory) (u : List Nat) : (s.setStore m u).mem = m := rfl
@[simp] theorem State.setStore_unsettled (m : Memory) (u : List Nat) : (s.setStore m u).unsettled = u := rfl
@[simp] theorem State.setStore_draws (m : Memory) (u : List Nat) : (s.setStore m u).draws = s.draws := rfl
@[simp] theorem State.setStore_uopRet (m : Memory) (u : List Nat) : (s.setStore m u).uopRet = s.uopRet := rfl
@[simp] theorem State.setStore_busData (m : Memory) (u : List Nat) : (s.setStore m u).busData = s.busData := rfl
@[simp] theorem State.setStore_agenda (m : Memory) (u : List Nat) : (s.setStore m u).agenda = s.agenda := rfl

/-! ### `setDraws` -/

@[simp] theorem State.setDraws_cfg (n : Nat) : (s.setDraws n).cfg = s.cfg := rfl
@[simp] theorem State.setDraws_state (n : Nat) : (s.setDraws n).state = s.state := rfl
@[simp] theorem State.setDraws_actSel (n : Nat) : (s.setDraws n).actSel = s.actSel := rfl
@[simp] theorem State.setDraws_actAddr (n : Nat) : (s.setDraws n).actAddr = s.actAddr := rfl
@[simp] theorem State.setDraws_actLen (n : Nat) : (s.setDraws n).actLen = s.actLen := rfl
@[simp] theorem State.setDraws_tgtAddr (n : Nat) : (s.setDraws n).tgtAddr = s.tgtAddr := rfl
@[simp] theorem State.setDraws_tgtLen (n : Nat) : (s.setDraws n).tgtLen = s.tgtLen := rfl
@[simp] theorem State.setDraws_tgtRate (n : Nat) : (s.setDraws n).tgtRate = s.tgtRate := rfl
@[simp] theorem State.setDraws_ramp (n : Nat) : (s.setDraws n).ramp = s.ramp := rfl
@[simp] theorem State.setDraws_mode (n : Nat) : (s.setDraws n).mode = s.mode := rfl
@[simp] theorem State.setDraws_run (n : Nat) : (s.setDraws n).run = s.run := rfl
@[simp] theorem State.setDraws_remain (n : Nat) : (s.setDraws n).remain = s.remain := rfl
@[simp] theorem State.setDraws_timerPeriod (n : Nat) : (s.setDraws n).timerPeriod = s.timerPeriod := rfl
@[simp] theorem State.setDraws_outEn (n : Nat) : (s.setDraws n).outEn = s.outEn := rfl
@[simp] theorem State.setDraws_irqEn (n : Nat) : (s.setDraws n).irqEn = s.irqEn := rfl
@[simp] theorem State.setDraws_irqPend (n : Nat) : (s.setDraws n).irqPend = s.irqPend := rfl
@[simp] theorem State.setDraws_dacHold (n : Nat) : (s.setDraws n).dacHold = s.dacHold := rfl
@[simp] theorem State.setDraws_argAddr (n : Nat) : (s.setDraws n).argAddr = s.argAddr := rfl
@[simp] theorem State.setDraws_argLen (n : Nat) : (s.setDraws n).argLen = s.argLen := rfl
@[simp] theorem State.setDraws_argRate (n : Nat) : (s.setDraws n).argRate = s.argRate := rfl
@[simp] theorem State.setDraws_argAmp (n : Nat) : (s.setDraws n).argAmp = s.argAmp := rfl
@[simp] theorem State.setDraws_result (n : Nat) : (s.setDraws n).result = s.result := rfl
@[simp] theorem State.setDraws_out (n : Nat) : (s.setDraws n).out = s.out := rfl
@[simp] theorem State.setDraws_mem (n : Nat) : (s.setDraws n).mem = s.mem := rfl
@[simp] theorem State.setDraws_unsettled (n : Nat) : (s.setDraws n).unsettled = s.unsettled := rfl
@[simp] theorem State.setDraws_draws (n : Nat) : (s.setDraws n).draws = n := rfl
@[simp] theorem State.setDraws_uopRet (n : Nat) : (s.setDraws n).uopRet = s.uopRet := rfl
@[simp] theorem State.setDraws_busData (n : Nat) : (s.setDraws n).busData = s.busData := rfl
@[simp] theorem State.setDraws_agenda (n : Nat) : (s.setDraws n).agenda = s.agenda := rfl

/-! ### `setUopRet` -/

@[simp] theorem State.setUopRet_cfg (n : Nat) : (s.setUopRet n).cfg = s.cfg := rfl
@[simp] theorem State.setUopRet_state (n : Nat) : (s.setUopRet n).state = s.state := rfl
@[simp] theorem State.setUopRet_actSel (n : Nat) : (s.setUopRet n).actSel = s.actSel := rfl
@[simp] theorem State.setUopRet_actAddr (n : Nat) : (s.setUopRet n).actAddr = s.actAddr := rfl
@[simp] theorem State.setUopRet_actLen (n : Nat) : (s.setUopRet n).actLen = s.actLen := rfl
@[simp] theorem State.setUopRet_tgtAddr (n : Nat) : (s.setUopRet n).tgtAddr = s.tgtAddr := rfl
@[simp] theorem State.setUopRet_tgtLen (n : Nat) : (s.setUopRet n).tgtLen = s.tgtLen := rfl
@[simp] theorem State.setUopRet_tgtRate (n : Nat) : (s.setUopRet n).tgtRate = s.tgtRate := rfl
@[simp] theorem State.setUopRet_ramp (n : Nat) : (s.setUopRet n).ramp = s.ramp := rfl
@[simp] theorem State.setUopRet_mode (n : Nat) : (s.setUopRet n).mode = s.mode := rfl
@[simp] theorem State.setUopRet_run (n : Nat) : (s.setUopRet n).run = s.run := rfl
@[simp] theorem State.setUopRet_remain (n : Nat) : (s.setUopRet n).remain = s.remain := rfl
@[simp] theorem State.setUopRet_timerPeriod (n : Nat) : (s.setUopRet n).timerPeriod = s.timerPeriod := rfl
@[simp] theorem State.setUopRet_outEn (n : Nat) : (s.setUopRet n).outEn = s.outEn := rfl
@[simp] theorem State.setUopRet_irqEn (n : Nat) : (s.setUopRet n).irqEn = s.irqEn := rfl
@[simp] theorem State.setUopRet_irqPend (n : Nat) : (s.setUopRet n).irqPend = s.irqPend := rfl
@[simp] theorem State.setUopRet_dacHold (n : Nat) : (s.setUopRet n).dacHold = s.dacHold := rfl
@[simp] theorem State.setUopRet_argAddr (n : Nat) : (s.setUopRet n).argAddr = s.argAddr := rfl
@[simp] theorem State.setUopRet_argLen (n : Nat) : (s.setUopRet n).argLen = s.argLen := rfl
@[simp] theorem State.setUopRet_argRate (n : Nat) : (s.setUopRet n).argRate = s.argRate := rfl
@[simp] theorem State.setUopRet_argAmp (n : Nat) : (s.setUopRet n).argAmp = s.argAmp := rfl
@[simp] theorem State.setUopRet_result (n : Nat) : (s.setUopRet n).result = s.result := rfl
@[simp] theorem State.setUopRet_out (n : Nat) : (s.setUopRet n).out = s.out := rfl
@[simp] theorem State.setUopRet_mem (n : Nat) : (s.setUopRet n).mem = s.mem := rfl
@[simp] theorem State.setUopRet_unsettled (n : Nat) : (s.setUopRet n).unsettled = s.unsettled := rfl
@[simp] theorem State.setUopRet_draws (n : Nat) : (s.setUopRet n).draws = s.draws := rfl
@[simp] theorem State.setUopRet_uopRet (n : Nat) : (s.setUopRet n).uopRet = n := rfl
@[simp] theorem State.setUopRet_busData (n : Nat) : (s.setUopRet n).busData = s.busData := rfl
@[simp] theorem State.setUopRet_agenda (n : Nat) : (s.setUopRet n).agenda = s.agenda := rfl

/-! ### `setBusData` -/

@[simp] theorem State.setBusData_cfg (w : Word) : (s.setBusData w).cfg = s.cfg := rfl
@[simp] theorem State.setBusData_state (w : Word) : (s.setBusData w).state = s.state := rfl
@[simp] theorem State.setBusData_actSel (w : Word) : (s.setBusData w).actSel = s.actSel := rfl
@[simp] theorem State.setBusData_actAddr (w : Word) : (s.setBusData w).actAddr = s.actAddr := rfl
@[simp] theorem State.setBusData_actLen (w : Word) : (s.setBusData w).actLen = s.actLen := rfl
@[simp] theorem State.setBusData_tgtAddr (w : Word) : (s.setBusData w).tgtAddr = s.tgtAddr := rfl
@[simp] theorem State.setBusData_tgtLen (w : Word) : (s.setBusData w).tgtLen = s.tgtLen := rfl
@[simp] theorem State.setBusData_tgtRate (w : Word) : (s.setBusData w).tgtRate = s.tgtRate := rfl
@[simp] theorem State.setBusData_ramp (w : Word) : (s.setBusData w).ramp = s.ramp := rfl
@[simp] theorem State.setBusData_mode (w : Word) : (s.setBusData w).mode = s.mode := rfl
@[simp] theorem State.setBusData_run (w : Word) : (s.setBusData w).run = s.run := rfl
@[simp] theorem State.setBusData_remain (w : Word) : (s.setBusData w).remain = s.remain := rfl
@[simp] theorem State.setBusData_timerPeriod (w : Word) : (s.setBusData w).timerPeriod = s.timerPeriod := rfl
@[simp] theorem State.setBusData_outEn (w : Word) : (s.setBusData w).outEn = s.outEn := rfl
@[simp] theorem State.setBusData_irqEn (w : Word) : (s.setBusData w).irqEn = s.irqEn := rfl
@[simp] theorem State.setBusData_irqPend (w : Word) : (s.setBusData w).irqPend = s.irqPend := rfl
@[simp] theorem State.setBusData_dacHold (w : Word) : (s.setBusData w).dacHold = s.dacHold := rfl
@[simp] theorem State.setBusData_argAddr (w : Word) : (s.setBusData w).argAddr = s.argAddr := rfl
@[simp] theorem State.setBusData_argLen (w : Word) : (s.setBusData w).argLen = s.argLen := rfl
@[simp] theorem State.setBusData_argRate (w : Word) : (s.setBusData w).argRate = s.argRate := rfl
@[simp] theorem State.setBusData_argAmp (w : Word) : (s.setBusData w).argAmp = s.argAmp := rfl
@[simp] theorem State.setBusData_result (w : Word) : (s.setBusData w).result = s.result := rfl
@[simp] theorem State.setBusData_out (w : Word) : (s.setBusData w).out = s.out := rfl
@[simp] theorem State.setBusData_mem (w : Word) : (s.setBusData w).mem = s.mem := rfl
@[simp] theorem State.setBusData_unsettled (w : Word) : (s.setBusData w).unsettled = s.unsettled := rfl
@[simp] theorem State.setBusData_draws (w : Word) : (s.setBusData w).draws = s.draws := rfl
@[simp] theorem State.setBusData_uopRet (w : Word) : (s.setBusData w).uopRet = s.uopRet := rfl
@[simp] theorem State.setBusData_busData (w : Word) : (s.setBusData w).busData = w := rfl
@[simp] theorem State.setBusData_agenda (w : Word) : (s.setBusData w).agenda = s.agenda := rfl

/-! ### `setAgenda` -/

@[simp] theorem State.setAgenda_cfg (l : List Action) : (s.setAgenda l).cfg = s.cfg := rfl
@[simp] theorem State.setAgenda_state (l : List Action) : (s.setAgenda l).state = s.state := rfl
@[simp] theorem State.setAgenda_actSel (l : List Action) : (s.setAgenda l).actSel = s.actSel := rfl
@[simp] theorem State.setAgenda_actAddr (l : List Action) : (s.setAgenda l).actAddr = s.actAddr := rfl
@[simp] theorem State.setAgenda_actLen (l : List Action) : (s.setAgenda l).actLen = s.actLen := rfl
@[simp] theorem State.setAgenda_tgtAddr (l : List Action) : (s.setAgenda l).tgtAddr = s.tgtAddr := rfl
@[simp] theorem State.setAgenda_tgtLen (l : List Action) : (s.setAgenda l).tgtLen = s.tgtLen := rfl
@[simp] theorem State.setAgenda_tgtRate (l : List Action) : (s.setAgenda l).tgtRate = s.tgtRate := rfl
@[simp] theorem State.setAgenda_ramp (l : List Action) : (s.setAgenda l).ramp = s.ramp := rfl
@[simp] theorem State.setAgenda_mode (l : List Action) : (s.setAgenda l).mode = s.mode := rfl
@[simp] theorem State.setAgenda_run (l : List Action) : (s.setAgenda l).run = s.run := rfl
@[simp] theorem State.setAgenda_remain (l : List Action) : (s.setAgenda l).remain = s.remain := rfl
@[simp] theorem State.setAgenda_timerPeriod (l : List Action) : (s.setAgenda l).timerPeriod = s.timerPeriod := rfl
@[simp] theorem State.setAgenda_outEn (l : List Action) : (s.setAgenda l).outEn = s.outEn := rfl
@[simp] theorem State.setAgenda_irqEn (l : List Action) : (s.setAgenda l).irqEn = s.irqEn := rfl
@[simp] theorem State.setAgenda_irqPend (l : List Action) : (s.setAgenda l).irqPend = s.irqPend := rfl
@[simp] theorem State.setAgenda_dacHold (l : List Action) : (s.setAgenda l).dacHold = s.dacHold := rfl
@[simp] theorem State.setAgenda_argAddr (l : List Action) : (s.setAgenda l).argAddr = s.argAddr := rfl
@[simp] theorem State.setAgenda_argLen (l : List Action) : (s.setAgenda l).argLen = s.argLen := rfl
@[simp] theorem State.setAgenda_argRate (l : List Action) : (s.setAgenda l).argRate = s.argRate := rfl
@[simp] theorem State.setAgenda_argAmp (l : List Action) : (s.setAgenda l).argAmp = s.argAmp := rfl
@[simp] theorem State.setAgenda_result (l : List Action) : (s.setAgenda l).result = s.result := rfl
@[simp] theorem State.setAgenda_out (l : List Action) : (s.setAgenda l).out = s.out := rfl
@[simp] theorem State.setAgenda_mem (l : List Action) : (s.setAgenda l).mem = s.mem := rfl
@[simp] theorem State.setAgenda_unsettled (l : List Action) : (s.setAgenda l).unsettled = s.unsettled := rfl
@[simp] theorem State.setAgenda_draws (l : List Action) : (s.setAgenda l).draws = s.draws := rfl
@[simp] theorem State.setAgenda_uopRet (l : List Action) : (s.setAgenda l).uopRet = s.uopRet := rfl
@[simp] theorem State.setAgenda_busData (l : List Action) : (s.setAgenda l).busData = s.busData := rfl
@[simp] theorem State.setAgenda_agenda (l : List Action) : (s.setAgenda l).agenda = l := rfl

end Sys2Proof.Machine
end

