-- ==== Sys2Proof/Laws/Memory.lean ====
section
/-! SUPPORT. The laws of the sample memory: the canonical form is kept, a read after a write, everything else stays. -/

namespace Sys2Proof.Machine

/-! ### Bytes -/

theorem Memory.wf_tail {p : Host.Cell} {m : Memory} (h : Memory.wf (p :: m)) : Memory.wf m :=
  ⟨(List.pairwise_cons.1 h.1).2, fun q hq => h.2 q (List.mem_cons_of_mem _ hq)⟩

theorem Memory.wf_head_lt {p : Host.Cell} {m : Memory} (h : Memory.wf (p :: m)) : ∀ q ∈ m, p.1 < q.1 :=
  (List.pairwise_cons.1 h.1).1

theorem Memory.wf_nil : Memory.wf [] := ⟨List.Pairwise.nil, fun _ h => absurd h (List.not_mem_nil)⟩

theorem Memory.readByte_unlisted {m : Memory} {a : Nat} (h : ∀ q ∈ m, q.1 ≠ a) : m.readByte a = unlistedByte := by
  induction m with
  | nil => rfl
  | cons p m ih =>
    rw [Memory.readByte, if_neg (fun e => h p List.mem_cons_self e.symm)]
    exact ih fun q hq => h q (List.mem_cons_of_mem _ hq)

theorem Memory.entry_wf {a : Nat} {v : Byte} {m : Memory} (hm : Memory.wf m) (ha : ∀ q ∈ m, a < q.1) :
    Memory.wf (Memory.entry a v m) := by
  unfold Memory.entry
  split
  · exact hm
  · rename_i hv
    refine ⟨List.pairwise_cons.2 ⟨ha, hm.1⟩, fun q hq => ?_⟩
    rcases List.mem_cons.1 hq with rfl | hq
    · exact hv
    · exact hm.2 q hq

theorem Memory.readByte_entry_self {a : Nat} {v : Byte} {m : Memory} (ha : ∀ q ∈ m, q.1 ≠ a) :
    (Memory.entry a v m).readByte a = v := by
  unfold Memory.entry
  split
  · rename_i hv
    rw [hv, Memory.readByte_unlisted ha]
  · simp [Memory.readByte]

theorem Memory.readByte_entry_ne {a b : Nat} {v : Byte} {m : Memory} (h : b ≠ a) :
    (Memory.entry a v m).readByte b = m.readByte b := by
  unfold Memory.entry
  split
  · rfl
  · simp [Memory.readByte, h]

theorem Memory.mem_entry {a : Nat} {v : Byte} {m : Memory} {q : Host.Cell} (h : q ∈ Memory.entry a v m) :
    q ∈ m ∨ q.1 = a := by
  unfold Memory.entry at h
  split at h
  · exact .inl h
  · rcases List.mem_cons.1 h with rfl | h
    · exact .inr rfl
    · exact .inl h

theorem Memory.mem_writeByte {m : Memory} {a : Nat} {v : Byte} {q : Host.Cell} (h : q ∈ m.writeByte a v) :
    q ∈ m ∨ q.1 = a := by
  induction m with
  | nil => exact Memory.mem_entry h
  | cons p m ih =>
    obtain ⟨b, w⟩ := p
    simp only [Memory.writeByte] at h
    split at h
    · exact Memory.mem_entry h
    · split at h
      · exact (Memory.mem_entry h).imp_left (List.mem_cons_of_mem _)
      · rcases List.mem_cons.1 h with rfl | h
        · exact .inl List.mem_cons_self
        · exact (ih h).imp_left (List.mem_cons_of_mem _)

theorem Memory.writeByte_wf {m : Memory} (hm : Memory.wf m) (a : Nat) (v : Byte) :
    Memory.wf (m.writeByte a v) := by
  induction m with
  | nil => exact Memory.entry_wf Memory.wf_nil (fun _ h => absurd h (List.not_mem_nil))
  | cons p m ih =>
    obtain ⟨b, w⟩ := p
    have hlt := Memory.wf_head_lt hm
    simp only [Memory.writeByte]
    split
    · rename_i hab
      refine Memory.entry_wf hm fun q hq => ?_
      rcases List.mem_cons.1 hq with rfl | hq
      · exact hab
      · exact Nat.lt_trans hab (hlt q hq)
    · rename_i hab
      split
      · rename_i hb
        exact Memory.entry_wf (Memory.wf_tail hm) fun q hq => hb ▸ hlt q hq
      · rename_i hb
        have ih := ih (Memory.wf_tail hm)
        refine ⟨List.pairwise_cons.2 ⟨fun q hq => ?_, ih.1⟩, fun q hq => ?_⟩
        · rcases Memory.mem_writeByte hq with hq | hq
          · exact hlt q hq
          · show b < q.1
            omega
        · rcases List.mem_cons.1 hq with rfl | hq
          · exact hm.2 _ List.mem_cons_self
          · exact ih.2 q hq

theorem Memory.readByte_writeByte_self {m : Memory} (hm : Memory.wf m) (a : Nat) (v : Byte) :
    (m.writeByte a v).readByte a = v := by
  induction m with
  | nil => exact Memory.readByte_entry_self (fun _ h => absurd h (List.not_mem_nil))
  | cons p m ih =>
    obtain ⟨b, w⟩ := p
    have hlt := Memory.wf_head_lt hm
    simp only [Memory.writeByte]
    split
    · rename_i hab
      refine Memory.readByte_entry_self fun q hq => ?_
      rcases List.mem_cons.1 hq with rfl | hq
      · exact Nat.ne_of_gt hab
      · exact Nat.ne_of_gt (Nat.lt_trans hab (hlt q hq))
    · split
      · rename_i hb
        exact Memory.readByte_entry_self fun q hq => Nat.ne_of_gt (hb ▸ hlt q hq)
      · rename_i hb
        rw [Memory.readByte, if_neg hb]
        exact ih (Memory.wf_tail hm)

theorem Memory.readByte_writeByte_ne (m : Memory) {a b : Nat} (v : Byte) (h : b ≠ a) :
    (m.writeByte a v).readByte b = m.readByte b := by
  induction m with
  | nil => exact Memory.readByte_entry_ne h
  | cons p m ih =>
    obtain ⟨c, w⟩ := p
    simp only [Memory.writeByte]
    split
    · exact Memory.readByte_entry_ne h
    · split
      · rename_i hc
        rw [Memory.readByte_entry_ne h, Memory.readByte, if_neg (hc ▸ h)]
      · rw [Memory.readByte, Memory.readByte, ih]

/-- Canonical memories that read alike are equal: the form is unique. -/
theorem Memory.ext_of_wf {m n : Memory} (hm : Memory.wf m) (hn : Memory.wf n)
    (h : ∀ a, m.readByte a = n.readByte a) : m = n := by
  induction m generalizing n with
  | nil =>
    cases n with
    | nil => rfl
    | cons q n =>
      have := h q.1
      simp only [Memory.readByte, if_true] at this
      exact absurd this.symm (hn.2 q List.mem_cons_self)
  | cons p m ih =>
    cases n with
    | nil =>
      have := h p.1
      simp only [Memory.readByte, if_true] at this
      exact absurd this (hm.2 p List.mem_cons_self)
    | cons q n =>
      have hp := Memory.wf_head_lt hm
      have hq := Memory.wf_head_lt hn
      have hpq : p.1 = q.1 := by
        rcases Nat.lt_trichotomy p.1 q.1 with hlt | he | hlt
        · have := h p.1
          rw [Memory.readByte, if_pos rfl, Memory.readByte_unlisted (m := q :: n)] at this
          · exact absurd this (hm.2 p List.mem_cons_self)
          · intro r hr
            rcases List.mem_cons.1 hr with rfl | hr
            · omega
            · have := hq r hr
              omega
        · exact he
        · have := h q.1
          rw [Memory.readByte_unlisted (m := p :: m), Memory.readByte, if_pos rfl] at this
          · exact absurd this.symm (hn.2 q List.mem_cons_self)
          · intro r hr
            rcases List.mem_cons.1 hr with rfl | hr
            · omega
            · have := hp r hr
              omega
      have hval : p.2 = q.2 := by
        have := h p.1
        simpa only [Memory.readByte, hpq, if_true] using this
      have htail : m = n := by
        refine ih (Memory.wf_tail hm) (Memory.wf_tail hn) fun a => ?_
        have ha := h a
        by_cases he : a = p.1
        · rw [Memory.readByte_unlisted (m := m) fun r hr e => by have := hp r hr; omega,
            Memory.readByte_unlisted (m := n) fun r hr e => by have := hq r hr; omega]
        · rw [Memory.readByte, if_neg he, Memory.readByte, if_neg (hpq ▸ he)] at ha
          exact ha
      rw [htail, Prod.ext hpq hval]

/-! ### Cells -/

theorem lowByteAddr_ne_high (o : ByteOrder) (a b : Nat) : lowByteAddr o a ≠ highByteAddr o b := by
  cases o <;> simp only [lowByteAddr, highByteAddr] <;> omega

theorem lowByteAddr_inj {o : ByteOrder} {a b : Nat} (h : lowByteAddr o a = lowByteAddr o b) : a = b := by
  cases o <;> simp only [lowByteAddr] at h <;> omega

theorem highByteAddr_inj {o : ByteOrder} {a b : Nat} (h : highByteAddr o a = highByteAddr o b) : a = b := by
  cases o <;> simp only [highByteAddr] at h <;> omega

/-- A cell owns the bytes 2a and 2a+1 and no other (20_memory.md R62). -/
theorem cellByte_cases (o : ByteOrder) (a : Nat) :
    (lowByteAddr o a = 2 * a ∧ highByteAddr o a = 2 * a + 1) ∨
      (lowByteAddr o a = 2 * a + 1 ∧ highByteAddr o a = 2 * a) := by
  cases o
  · exact .inl ⟨rfl, rfl⟩
  · exact .inr ⟨rfl, rfl⟩

theorem Memory.writeCell_wf {m : Memory} (hm : Memory.wf m) (o : ByteOrder) (a : Nat) (v : Sample) :
    Memory.wf (m.writeCell o a v) :=
  Memory.writeByte_wf (Memory.writeByte_wf hm _ _) _ _

theorem Memory.mem_writeCell {m : Memory} {o : ByteOrder} {a : Nat} {v : Sample} {q : Host.Cell}
    (h : q ∈ m.writeCell o a v) : q ∈ m ∨ q.1 = 2 * a ∨ q.1 = 2 * a + 1 := by
  rcases Memory.mem_writeByte h with h | h
  · rcases Memory.mem_writeByte h with h | h
    · exact .inl h
    · rcases cellByte_cases o a with ⟨e, -⟩ | ⟨e, -⟩ <;> rw [e] at h <;> simp [h]
  · rcases cellByte_cases o a with ⟨-, e⟩ | ⟨-, e⟩ <;> rw [e] at h <;> simp [h]

theorem Memory.readByte_writeCell_ne (m : Memory) (o : ByteOrder) {a b : Nat} (v : Sample)
    (h0 : b ≠ 2 * a) (h1 : b ≠ 2 * a + 1) : (m.writeCell o a v).readByte b = m.readByte b := by
  unfold Memory.writeCell
  rcases cellByte_cases o a with ⟨e, e'⟩ | ⟨e, e'⟩ <;> rw [e, e'] <;>
    rw [Memory.readByte_writeByte_ne _ _ (by assumption), Memory.readByte_writeByte_ne _ _ (by assumption)]

theorem sample_of_bytes (v : Sample) : v.extractLsb' 8 8 ++ v.extractLsb' 0 8 = v := by
  rw [BitVec.extractLsb'_append_extractLsb'_eq_extractLsb' (by rfl)]
  ext i hi
  simp

theorem Memory.readCell_writeCell_self {m : Memory} (hm : Memory.wf m) (o : ByteOrder) (a : Nat) (v : Sample) :
    (m.writeCell o a v).readCell o a = v := by
  unfold Memory.writeCell Memory.readCell
  rw [Memory.readByte_writeByte_self (Memory.writeByte_wf hm _ _),
    Memory.readByte_writeByte_ne _ _ (lowByteAddr_ne_high o a a), Memory.readByte_writeByte_self hm]
  exact sample_of_bytes v

theorem Memory.readCell_writeCell_ne (m : Memory) (o : ByteOrder) {a b : Nat} (v : Sample) (h : b ≠ a) :
    (m.writeCell o a v).readCell o b = m.readCell o b := by
  unfold Memory.readCell
  have hb := cellByte_cases o b
  rw [Memory.readByte_writeCell_ne m o v (by omega) (by omega),
    Memory.readByte_writeCell_ne m o v (by omega) (by omega)]

/-! ### Marks -/

theorem mem_markCell {x a : Nat} {l : List Nat} : x ∈ markCell a l ↔ x = a ∨ x ∈ l := by
  induction l with
  | nil => simp [markCell]
  | cons b l ih =>
    simp only [markCell]
    split
    · simp
    · split
      · rename_i h
        simp [h]
      · simp only [List.mem_cons, ih]
        tauto

theorem markCell_rises {l : List Nat} (h : l.Pairwise (· < ·)) (a : Nat) : (markCell a l).Pairwise (· < ·) := by
  induction l with
  | nil => simp [markCell]
  | cons b l ih =>
    have hb := (List.pairwise_cons.1 h).1
    simp only [markCell]
    split
    · rename_i hab
      refine List.pairwise_cons.2 ⟨fun x hx => ?_, h⟩
      rcases List.mem_cons.1 hx with rfl | hx
      · exact hab
      · exact Nat.lt_trans hab (hb x hx)
    · split
      · exact h
      · refine List.pairwise_cons.2 ⟨fun x hx => ?_, ih (List.pairwise_cons.1 h).2⟩
        rcases mem_markCell.1 hx with rfl | hx
        · omega
        · exact hb x hx

end Sys2Proof.Machine
end

