-- ==== Sys2Proof/Laws/Ops.lean ====
section
/-! SUPPORT. One lemma per shared operation that says all it can do; later proofs cite it and do not unfold the
operation. -/

namespace Sys2Proof.Machine

/-! ### Outcomes -/

@[simp] theorem withVal_ok {α : Type} (v : α) (k : α → Res) : withVal (.ok v) k = k v := rfl

@[simp] theorem withVal_error {α : Type} (e : Refusal) (k : α → Res) : withVal (.error e) k = .refused e := rfl

theorem withVal_next_iff {α : Type} {r : Except Refusal α} {k : α → Res} {t : State} :
    withVal r k = .next t ↔ ∃ v, r = .ok v ∧ k v = .next t := by
  cases r <;> simp

theorem withVal_refused_iff {α : Type} {r : Except Refusal α} {k : α → Res} {e : Refusal} :
    withVal r k = .refused e ↔ r = .error e ∨ ∃ v, r = .ok v ∧ k v = .refused e := by
  cases r <;> simp

/-! ### Operands -/

theorem lowBits_toNat (n : Nat) (w : Word) : (lowBits n w).toNat = w.toNat % 2 ^ n := by
  have : w.toNat % 2 ^ n < 2 ^ 32 := Nat.lt_of_le_of_lt (Nat.mod_le _ _) w.isLt
  rw [lowBits, BitVec.toNat_ofNat, Nat.mod_eq_of_lt this]

theorem lowBits_lt (n : Nat) (w : Word) : (lowBits n w).toNat < 2 ^ n := by
  rw [lowBits_toNat]
  exact Nat.mod_lt _ (Nat.two_pow_pos n)

theorem lowBits_of_lt {n : Nat} {w : Word} (h : w.toNat < 2 ^ n) : lowBits n w = w := by
  apply BitVec.eq_of_toNat_eq
  rw [lowBits_toNat, Nat.mod_eq_of_lt h]

theorem opAddr_eq (s : State) : opAddr s = s.argAddr.toNat % 2 ^ s.cfg.addrBits := lowBits_toNat _ _

theorem opLen_eq (s : State) : opLen s = s.argLen.toNat % 2 ^ s.cfg.lenBits := lowBits_toNat _ _

theorem opRate_eq (s : State) : opRate s = s.argRate.toNat % 2 ^ s.cfg.rateBits := lowBits_toNat _ _

theorem opAmp_eq (s : State) : opAmp s = s.argAmp.toNat % 2 ^ 16 := lowBits_toNat _ _

theorem opAddr_lt (s : State) : opAddr s < 2 ^ s.cfg.addrBits := lowBits_lt _ _

theorem opLen_lt (s : State) : opLen s < 2 ^ s.cfg.lenBits := lowBits_lt _ _

theorem opRate_lt (s : State) : opRate s < 2 ^ s.cfg.rateBits := lowBits_lt _ _

theorem opAmp_lt (s : State) : opAmp s < 2 ^ 16 := lowBits_lt _ _

/-! ### TDIV -/

theorem timerDivide_ok_iff {c : Cfg} {rate p : Nat} :
    timerDivide c rate = .ok p ↔
      1 ≤ rate ∧ rate ≤ c.clockRate ∧ p = c.clockRate / rate - 1 ∧ p < 2 ^ c.timerBits := by
  unfold timerDivide
  by_cases h0 : rate = 0
  · simp [h0]
  · have hpos : 0 < rate := Nat.pos_of_ne_zero h0
    rw [if_neg h0]
    by_cases h1 : c.clockRate / rate = 0
    · have : c.clockRate < rate := by
        rcases Nat.div_eq_zero_iff.1 h1 with h | h
        · omega
        · exact h
      rw [if_pos h1]
      constructor
      · intro h
        cases h
      · rintro ⟨-, h, -⟩
        omega
    · have hle : rate ≤ c.clockRate := by
        by_contra hlt
        exact h1 (Nat.div_eq_of_lt (by omega))
      rw [if_neg h1]
      split
      · constructor
        · intro h
          cases h
        · rintro ⟨-, -, rfl, h⟩
          omega
      · constructor
        · intro h
          cases h
          exact ⟨hpos, hle, rfl, by omega⟩
        · rintro ⟨-, -, rfl, -⟩
          rfl

/-- The ramp rate of an admitted configuration always has a period (00_scope.md R8). -/
theorem timerDivide_rampRate {c : Cfg} (h : c.Valid) :
    timerDivide c c.rampRate = .ok (c.clockRate / c.rampRate - 1) :=
  timerDivide_ok_iff.2 ⟨h.2.1.1, h.2.1.2.1, rfl, h.2.1.2.2⟩

theorem timerDivide_isSome_iff {c : Cfg} {rate : Nat} :
    (timerDivide c rate).toOption.isSome = true ↔ ∃ p, timerDivide c rate = .ok p := by
  cases timerDivide c rate <;> simp [Except.toOption]

/-! ### Reads -/

theorem memRead_ok_iff {k : Nat} {s : State} {a : Nat} {v : Sample} :
    memRead k s a = .ok v ↔
      a < s.cfg.memCells ∧ v = if a ∈ s.unsettled then Config.freeCell k else s.cell a := by
  unfold memRead
  by_cases h : s.cfg.memCells ≤ a
  · simp [h, Nat.not_lt.2 h]
  · by_cases hu : a ∈ s.unsettled <;> simp [h, hu, Nat.not_le.1 h, eq_comm]

theorem memRead_of_lt {k : Nat} {s : State} {a : Nat} (h : a < s.cfg.memCells) :
    memRead k s a = .ok (if a ∈ s.unsettled then Config.freeCell k else s.cell a) :=
  memRead_ok_iff.2 ⟨h, rfl⟩

theorem rampRead_ok_iff {s : State} {i : Nat} {v : Sample} : rampRead s i = .ok v ↔ s.ramp[i]? = some v := by
  unfold rampRead
  cases s.ramp[i]? <;> simp

theorem actRead_ramp {k : Nat} {s : State} (h : s.actSel = .ramp) (i : Nat) : actRead k s i = rampRead s i := by
  simp [actRead, h]

theorem actRead_external {k : Nat} {s : State} (h : s.actSel = .external) (i : Nat) :
    actRead k s i = memRead k s (s.actAddr + i) := by
  simp [actRead, h]

/-! ### CURSAMP -/

theorem liveIndex_of_running {s : State} (h1 : 1 ≤ s.remain) (h2 : s.remain ≤ s.actLen) :
    liveIndex s = s.actLen - s.remain := by
  unfold liveIndex playPos
  rw [if_neg (by omega)]
  omega

theorem liveIndex_of_clamped {s : State} (h : s.remain = 0 ∨ s.actLen < s.remain) : liveIndex s = 0 := by
  unfold liveIndex playPos
  rw [if_pos (by omega)]

theorem liveIndex_lt {s : State} (h : 0 < s.actLen) : liveIndex s < s.actLen := by
  unfold liveIndex
  split <;> omega

theorem curSamp_stopped {k : Nat} {s : State} (h : s.state = .stopped) : curSamp k s = .ok s.cfg.silence := by
  simp [curSamp, h]

theorem curSamp_active {k : Nat} {s : State} (h : s.state ≠ .stopped) :
    curSamp k s = actRead k s (liveIndex s) := by
  unfold curSamp
  split <;> first | exact absurd (by assumption) h | rfl

/-! ### RAMPFILL -/

@[simp] theorem rampCells_length (n : Nat) (seed goal : Sample) : (rampCells n seed goal).length = n := by
  simp [rampCells]

theorem rampCells_getElem? {n i : Nat} (seed goal : Sample) (h : i < n) :
    (rampCells n seed goal)[i]? = some (BitVec.ofInt 16 (rampValue n seed goal i)) := by
  simp [rampCells, h]

theorem rampFill_eq (seed goal : Sample) (s : State) :
    rampFill seed goal s = { s with ramp := rampCells s.cfg.nRamp seed goal } := rfl

/-! ### The backend, the mask, the arm and the handler's arms -/

theorem backendStop_eq (s : State) : backendStop s = { s with run := false } := by
  cases s; rfl

theorem backendStartRamp_eq (s : State) :
    backendStartRamp s =
      { s with actSel := .ramp, actLen := s.cfg.nRamp, remain := s.cfg.nRamp, run := true } := by
  cases s; rfl

theorem backendStartBuffer_eq (a l : Nat) (s : State) :
    backendStartBuffer a l s =
      { s with actSel := .external, actAddr := a, actLen := l, remain := l, run := true } := by
  cases s; rfl

theorem beginRamp_eq (p : Nat) (s : State) :
    beginRamp p s =
      { s with mode := .oneShot, timerPeriod := p, actSel := .ramp, actLen := s.cfg.nRamp,
               remain := s.cfg.nRamp, run := true } := by
  cases s; rfl

theorem shutDown_eq (s : State) :
    shutDown s = { s with outEn := false, run := false, irqEn := false, state := .stopped } := by
  cases s; rfl

theorem beginLoop_eq (p : Nat) (s : State) :
    beginLoop p s =
      { s with mode := .autoRepeat, timerPeriod := p, actSel := .external, actAddr := s.tgtAddr,
               actLen := s.tgtLen, remain := s.tgtLen, run := true, irqEn := false, state := .playing } := by
  cases s; rfl

theorem takeCompletion_eq (s : State) : takeCompletion s = { s with irqPend := false } := by
  cases s; rfl

theorem maskIrq_eq (s : State) : maskIrq s = { s with irqEn := false } := by
  cases s; rfl

theorem armIrq_eq (s : State) :
    armIrq s = { s with irqPend := !s.cfg.clearOnArm && s.irqPend, irqEn := true } := by
  unfold armIrq
  cases s.cfg.clearOnArm <;> rfl

theorem countDown_more {s : State} (h : 2 ≤ s.remain) : countDown s = { s with remain := s.remain - 1 } := by
  unfold countDown
  rw [if_neg (by omega)]
  cases s; rfl

theorem countDown_last_oneShot {s : State} (h : s.remain ≤ 1) (hm : s.mode = .oneShot) :
    countDown s = { s with irqPend := true, remain := 0, run := false } := by
  unfold countDown
  rw [if_pos (by omega)]
  cases s; cases hm; rfl

theorem countDown_last_autoRepeat {s : State} (h : s.remain ≤ 1) (hm : s.mode = .autoRepeat) :
    countDown s = { s with irqPend := true, remain := s.actLen } := by
  unfold countDown
  rw [if_pos (by omega)]
  cases s; cases hm; rfl

theorem initBody_eq (s : State) :
    initBody s =
      { s with state := .stopped, outEn := false, run := false, irqEn := false, irqPend := false,
               mode := .oneShot, actSel := .ramp, remain := 0, result := .ok } := by
  cases s; rfl

theorem startBody_eq (a l r : Nat) (seed goal : Sample) (p : Nat) (s : State) :
    startBody a l r seed goal p s =
      { s with
        ramp := rampCells s.cfg.nRamp seed goal, run := true, mode := .oneShot, timerPeriod := p,
        actSel := .ramp, actLen := s.cfg.nRamp, remain := s.cfg.nRamp, outEn := true,
        tgtAddr := a, tgtLen := l, tgtRate := r, state := .rampingUp,
        irqPend := !s.cfg.clearOnArm && s.irqPend, irqEn := true } := by
  rw [startBody, armIrq_eq]
  cases s; rfl

theorem stopBody_eq (seed : Sample) (p : Nat) (s : State) :
    stopBody seed p s =
      { s with
        ramp := rampCells s.cfg.nRamp seed s.cfg.silence, run := true, mode := .oneShot, timerPeriod := p,
        actSel := .ramp, actLen := s.cfg.nRamp, remain := s.cfg.nRamp, state := .rampingDown,
        irqPend := !s.cfg.clearOnArm && s.irqPend, irqEn := true } := by
  rw [stopBody, armIrq_eq]
  cases s; rfl

theorem startCheck_ok_iff {s : State} :
    startCheck s = .ok () ↔
      opLen s ≠ 0 ∧ opAddr s + opLen s ≤ s.cfg.memCells ∧ ∃ p, timerDivide s.cfg (opRate s) = .ok p := by
  unfold startCheck
  by_cases h0 : opLen s = 0
  · simp [h0]
  · by_cases h1 : s.cfg.memCells < opAddr s + opLen s
    · simp [h0, h1, Nat.not_le.2 h1]
    · cases timerDivide s.cfg (opRate s) <;> simp [h0, h1, Nat.not_lt.1 h1]

/-! ### Stores -/

@[simp] theorem storeSample_references (s : State) (a b : Nat) (v : Sample) :
    (s.storeSample a v).references b = s.references b := rfl

@[simp] theorem storeSample_cfg (s : State) (a : Nat) (v : Sample) : (s.storeSample a v).cfg = s.cfg := rfl

@[simp] theorem storeSample_mem (s : State) (a : Nat) (v : Sample) :
    (s.storeSample a v).mem = s.mem.writeCell s.cfg.byteOrder a v := rfl

@[simp] theorem storeSample_unsettled (s : State) (a : Nat) (v : Sample) :
    (s.storeSample a v).unsettled = if s.references a then markCell a s.unsettled else s.unsettled := rfl

/-- A stored cell reads as the stored value. -/
theorem cell_storeSample_self {s : State} (h : s.mem.wf) (a : Nat) (v : Sample) :
    (s.storeSample a v).cell a = v :=
  Memory.readCell_writeCell_self h _ _ _

/-- Every other cell stays. -/
theorem cell_storeSample_ne (s : State) {a b : Nat} (v : Sample) (h : b ≠ a) :
    (s.storeSample a v).cell b = s.cell b :=
  Memory.readCell_writeCell_ne _ _ _ h

/-- GEN's loop changes nothing but the memory and the marks. -/
theorem fillCells_eq (f : Nat → Nat) (a n i : Nat) (s : State) :
    fillCells f a n i s = s.setStore (fillCells f a n i s).mem (fillCells f a n i s).unsettled := by
  induction n generalizing i s with
  | zero => rfl
  | succ n ih =>
    rw [fillCells, ih]
    rfl

theorem fillCells_wf (f : Nat → Nat) (a n i : Nat) {s : State} (h : s.mem.wf) : (fillCells f a n i s).mem.wf := by
  induction n generalizing i s with
  | zero => exact h
  | succ n ih => exact ih (i + 1) (Memory.writeCell_wf h _ _ _)

theorem fillCells_byte_outside (f : Nat → Nat) (a n i : Nat) (s : State) {b : Nat}
    (hb : b < 2 * (a + i) ∨ 2 * (a + i + n) ≤ b) :
    (fillCells f a n i s).mem.readByte b = s.mem.readByte b := by
  induction n generalizing i s with
  | zero => rfl
  | succ n ih =>
    rw [fillCells, ih (i + 1) _ (by omega), storeSample_mem,
      Memory.readByte_writeCell_ne _ _ _ (by omega) (by omega)]

theorem fillCells_cfg (f : Nat → Nat) (a n i : Nat) (s : State) : (fillCells f a n i s).cfg = s.cfg := by
  rw [fillCells_eq]
  rfl

theorem fillCells_cell_outside (f : Nat → Nat) (a n i : Nat) (s : State) {b : Nat}
    (hb : b < a + i ∨ a + i + n ≤ b) : (fillCells f a n i s).cell b = s.cell b := by
  have h := cellByte_cases s.cfg.byteOrder b
  unfold State.cell Memory.readCell
  rw [fillCells_cfg, fillCells_byte_outside _ _ _ _ _ (by omega), fillCells_byte_outside _ _ _ _ _ (by omega)]

theorem fillCells_cell_inside (f : Nat → Nat) (a n i : Nat) {s : State} (h : s.mem.wf) {j : Nat}
    (hi : i ≤ j) (hj : j < i + n) : (fillCells f a n i s).cell (a + j) = BitVec.ofNat 16 (f j) := by
  induction n generalizing i s with
  | zero => omega
  | succ n ih =>
    rw [fillCells]
    by_cases he : j = i
    · rw [he, fillCells_cell_outside _ _ _ _ _ (by omega), cell_storeSample_self h]
    · exact ih (i + 1) (Memory.writeCell_wf h _ _ _) (by omega) (by omega)

theorem fillCells_mem_inside (f : Nat → Nat) (a n i : Nat) {s : State} {m : Nat} (ha : a + i + n ≤ m)
    (h : ∀ p ∈ s.mem, p.1 < 2 * m) : ∀ p ∈ (fillCells f a n i s).mem, p.1 < 2 * m := by
  induction n generalizing i s with
  | zero => exact h
  | succ n ih =>
    refine ih (i + 1) (by omega) fun p hp => ?_
    rcases Memory.mem_writeCell hp with hp | hp
    · exact h p hp
    · omega

theorem fillCells_marks (f : Nat → Nat) (a n i : Nat) (s : State) (x : Nat) :
    x ∈ (fillCells f a n i s).unsettled ↔
      x ∈ s.unsettled ∨ (s.references x = true ∧ a + i ≤ x ∧ x < a + i + n) := by
  induction n generalizing i s with
  | zero =>
    simp only [fillCells]
    constructor
    · exact .inl
    · rintro (h | ⟨-, h⟩)
      · exact h
      · omega
  | succ n ih =>
    rw [fillCells, ih, storeSample_references, storeSample_unsettled]
    by_cases hx : x = a + i
    · subst hx
      by_cases hr : s.references (a + i) = true
      · simp [hr, mem_markCell]
      · simp [hr]
    · have hm : x ∈ (if s.references (a + i) = true then markCell (a + i) s.unsettled else s.unsettled) ↔
          x ∈ s.unsettled := by
        split
        · simp [mem_markCell, hx]
        · rfl
      rw [hm]
      have : (a + (i + 1) ≤ x ∧ x < a + (i + 1) + n) ↔ (a + i ≤ x ∧ x < a + i + (n + 1)) := by omega
      rw [this]

theorem fillCells_marks_rise (f : Nat → Nat) (a n i : Nat) {s : State} (h : s.unsettled.Pairwise (· < ·)) :
    (fillCells f a n i s).unsettled.Pairwise (· < ·) := by
  induction n generalizing i s with
  | zero => exact h
  | succ n ih =>
    refine ih (i + 1) ?_
    rw [storeSample_unsettled]
    split
    · exact markCell_rises h _
    · exact h

end Sys2Proof.Machine
end

