-- ==== Sys2Proof/Laws/Exec.lean ====
section
/-! SUPPORT. What each operation, each agent's step and the step itself can do: one inversion lemma each. -/

namespace Sys2Proof.Machine

/-! ### The operations -/

theorem execInit_next {s t : State} (h : exec .init s = .next t) : s.state = .stopped ∧ t = initBody s := by
  simp only [exec, execInit] at h
  split at h <;> cases h
  exact ⟨by assumption, rfl⟩

theorem execStart_next {s t : State} (h : exec .start s = .next t) :
    startCheck s = .ok () ∧ ∃ seed goal p, curSamp s.draws s = .ok seed ∧
      memRead (s.draws + 1) s (opAddr s) = .ok goal ∧ timerDivide s.cfg s.cfg.rampRate = .ok p ∧
      t = (startBody (opAddr s) (opLen s) (opRate s) seed goal p s).setDraws (s.draws + 2) := by
  simp only [exec, execStart] at h
  obtain ⟨⟨⟩, hc, h⟩ := withVal_next_iff.1 h
  obtain ⟨seed, hs, h⟩ := withVal_next_iff.1 h
  obtain ⟨goal, hg, h⟩ := withVal_next_iff.1 h
  obtain ⟨p, hp, h⟩ := withVal_next_iff.1 h
  cases h
  exact ⟨hc, seed, goal, p, hs, hg, hp, rfl⟩

theorem execStop_of_stopped {s : State} (h : s.state = .stopped) : exec .stop s = .next s := by
  simp [exec, execStop, h]

theorem execStop_of_active {s : State} (h : s.state ≠ .stopped) : exec .stop s = stopActive s := by
  simp only [exec, execStop]
  split <;> first | exact absurd (by assumption) h | rfl

theorem stopActive_next {s t : State} (h : stopActive s = .next t) :
    ∃ seed p, curSamp s.draws s = .ok seed ∧ timerDivide s.cfg s.cfg.rampRate = .ok p ∧
      t = (stopBody seed p s).setDraws (s.draws + 1) := by
  unfold stopActive at h
  obtain ⟨seed, hs, h⟩ := withVal_next_iff.1 h
  obtain ⟨p, hp, h⟩ := withVal_next_iff.1 h
  cases h
  exact ⟨seed, p, hs, hp, rfl⟩

theorem execStop_next {s t : State} (h : exec .stop s = .next t) :
    (s.state = .stopped ∧ t = s) ∨
      (s.state ≠ .stopped ∧ ∃ seed p, curSamp s.draws s = .ok seed ∧
        timerDivide s.cfg s.cfg.rampRate = .ok p ∧ t = (stopBody seed p s).setDraws (s.draws + 1)) := by
  by_cases hs : s.state = .stopped
  · rw [execStop_of_stopped hs] at h
    cases h
    exact .inl ⟨hs, rfl⟩
  · rw [execStop_of_active hs] at h
    exact .inr ⟨hs, stopActive_next h⟩

theorem handlerBody_next {s t : State} (h : handlerBody s = .next t) :
    (s.state = .rampingDown ∧ t = shutDown s) ∨
      (s.state = .rampingUp ∧ ∃ p, timerDivide s.cfg s.tgtRate = .ok p ∧ t = beginLoop p s) ∨
      ((s.state = .playing ∨ s.state = .stopped) ∧ t = s) := by
  unfold handlerBody at h
  split at h
  · cases h
    exact .inl ⟨by assumption, rfl⟩
  · obtain ⟨p, hp, h⟩ := withVal_next_iff.1 h
    cases h
    exact .inr (.inl ⟨by assumption, p, hp, rfl⟩)
  · cases h
    exact .inr (.inr ⟨.inl (by assumption), rfl⟩)
  · cases h
    exact .inr (.inr ⟨.inr (by assumption), rfl⟩)

theorem execComplete_next {s t : State} (h : exec .complete s = .next t) :
    (irqLine s = true ∧ handlerBody (takeCompletion s) = .next t) ∨ (irqLine s = false ∧ t = s) := by
  simp only [exec, execComplete] at h
  split at h
  · exact .inl ⟨by assumption, h⟩
  · cases h
    exact .inr ⟨by simpa using ‹¬irqLine s = true›, rfl⟩

theorem tickRunning_next {s t : State} (h : tickRunning s = .next t) :
    1 ≤ s.remain ∧ s.remain ≤ s.actLen ∧ ∃ v, actRead s.draws s (s.actLen - s.remain) = .ok v ∧
      t = countDown ((s.emitSample v).setDraws (s.draws + 1)) := by
  unfold tickRunning at h
  split at h
  · cases h
  · obtain ⟨v, hv, h⟩ := withVal_next_iff.1 h
    cases h
    exact ⟨by omega, by omega, v, hv, rfl⟩

theorem execTick_next {s t : State} (h : exec .tick s = .next t) :
    (s.run = true ∧ tickRunning s = .next t) ∨ (s.run = false ∧ t = s) := by
  simp only [exec, execTick] at h
  split at h
  · exact .inl ⟨by assumption, h⟩
  · cases h
    exact .inr ⟨by simpa using ‹¬s.run = true›, rfl⟩

theorem genWave_next {f : Nat → Nat → Nat → Nat} {s t : State} (h : genWave f s = .next t) :
    (opLen s = 0 ∧ t = s.setResult .invalidArgument) ∨
      (opLen s ≠ 0 ∧ opAddr s + opLen s ≤ s.cfg.memCells ∧
        t = (fillCells (fun i => f i (opLen s) (opAmp s)) (opAddr s) (opLen s) 0 s).setResult .ok) := by
  unfold genWave at h
  split at h
  · cases h
    exact .inl ⟨by assumption, rfl⟩
  · split at h
    · cases h
    · cases h
      exact .inr ⟨by assumption, by omega, rfl⟩

theorem execCursamp_next {s t : State} (h : exec .cursamp s = .next t) :
    ∃ v, curSamp s.draws s = .ok v ∧ t = (s.setUopRet v.toNat).setDraws (s.draws + 1) := by
  simp only [exec, execCursamp] at h
  obtain ⟨v, hv, h⟩ := withVal_next_iff.1 h
  cases h
  exact ⟨v, hv, rfl⟩

theorem execTdiv_next {rate : Nat} {s t : State} (h : exec (.tdiv rate) s = .next t) :
    ∃ p, timerDivide s.cfg rate = .ok p ∧ t = s.setUopRet p := by
  simp only [exec, execTdiv] at h
  obtain ⟨p, hp, h⟩ := withVal_next_iff.1 h
  cases h
  exact ⟨p, hp, rfl⟩

/-! ### What an operation's next state can be -/

/-- Every way an operation can answer a next state, with what held before and what holds after. -/
inductive ExecNext (i : Instr) (s t : State) : Prop
  | unchanged (ht : t = s)
      (hi : (i = .stop ∧ s.state = .stopped) ∨ (i = .tick ∧ s.run = false) ∨ (i = .complete ∧ irqLine s = false))
  | init (hi : i = .init) (hs : s.state = .stopped) (ht : t = initBody s)
  | start (hi : i = .start) (hc : startCheck s = .ok ()) (seed goal : Sample) (p : Nat)
      (hs : curSamp s.draws s = .ok seed) (hg : memRead (s.draws + 1) s (opAddr s) = .ok goal)
      (hp : timerDivide s.cfg s.cfg.rampRate = .ok p)
      (ht : t = (startBody (opAddr s) (opLen s) (opRate s) seed goal p s).setDraws (s.draws + 2))
  | stop (hi : i = .stop) (hn : s.state ≠ .stopped) (seed : Sample) (p : Nat)
      (hs : curSamp s.draws s = .ok seed) (hp : timerDivide s.cfg s.cfg.rampRate = .ok p)
      (ht : t = (stopBody seed p s).setDraws (s.draws + 1))
  | wave (f : Nat → Nat → Nat → Nat)
      (hi : (i = .genSine ∧ f = sineSample s.cfg.sineAbove) ∨ (i = .genTri ∧ f = triSample) ∨
        (i = .genSaw ∧ f = sawSample) ∨ (i = .genSquare ∧ f = squareSample))
      (h0 : opLen s ≠ 0) (h1 : opAddr s + opLen s ≤ s.cfg.memCells)
      (ht : t = (fillCells (fun j => f j (opLen s) (opAmp s)) (opAddr s) (opLen s) 0 s).setResult .ok)
  | invalid (hi : i = .genSine ∨ i = .genTri ∨ i = .genSaw ∨ i = .genSquare ∨ (∃ w, i = .genBadWaveLo w) ∨
        ∃ w, i = .genBadWaveHi w) (ht : t = s.setResult .invalidArgument)
  | tick (hi : i = .tick) (hr : s.run = true) (h1 : 1 ≤ s.remain) (h2 : s.remain ≤ s.actLen) (v : Sample)
      (hv : actRead s.draws s (s.actLen - s.remain) = .ok v)
      (ht : t = countDown ((s.emitSample v).setDraws (s.draws + 1)))
  | shutDown (hi : i = .complete) (hl : irqLine s = true) (hs : s.state = .rampingDown)
      (ht : t = Machine.shutDown (takeCompletion s))
  | loop (hi : i = .complete) (hl : irqLine s = true) (hs : s.state = .rampingUp) (p : Nat)
      (hp : timerDivide s.cfg s.tgtRate = .ok p) (ht : t = beginLoop p (takeCompletion s))
  | acknowledge (hi : i = .complete) (hl : irqLine s = true) (hs : s.state = .playing ∨ s.state = .stopped)
      (ht : t = takeCompletion s)
  | cursamp (hi : i = .cursamp) (v : Sample) (hv : curSamp s.draws s = .ok v)
      (ht : t = (s.setUopRet v.toNat).setDraws (s.draws + 1))
  | rampfill (seed goal : Sample) (hi : i = .rampfill seed goal) (ht : t = rampFill seed goal s)
  | tdiv (rate p : Nat) (hi : i = .tdiv rate) (hp : timerDivide s.cfg rate = .ok p) (ht : t = s.setUopRet p)

theorem exec_next {i : Instr} {s t : State} (h : exec i s = .next t) : ExecNext i s t := by
  have hg : ∀ f, genWave f s = .next t →
      ((i = .genSine ∧ f = sineSample s.cfg.sineAbove) ∨ (i = .genTri ∧ f = triSample) ∨
        (i = .genSaw ∧ f = sawSample) ∨ (i = .genSquare ∧ f = squareSample)) → ExecNext i s t := by
    intro f h hf
    rcases genWave_next h with ⟨-, e⟩ | ⟨a, b, e⟩
    · exact .invalid (by tauto) e
    · exact .wave f hf a b e
  cases i with
  | init =>
    obtain ⟨a, e⟩ := execInit_next h
    exact .init rfl a e
  | start =>
    obtain ⟨hc, a, b, p, h1, h2, h3, e⟩ := execStart_next h
    exact .start rfl hc a b p h1 h2 h3 e
  | stop =>
    rcases execStop_next h with ⟨a, e⟩ | ⟨n, a, p, h1, h2, e⟩
    · exact .unchanged e (.inl ⟨rfl, a⟩)
    · exact .stop rfl n a p h1 h2 e
  | genSine => exact hg _ h (by simp)
  | genTri => exact hg _ h (by simp)
  | genSaw => exact hg _ h (by simp)
  | genSquare => exact hg _ h (by simp)
  | genBadWaveLo w =>
    cases h
    exact .invalid (by simp) rfl
  | genBadWaveHi w =>
    cases h
    exact .invalid (by simp) rfl
  | tick =>
    rcases execTick_next h with ⟨a, h⟩ | ⟨a, e⟩
    · obtain ⟨h1, h2, v, h3, e⟩ := tickRunning_next h
      exact .tick rfl a h1 h2 v h3 e
    · exact .unchanged e (.inr (.inl ⟨rfl, a⟩))
  | complete =>
    rcases execComplete_next h with ⟨a, h⟩ | ⟨a, e⟩
    · rcases handlerBody_next h with ⟨b, e⟩ | ⟨b, p, c, e⟩ | ⟨b, e⟩
      · exact .shutDown rfl a b e
      · exact .loop rfl a b p c e
      · exact .acknowledge rfl a b e
    · exact .unchanged e (.inr (.inr ⟨rfl, a⟩))
  | cursamp =>
    obtain ⟨v, hv, e⟩ := execCursamp_next h
    exact .cursamp rfl v hv e
  | rampfill a b =>
    cases h
    exact .rampfill a b rfl rfl
  | tdiv r =>
    obtain ⟨p, hp, e⟩ := execTdiv_next h
    exact .tdiv r p rfl hp e

/-! ### The agents -/

theorem runCode_ok {c : Code} {i : Instr} (h : decode c = .ok i) (s : State) : runCode c s = exec i s := by
  simp [runCode, h]

theorem runCode_error {c : Code} {e : Reject} (h : decode c = .error e) (s : State) :
    runCode c s = .refused (rejectReason e) := by
  simp [runCode, h]

theorem runCode_next {c : Code} {s t : State} (h : runCode c s = .next t) :
    ∃ i, decode c = .ok i ∧ exec i s = .next t := by
  unfold runCode at h
  split at h
  · exact ⟨_, by assumption, h⟩
  · cases h

theorem busOffset_ok_iff {c : Cfg} {size addr off : Nat} :
    busOffset c size addr = .ok off ↔ size = 4 ∧ addr = c.regBase + off ∧ off % 4 = 0 := by
  unfold busOffset
  split
  · constructor
    · intro h
      cases h
    · rintro ⟨-, rfl, -⟩
      omega
  · split
    · constructor
      · intro h
        cases h
      · rintro ⟨rfl, rfl, h⟩
        omega
    · constructor
      · intro h
        cases h
        omega
      · rintro ⟨rfl, rfl, h⟩
        simp

/-- What a register write can do: a command, one ARG register, or nothing. -/
theorem writeReg_next {s t : State} {off : Nat} {w : Word} (h : writeReg s off w = .next t) :
    (off = 0x00 ∧ runCode (.cmd w) s = .next t) ∨
      (off = 0x08 ∧ t = s.setArgAddr (lowBits s.cfg.addrBits w)) ∨
      (off = 0x0C ∧ t = s.setArgLen (lowBits s.cfg.lenBits w)) ∨
      (off = 0x10 ∧ t = s.setArgRate (lowBits s.cfg.rateBits w)) ∨
      (off = 0x14 ∧ t = s.setArgAmp (lowBits 16 w)) ∨ t = s := by
  unfold writeReg at h
  split at h
  · exact .inl ⟨by assumption, h⟩
  repeat' split at h
  all_goals
    cases h
    simp_all

/-- What an action can do. -/
theorem perform_next {a : Action} {s t : State} (h : perform a s = .next t) :
    (∃ size addr off, a = .rd size addr ∧ busOffset s.cfg size addr = .ok off ∧
        t = s.setBusData (readReg s off)) ∨
      (∃ size addr w off, a = .wr size addr w ∧ busOffset s.cfg size addr = .ok off ∧
        writeReg s off w = .next t) ∨
      (∃ c v, a = .poke c v ∧ c < s.cfg.memCells ∧ t = s.storeSample c v) ∨
      (∃ tag, a = .evt tag ∧ runCode (.evt tag) s = .next t) ∨
      (a = .handler ∧ handlerBody s = .next t) ∨
      (∃ tag x y, a = .uop tag x y ∧ runCode (.uop tag x y) s = .next t) ∨
      (a = .rst ∧ t = hardReset s) := by
  cases a with
  | rd size addr =>
    obtain ⟨off, ho, h⟩ := withVal_next_iff.1 h
    cases h
    exact .inl ⟨size, addr, off, rfl, ho, rfl⟩
  | wr size addr w =>
    obtain ⟨off, ho, h⟩ := withVal_next_iff.1 h
    exact .inr (.inl ⟨size, addr, w, off, rfl, ho, h⟩)
  | poke c v =>
    simp only [perform, hostPoke] at h
    split at h
    · cases h
    · cases h
      exact .inr (.inr (.inl ⟨c, v, rfl, by omega, rfl⟩))
  | evt tag => exact .inr (.inr (.inr (.inl ⟨tag, rfl, h⟩)))
  | handler => exact .inr (.inr (.inr (.inr (.inl ⟨rfl, h⟩))))
  | uop tag x y => exact .inr (.inr (.inr (.inr (.inr (.inl ⟨tag, x, y, rfl, h⟩)))))
  | rst =>
    cases h
    exact .inr (.inr (.inr (.inr (.inr (.inr ⟨rfl, rfl⟩)))))

/-! ### The step -/

theorem step_nil {s : State} (h : s.agenda = []) : step s = .next s := by
  simp [step, takeAction, h]

theorem step_cons {s : State} {a : Action} {rest : List Action} (h : s.agenda = a :: rest) :
    step s = perform a (s.setAgenda rest) := by
  simp [step, takeAction, h]

theorem step_next {s t : State} (h : step s = .next t) :
    (s.agenda = [] ∧ t = s) ∨
      ∃ a rest, s.agenda = a :: rest ∧ perform a (s.setAgenda rest) = .next t := by
  cases ha : s.agenda with
  | nil =>
    rw [step_nil ha] at h
    cases h
    exact .inl ⟨rfl, rfl⟩
  | cons a rest =>
    rw [step_cons ha] at h
    exact .inr ⟨a, rest, rfl, h⟩

/-! ### Steps in a row -/

/-- A step whose action is TICK. -/
theorem step_tick {s : State} {rest : List Action} (h : s.agenda = .evt 1 :: rest) :
    step s = exec .tick (s.setAgenda rest) := by
  rw [step_cons h]
  exact runCode_ok (show decode (.evt 1) = .ok .tick by decide) _

/-- A step whose action is COMPLETE. -/
theorem step_complete {s : State} {rest : List Action} (h : s.agenda = .evt 2 :: rest) :
    step s = exec .complete (s.setAgenda rest) := by
  rw [step_cons h]
  exact runCode_ok (show decode (.evt 2) = .ok .complete by decide) _

/-- One more step, at the end. -/
theorem stepsFrom_succ_end {n : Nat} {s u : State} (h : stepsFrom n s = .next u) : stepsFrom (n + 1) s = step u := by
  induction n generalizing s with
  | zero =>
    cases h
    rw [stepsFrom]
    rcases hs : step u with t | e | e <;> rfl
  | succ n ih =>
    rw [stepsFrom] at h ⊢
    cases hs : step s with
    | next t =>
      rw [hs] at h
      exact ih h
    | fault e => cases e
    | refused e =>
      rw [hs] at h
      cases h

end Sys2Proof.Machine
end

