-- ==== Sys2Proof/Laws/PerInstr.lean ====
section
/-! SUPPORT. Laws stated for every operation as syntax, one lemma per constructor. -/

namespace Sys2Proof.Laws.TableRow

/-- A well-formed operation's code lies in the row of the opcode table that bears its mnemonic (30_encoding.md R84). -/
def Statement (i : Instr) : Prop :=
  i.wellFormed = true → ∃ r ∈ opcodeTable, r.mnemonic = i.mnemonic ∧ r.accepts (encode i) = true

theorem init : Statement .init := by unfold Statement; decide
theorem start : Statement .start := by unfold Statement; decide
theorem stop : Statement .stop := by unfold Statement; decide
theorem genSine : Statement .genSine := by unfold Statement; decide
theorem genTri : Statement .genTri := by unfold Statement; decide
theorem genSaw : Statement .genSaw := by unfold Statement; decide
theorem genSquare : Statement .genSquare := by unfold Statement; decide
theorem genBadWaveLo (wave : BitVec 4) : Statement (.genBadWaveLo wave) := by revert wave; unfold Statement; decide
theorem genBadWaveHi (wave : BitVec 4) : Statement (.genBadWaveHi wave) := by revert wave; unfold Statement; decide
theorem tick : Statement .tick := by unfold Statement; decide
theorem complete : Statement .complete := by unfold Statement; decide
theorem cursamp : Statement .cursamp := by unfold Statement; decide
theorem rampfill (seed goal : Sample) : Statement (.rampfill seed goal) :=
  fun _ => ⟨⟨"RAMPFILL", .uop, 1, 3⟩, by decide, rfl, by simp [Row.accepts, encode, Code.format, Code.bits]⟩
theorem tdiv (rate : Nat) : Statement (.tdiv rate) :=
  fun _ => ⟨⟨"TDIV", .uop, 2, 3⟩, by decide, rfl, by simp [Row.accepts, encode, Code.format, Code.bits]⟩

end Sys2Proof.Laws.TableRow
end

