-- ==== Sys2Proof/Laws/Sine.lean ====
section
/-! SUPPORT. Why the integers of Machine/Sine.lean bracket the sine's exact value: the digits of pi, by Machin's formula,
the alternating partial sums of the series of `1 - cos`, and the exact comparison by whole half turns; so that sineFloor is
the floor of the exact value. -/

namespace Sys2Proof.Machine

/-! ### Pi -/

/-- The partial sums of the series of arctan. -/
noncomputable def arctanSum (n : ℕ) (x : ℝ) : ℝ := ∑ k ∈ Finset.range n, (-1) ^ k * x ^ (2 * k + 1) / (2 * k + 1)

theorem arctanSum_deriv (n : ℕ) (x : ℝ) :
    HasDerivAt (fun y => Real.arctan y - arctanSum n y) ((-x ^ 2) ^ n / (1 + x ^ 2)) x := by
  have hs : HasDerivAt (arctanSum n) (∑ k ∈ Finset.range n, (-x ^ 2) ^ k) x := by
    unfold arctanSum
    refine HasDerivAt.fun_sum fun k _ => ?_
    have := ((hasDerivAt_pow (2 * k + 1) x).const_mul ((-1 : ℝ) ^ k)).div_const (2 * (k : ℝ) + 1)
    refine this.congr_deriv ?_
    have hk : (2 * (k : ℝ) + 1) ≠ 0 := by positivity
    push_cast
    rw [neg_pow (x ^ 2), ← pow_mul]
    field_simp
  have h1 : (1 + x ^ 2) ≠ 0 := by positivity
  have hg := mul_neg_geom_sum (-x ^ 2) n
  refine ((Real.hasDerivAt_arctan x).sub hs).congr_deriv ?_
  field_simp
  linear_combination -hg

theorem arctanSum_even_le {n : ℕ} (hn : Even n) {x : ℝ} (hx : 0 ≤ x) : arctanSum n x ≤ Real.arctan x := by
  have hd := arctanSum_deriv n
  have hm : MonotoneOn (fun y => Real.arctan y - arctanSum n y) (Set.Ici 0) :=
    monotoneOn_of_deriv_nonneg (convex_Ici 0) (fun y _ => (hd y).continuousAt.continuousWithinAt)
      (fun y _ => (hd y).differentiableAt.differentiableWithinAt) fun y _ => by
        rw [(hd y).deriv]
        exact div_nonneg (hn.pow_nonneg _) (by positivity)
  have := hm (Set.mem_Ici.2 le_rfl) (Set.mem_Ici.2 hx) hx
  simp [arctanSum] at this
  exact this

theorem le_arctanSum_odd {n : ℕ} (hn : Odd n) {x : ℝ} (hx : 0 ≤ x) : Real.arctan x ≤ arctanSum n x := by
  have hd := arctanSum_deriv n
  have hm : AntitoneOn (fun y => Real.arctan y - arctanSum n y) (Set.Ici 0) :=
    antitoneOn_of_deriv_nonpos (convex_Ici 0) (fun y _ => (hd y).continuousAt.continuousWithinAt)
      (fun y _ => (hd y).differentiableAt.differentiableWithinAt) fun y _ => by
        rw [(hd y).deriv]
        exact div_nonpos_of_nonpos_of_nonneg (hn.pow_nonpos (by nlinarith [sq_nonneg y])) (by positivity)
  have := hm (Set.mem_Ici.2 le_rfl) (Set.mem_Ici.2 hx) hx
  simp [arctanSum] at this
  exact this

theorem piScaled_lt_pi : (piScaled : ℝ) / piScale < Real.pi := by
  have h5 := arctanSum_even_le (n := 30) (by decide) (x := 5⁻¹) (by norm_num)
  have h239 := le_arctanSum_odd (n := 9) (by decide) (x := 239⁻¹) (by norm_num)
  have hm := Real.four_mul_arctan_inv_5_sub_arctan_inv_239
  have key : (piScaled : ℝ) / piScale < 4 * (4 * arctanSum 30 5⁻¹ - arctanSum 9 239⁻¹) := by
    norm_num [piScaled, piScale, arctanSum, Finset.sum_range_succ]
  linarith

theorem pi_lt_succ_piScaled : Real.pi < ((piScaled + 1 : ℕ) : ℝ) / piScale := by
  have h5 := le_arctanSum_odd (n := 31) (by decide) (x := 5⁻¹) (by norm_num)
  have h239 := arctanSum_even_le (n := 10) (by decide) (x := 239⁻¹) (by norm_num)
  have hm := Real.four_mul_arctan_inv_5_sub_arctan_inv_239
  have key : 4 * (4 * arctanSum 31 5⁻¹ - arctanSum 10 239⁻¹) < ((piScaled + 1 : ℕ) : ℝ) / piScale := by
    norm_num [piScaled, piScale, arctanSum, Finset.sum_range_succ]
  linarith

/-! ### The cosine -/

/-- The partial sums of the series of `1 - cos`. -/
noncomputable def versinSum (n : ℕ) (x : ℝ) : ℝ :=
  ∑ j ∈ Finset.range n, (-1) ^ j * x ^ (2 * j + 2) / ((2 * j + 2).factorial : ℝ)

/-- The partial sums of the series of sin. -/
noncomputable def sinSum (n : ℕ) (x : ℝ) : ℝ :=
  ∑ j ∈ Finset.range n, (-1) ^ j * x ^ (2 * j + 1) / ((2 * j + 1).factorial : ℝ)

theorem versinSum_deriv (n : ℕ) (x : ℝ) : HasDerivAt (versinSum n) (sinSum n x) x := by
  unfold versinSum sinSum
  refine HasDerivAt.fun_sum fun k _ => ?_
  have := ((hasDerivAt_pow (2 * k + 2) x).const_mul ((-1 : ℝ) ^ k)).div_const ((2 * k + 2).factorial : ℝ)
  refine this.congr_deriv ?_
  rw [Nat.factorial_succ (2 * k + 1)]
  have h1 : ((2 * k + 1).factorial : ℝ) ≠ 0 := by positivity
  push_cast
  field_simp
  ring

theorem sinSum_deriv (n : ℕ) (x : ℝ) : HasDerivAt (sinSum (n + 1)) (1 - versinSum n x) x := by
  have hs : HasDerivAt (sinSum (n + 1)) (∑ j ∈ Finset.range (n + 1), (-1) ^ j * x ^ (2 * j) / ((2 * j).factorial : ℝ)) x := by
    unfold sinSum
    refine HasDerivAt.fun_sum fun k _ => ?_
    have := ((hasDerivAt_pow (2 * k + 1) x).const_mul ((-1 : ℝ) ^ k)).div_const ((2 * k + 1).factorial : ℝ)
    refine this.congr_deriv ?_
    rw [Nat.factorial_succ (2 * k)]
    have h1 : ((2 * k).factorial : ℝ) ≠ 0 := by positivity
    push_cast
    field_simp
  convert hs using 1
  rw [Finset.sum_range_succ', versinSum, sub_eq_iff_eq_add]
  simp only [Nat.mul_zero, pow_zero, Nat.factorial_zero, Nat.cast_one, mul_one, div_one]
  rw [add_right_comm, ← Finset.sum_add_distrib]
  symm
  convert zero_add (1 : ℝ)
  refine Finset.sum_eq_zero fun k _ => ?_
  rw [pow_succ, show 2 * (k + 1) = 2 * k + 2 by ring]
  ring

theorem pos_of_deriv_pos {f f' : ℝ → ℝ} (hd : ∀ x, HasDerivAt f (f' x) x) (h0 : f 0 = 0)
    (hp : ∀ x, 0 < x → 0 < f' x) : ∀ x, 0 < x → 0 < f x := by
  intro x hx
  have hm : StrictMonoOn f (Set.Ici 0) :=
    strictMonoOn_of_deriv_pos (convex_Ici 0) (fun y _ => (hd y).continuousAt.continuousWithinAt) fun y hy => by
      rw [(hd y).deriv]
      exact hp y (by simpa using hy)
  have := hm (Set.mem_Ici.2 le_rfl) (Set.mem_Ici.2 hx.le) hx
  rwa [h0] at this

/-- The sine's partial sums lie alternately above and below it, and so do those of `1 - cos`. -/
theorem series_alternate (n : ℕ) :
    (∀ x, 0 < x → 0 < (-1) ^ n * (sinSum (n + 1) x - Real.sin x)) ∧
      ∀ x, 0 < x → 0 < (-1) ^ n * (versinSum (n + 1) x - (1 - Real.cos x)) := by
  have hv : ∀ n, (∀ x, 0 < x → 0 < (-1 : ℝ) ^ n * (sinSum (n + 1) x - Real.sin x)) →
      ∀ x, 0 < x → 0 < (-1) ^ n * (versinSum (n + 1) x - (1 - Real.cos x)) := by
    intro n h
    refine pos_of_deriv_pos (f' := fun x => (-1) ^ n * (sinSum (n + 1) x - Real.sin x)) (fun x => ?_) ?_ h
    · have := ((versinSum_deriv (n + 1) x).sub ((hasDerivAt_const x (1 : ℝ)).sub (Real.hasDerivAt_cos x))).const_mul ((-1 : ℝ) ^ n)
      refine this.congr_deriv ?_
      simp
    · simp [versinSum]
  induction n with
  | zero =>
    refine ⟨fun x hx => ?_, hv 0 fun x hx => ?_⟩ <;>
    · have := Real.sin_lt hx
      simp [sinSum]
      exact this
  | succ n ih =>
    have hs : ∀ x, 0 < x → 0 < (-1 : ℝ) ^ (n + 1) * (sinSum (n + 1 + 1) x - Real.sin x) := by
      refine pos_of_deriv_pos (f' := fun x => (-1) ^ n * (versinSum (n + 1) x - (1 - Real.cos x))) (fun x => ?_) ?_ ih.2
      · have := ((sinSum_deriv (n + 1) x).sub (Real.hasDerivAt_sin x)).const_mul ((-1 : ℝ) ^ (n + 1))
        refine this.congr_deriv ?_
        ring
      · simp [sinSum]
    exact ⟨hs, hv _ hs⟩

theorem versinSum_even_lt {n : ℕ} (hn : Even n) (h0 : n ≠ 0) {x : ℝ} (hx : 0 < x) : versinSum n x < 1 - Real.cos x := by
  obtain ⟨m, rfl⟩ := Nat.exists_eq_succ_of_ne_zero h0
  have hm : Odd m := by
    rcases Nat.even_or_odd m with h | h
    · exact absurd (Even.add_one h) (by simpa using hn)
    · exact h
  have := (series_alternate m).2 x hx
  rw [hm.neg_one_pow] at this
  linarith

theorem lt_versinSum_odd {n : ℕ} (hn : Odd n) {x : ℝ} (hx : 0 < x) : 1 - Real.cos x < versinSum n x := by
  obtain ⟨m, rfl⟩ := Nat.exists_eq_succ_of_ne_zero hn.pos.ne'
  have hm : Even m := by
    rcases Nat.even_or_odd m with h | h
    · exact h
    · exact absurd (Odd.add_one h) (by simpa using hn)
  have := (series_alternate m).2 x hx
  rw [hm.neg_one_pow] at this
  linarith

/-! ### The model's integers -/

theorem versinDen_eq (d k : ℕ) : versinDen d k = d ^ (2 * k) * (2 * k).factorial := by
  induction k with
  | zero => simp [versinDen]
  | succ k ih =>
    rw [versinDen, ih, versinScale, show 2 * (k + 1) = 2 * k + 1 + 1 by ring, Nat.factorial_succ, Nat.factorial_succ]
    ring

theorem versinNum_eq (n : ℕ) {d : ℕ} (hd : d ≠ 0) (k : ℕ) :
    (versinNum n d k : ℝ) = versinSum k ((n : ℝ) / d) * versinDen d k := by
  have hd' : (d : ℝ) ≠ 0 := by exact_mod_cast hd
  induction k with
  | zero => simp [versinNum, versinSum]
  | succ k ih =>
    have hf : ((2 * k).factorial : ℝ) ≠ 0 := by positivity
    rw [versinSum, Finset.sum_range_succ, ← versinSum, add_mul, versinNum, versinDen]
    push_cast
    rw [ih]
    have ht : ((-1 : ℝ) ^ k * ((n : ℝ) / d) ^ (2 * k + 2) / ((2 * k + 2).factorial : ℝ)) *
        ((versinDen d k : ℝ) * (versinScale d k : ℝ)) = (-1) ^ k * (n : ℝ) ^ (2 * k + 2) := by
      rw [versinDen_eq, versinScale, show 2 * k + 2 = 2 * k + 1 + 1 by ring, Nat.factorial_succ, Nat.factorial_succ]
      push_cast
      rw [div_pow]
      field_simp
      ring
    rw [ht]
    split
    · rename_i he
      rw [(Nat.even_iff.2 he).neg_one_pow]
      ring
    · rename_i he
      rw [(Nat.odd_iff.2 (by omega)).neg_one_pow]
      ring

/-- The model's floor of a partial sum: the rational it rounds down. -/
theorem halfVersinFloor_eq (A n : ℕ) {d : ℕ} (hd : d ≠ 0) (k : ℕ) :
    halfVersinFloor A n d k = ⌊(A : ℝ) * versinSum k ((n : ℝ) / d) / 2⌋₊ := by
  have hden : (versinDen d k : ℝ) ≠ 0 := by
    rw [versinDen_eq]
    push_cast
    positivity
  have hx : (A : ℝ) * versinSum k ((n : ℝ) / d) / 2 =
      (((A : ℤ) * versinNum n d k : ℤ) : ℝ) / ((2 * versinDen d k : ℕ) : ℝ) := by
    push_cast
    rw [versinNum_eq n hd]
    field_simp
  rw [halfVersinFloor, hx, ← Int.floor_toNat]
  congr 1
  have hpos : (0 : ℝ) < ((2 * versinDen d k : ℕ) : ℝ) := by
    rw [versinDen_eq]
    positivity
  symm
  rw [Int.floor_eq_iff, le_div_iff₀ hpos, div_lt_iff₀ hpos]
  have hq : (0 : ℤ) < ((2 * versinDen d k : ℕ) : ℤ) := by exact_mod_cast hpos
  constructor
  · exact_mod_cast Int.ediv_mul_le _ hq.ne'
  · exact_mod_cast Int.lt_ediv_add_one_mul_self _ hq

/-! ### The exact comparison -/

/-- Adding psi keeps what the fields say: with `q cos psi = p` and `q sin psi = w`, the rest r and its sine and cosine. -/
theorem HalfTurns.add_spec {p d : ℤ} {q w ψ θ r : ℝ} {h : HalfTurns} {k : ℕ} (hψ : 0 < ψ) (hπ : ψ < Real.pi) (hq : 0 < q)
    (hw : 0 < w) (hd : w ^ 2 = d) (hcos : q * Real.cos ψ = p) (hsin : q * Real.sin ψ = w) (h0 : 0 ≤ r) (h1 : r ≤ Real.pi)
    (hθ : θ = h.turns * Real.pi + r) (hc : (h.c : ℝ) = q ^ k * Real.cos r) (hs : h.s * w = q ^ k * Real.sin r) :
    ∃ r', 0 < r' ∧ r' ≤ Real.pi ∧ θ + ψ = (h.add p d).turns * Real.pi + r' ∧
      ((h.add p d).c : ℝ) = q ^ (k + 1) * Real.cos r' ∧ (h.add p d).s * w = q ^ (k + 1) * Real.sin r' := by
  have hC : ((p * h.c - d * h.s : ℤ) : ℝ) = q ^ (k + 1) * Real.cos (r + ψ) := by
    push_cast
    rw [Real.cos_add, ← hd]
    linear_combination p * hc - w * hs - q ^ k * Real.cos r * hcos + q ^ k * Real.sin r * hsin
  have hS : ((h.c + p * h.s : ℤ) : ℝ) * w = q ^ (k + 1) * Real.sin (r + ψ) := by
    push_cast
    rw [Real.sin_add]
    linear_combination w * hc + p * hs - q ^ k * Real.cos r * hsin - q ^ k * Real.sin r * hcos
  have hq' : 0 < q ^ (k + 1) := by positivity
  rw [HalfTurns.add]
  split
  · rename_i hneg
    have hlt : Real.sin (r + ψ) < 0 := by
      have : ((h.c + p * h.s : ℤ) : ℝ) < 0 := by exact_mod_cast hneg
      by_contra hcon
      have := mul_nonneg hq'.le (not_lt.1 hcon)
      nlinarith
    have hpi : Real.pi < r + ψ := by
      by_contra hcon
      exact absurd (Real.sin_nonneg_of_nonneg_of_le_pi (by linarith) (not_lt.1 hcon)) (not_le.2 hlt)
    refine ⟨r + ψ - Real.pi, by linarith, by linarith, ?_, ?_, ?_⟩
    · push_cast; linarith
    · rw [Real.cos_sub_pi, Int.cast_neg, hC]; ring
    · rw [Real.sin_sub_pi, Int.cast_neg, neg_mul, hS]; ring
  · rename_i hneg
    have hge : 0 ≤ Real.sin (r + ψ) := by
      have : (0 : ℝ) ≤ ((h.c + p * h.s : ℤ) : ℝ) := by exact_mod_cast not_lt.1 hneg
      by_contra hcon
      have := mul_neg_of_pos_of_neg hq' (not_le.1 hcon)
      nlinarith
    have hpi : r + ψ ≤ Real.pi := by
      by_contra hcon
      have := Real.sin_pos_of_pos_of_lt_pi (x := r + ψ - Real.pi) (by linarith) (by linarith)
      rw [Real.sin_sub_pi] at this
      linarith
    exact ⟨r + ψ, by linarith, hpi, by linarith, hC, hS⟩

/-- What `halfTurns` computes. -/
theorem halfTurns_spec {p d : ℤ} {q w ψ : ℝ} (hψ : 0 < ψ) (hπ : ψ < Real.pi) (hq : 0 < q) (hw : 0 < w)
    (hd : w ^ 2 = d) (hcos : q * Real.cos ψ = p) (hsin : q * Real.sin ψ = w) (k : ℕ) :
    ∃ r, 0 ≤ r ∧ r ≤ Real.pi ∧ (k ≠ 0 → 0 < r) ∧ k * ψ = (halfTurns p d k).turns * Real.pi + r ∧
      ((halfTurns p d k).c : ℝ) = q ^ k * Real.cos r ∧ (halfTurns p d k).s * w = q ^ k * Real.sin r := by
  induction k with
  | zero => exact ⟨0, le_rfl, Real.pi_pos.le, by simp, by simp [halfTurns], by simp [halfTurns], by simp [halfTurns]⟩
  | succ k ih =>
    obtain ⟨r, h0, h1, -, hθ, hc, hs⟩ := ih
    obtain ⟨r', g0, g1, gθ, gc, gs⟩ := HalfTurns.add_spec hψ hπ hq hw hd hcos hsin h0 h1 hθ hc hs
    exact ⟨r', g0.le, g1, fun _ => g0, by rw [halfTurns]; push_cast; linarith, gc, gs⟩

/-- The comparison is exact: it is true when the integer n is at most the exact value at the angle `2*pi*f/l`. -/
theorem sineReaches_iff {f l A n : ℕ} (hl : 0 < l) (hf : 2 * f ≤ l) (h0 : 0 < n) (hn : n < A) :
    sineReaches f l A n = true ↔ (n : ℝ) ≤ A * (1 - Real.cos (2 * Real.pi * f / l)) / 2 := by
  have hA : (0 : ℝ) < A := by exact_mod_cast h0.trans hn
  have hn0 : (0 : ℝ) < n := by exact_mod_cast h0
  have hnA : (n : ℝ) < A := by exact_mod_cast hn
  have hlp : (0 : ℝ) < l := by exact_mod_cast hl
  have hfl : 2 * (f : ℝ) ≤ l := by exact_mod_cast hf
  obtain ⟨c, hc⟩ : ∃ c : ℝ, c = 1 - 2 * n / A := ⟨_, rfl⟩
  have hAc : A * c = A - 2 * n := by rw [hc]; field_simp
  have c1 : c < 1 := by rw [hc]; have : 0 < 2 * (n : ℝ) / A := by positivity
                        linarith
  have c2 : -1 < c := by nlinarith
  obtain ⟨ψ, hψd⟩ : ∃ ψ, ψ = Real.arccos c := ⟨_, rfl⟩
  have hcosψ : Real.cos ψ = c := by rw [hψd, Real.cos_arccos c2.le c1.le]
  have hψ : 0 < ψ := by rw [hψd]; exact Real.arccos_pos.2 c1
  have hπ : ψ < Real.pi := by
    rcases lt_or_eq_of_le (hψd ▸ Real.arccos_le_pi c : ψ ≤ Real.pi) with h | h
    · exact h
    · rw [h, Real.cos_pi] at hcosψ; linarith
  have hsin : 0 < Real.sin ψ := Real.sin_pos_of_pos_of_lt_pi hψ hπ
  obtain ⟨r, -, hr1, hr0, hθ, -⟩ := halfTurns_spec (p := (A : ℤ) - 2 * n) (d := 4 * n * ((A : ℤ) - n)) hψ hπ hA
    (mul_pos hA hsin) (by
      have := Real.sin_sq_add_cos_sq ψ
      push_cast
      rw [hcosψ] at this
      have h2 : ((A : ℝ) * Real.sin ψ) ^ 2 = A ^ 2 - (A * c) ^ 2 := by linear_combination (A : ℝ) ^ 2 * this
      rw [h2, hAc]; ring) (by rw [hcosψ, hAc]; push_cast; ring) rfl l
  replace hr0 := hr0 hl.ne'
  have hπ0 := Real.pi_pos
  have hφ0 : 0 ≤ 2 * Real.pi * f / l := by positivity
  have hφπ : 2 * Real.pi * f / l ≤ Real.pi := by rw [div_le_iff₀ hlp]; nlinarith
  have hle : (n : ℝ) ≤ A * (1 - Real.cos (2 * Real.pi * f / l)) / 2 ↔ ψ ≤ 2 * Real.pi * f / l := by
    rw [← Real.strictAntiOn_cos.le_iff_ge ⟨hφ0, hφπ⟩ ⟨hψ.le, hπ.le⟩, hcosψ]
    constructor
    · intro h
      exact le_of_mul_le_mul_left (by linarith) hA
    · intro h
      have := mul_le_mul_of_nonneg_left h hA.le
      linarith
  rw [hle, le_div_iff₀ hlp, mul_comm ψ, hθ, sineReaches, decide_eq_true_iff]
  generalize (halfTurns _ _ l).turns = m
  constructor
  · intro h
    have : ((m + 1 : ℕ) : ℝ) ≤ ((2 * f : ℕ) : ℝ) := by exact_mod_cast h
    push_cast at this
    nlinarith
  · intro h
    by_contra hcon
    have : ((2 * f : ℕ) : ℝ) ≤ m := by exact_mod_cast not_lt.1 hcon
    push_cast at this
    nlinarith

/-- The search answers a floor that lies in its range. -/
theorem sineSearch_eq_floor {f l A lo k : ℕ} {x : ℝ} (h0 : lo ≤ ⌊x⌋₊) (h1 : ⌊x⌋₊ ≤ lo + k)
    (ht : ∀ n, lo < n → n ≤ lo + k → (sineReaches f l A n = true ↔ (n : ℝ) ≤ x)) : sineSearch f l A lo k = ⌊x⌋₊ := by
  induction k with
  | zero => exact le_antisymm h0 h1
  | succ k ih =>
    have hn := ht (lo + k + 1) (by omega) (by omega)
    rw [← Nat.le_floor_iff' (by omega)] at hn
    rw [sineSearch]
    split
    · rename_i h
      exact le_antisymm (hn.1 h) h1
    · rename_i h
      exact ih (by rw [hn] at h; omega) fun n hlo hk => ht n hlo (by omega)
/-! ### The floor of the exact value -/

theorem cos_sineFold {i l : ℕ} (hi : i < l) :
    Real.cos (2 * Real.pi * (sineFold i l : ℕ) / l) = Real.cos (2 * Real.pi * i / l) := by
  have hl : (l : ℝ) ≠ 0 := by exact_mod_cast (show l ≠ 0 by omega)
  rcases le_total i (l - i) with h | h
  · rw [sineFold, min_eq_left h]
  · rw [sineFold, min_eq_right h, Nat.cast_sub hi.le, ← Real.cos_two_pi_sub]
    congr 1
    field_simp
    ring

/-- The angle is bracketed by the digits of pi. The bracket stays below pi, as the angle is at least `pi / l` away from it. -/
theorem sineAngle_bracket {f l : ℕ} (hf : 0 < f) (h2 : 2 * f < l) (hl : l < 2 ^ 32) :
    0 < ((2 * piScaled * f : ℕ) : ℝ) / ((piScale * l : ℕ) : ℝ) ∧
    ((2 * piScaled * f : ℕ) : ℝ) / ((piScale * l : ℕ) : ℝ) < 2 * Real.pi * f / l ∧
    2 * Real.pi * f / l < ((2 * (piScaled + 1) * f : ℕ) : ℝ) / ((piScale * l : ℕ) : ℝ) ∧
    ((2 * (piScaled + 1) * f : ℕ) : ℝ) / ((piScale * l : ℕ) : ℝ) ≤ Real.pi := by
  have hlp : (0 : ℝ) < l := by exact_mod_cast (show 0 < l by omega)
  have hfp : (0 : ℝ) < f := by exact_mod_cast hf
  have hpp : (0 : ℝ) < piScale := by norm_num [piScale]
  have hps : (0 : ℝ) < piScaled := by norm_num [piScaled]
  have hlo : ((2 * piScaled * f : ℕ) : ℝ) / ((piScale * l : ℕ) : ℝ) = piScaled / piScale * (2 * f / l) := by
    push_cast
    field_simp
  have hhi : ((2 * (piScaled + 1) * f : ℕ) : ℝ) / ((piScale * l : ℕ) : ℝ) =
      ((piScaled + 1 : ℕ) : ℝ) / piScale * (2 * f / l) := by
    push_cast
    field_simp
  have hmid : 2 * Real.pi * f / l = Real.pi * (2 * f / l) := by field_simp
  have hq : (0 : ℝ) < 2 * f / l := by positivity
  rw [hlo, hhi, hmid]
  refine ⟨by positivity, mul_lt_mul_of_pos_right piScaled_lt_pi hq, mul_lt_mul_of_pos_right pi_lt_succ_piScaled hq, ?_⟩
  have hq1 : (2 * f / l : ℝ) ≤ 1 - 1 / l := by
    have : ((2 * f + 1 : ℕ) : ℝ) ≤ l := by exact_mod_cast h2
    push_cast at this
    rw [div_le_iff₀ hlp]
    field_simp
    linarith
  have hin : (1 : ℝ) / 2 ^ 32 ≤ 1 / l := one_div_le_one_div_of_le hlp (by exact_mod_cast hl.le)
  have hs : (1 : ℝ) / piScale ≤ 1 / 2 ^ 32 := by norm_num [piScale]
  have hsucc : ((piScaled + 1 : ℕ) : ℝ) / piScale ≤ Real.pi + 1 / l := by
    have := piScaled_lt_pi
    rw [Nat.cast_add, add_div, Nat.cast_one]
    linarith
  calc _ ≤ (Real.pi + 1 / l) * (1 - 1 / l) := mul_le_mul hsucc hq1 hq.le (by positivity)
    _ ≤ Real.pi := by
      have : (0 : ℝ) < 1 / l := by positivity
      nlinarith [Real.pi_gt_three]

/-- The model's two integers lie on the two sides of the exact value's floor. -/
theorem sineBounds {i l : ℕ} (A : ℕ) (hi : 0 < i) (hil : i < l) (h2 : 2 * i ≠ l) (hl : l < 2 ^ 32) :
    sineLow i l A ≤ ⌊(A : ℝ) * (1 - Real.cos (2 * Real.pi * i / l)) / 2⌋₊ ∧
      ⌊(A : ℝ) * (1 - Real.cos (2 * Real.pi * i / l)) / 2⌋₊ ≤ sineHigh i l A := by
  have hA : (0 : ℝ) ≤ A := Nat.cast_nonneg A
  obtain ⟨hlo, hloφ, hφhi, hhi⟩ := sineAngle_bracket (f := sineFold i l) (l := l) (by rw [sineFold]; omega)
    (by rw [sineFold]; omega) hl
  have hd : piScale * l ≠ 0 := Nat.mul_ne_zero (by norm_num [piScale]) (by omega)
  rw [← cos_sineFold hil, sineLow, sineHigh, sineTruncated, sineTruncated, halfVersinFloor_eq A _ hd,
    halfVersinFloor_eq A _ hd]
  have hcl := Real.cos_lt_cos_of_nonneg_of_le_pi hlo.le (hφhi.le.trans hhi) hloφ
  have hch := Real.cos_lt_cos_of_nonneg_of_le_pi (hlo.trans hloφ).le hhi hφhi
  have hsl := versinSum_even_lt (n := 26) (by decide) (by decide) hlo
  have hsh := lt_versinSum_odd (n := 25) (by decide) (hlo.trans (hloφ.trans hφhi))
  constructor <;> refine Nat.floor_le_floor (div_le_div_of_nonneg_right (mul_le_mul_of_nonneg_left ?_ hA) two_pos.le) <;>
    linarith

/-- The exact value lies in `0..A`, and reaches A only at phase 1/2. -/
theorem floor_sine_lt {i l A : ℕ} (hil : i < l) (h2 : 2 * i ≠ l) (hA : 0 < A) :
    ⌊(A : ℝ) * (1 - Real.cos (2 * Real.pi * i / l)) / 2⌋₊ < A := by
  have hl : (0 : ℝ) < l := by exact_mod_cast (show 0 < l by omega)
  have hA' : (0 : ℝ) < A := by exact_mod_cast hA
  have hf : 2 * (sineFold i l : ℝ) < l := by exact_mod_cast (show 2 * sineFold i l < l by rw [sineFold]; omega)
  rw [← cos_sineFold hil, Nat.floor_lt' hA.ne']
  have hπ := Real.pi_pos
  have : Real.cos Real.pi < Real.cos (2 * Real.pi * (sineFold i l : ℕ) / l) := by
    refine Real.cos_lt_cos_of_nonneg_of_le_pi (by positivity) le_rfl ?_
    rw [div_lt_iff₀ hl]
    nlinarith
  rw [Real.cos_pi] at this
  nlinarith

/-- Everything sineFloor does: it is the floor of the exact value, off the phases 0 and 1/2. -/
theorem sineFloor_eq_floor {i l : ℕ} (A : ℕ) (hi : 0 < i) (hil : i < l) (h2 : 2 * i ≠ l) (hl : l < 2 ^ 32) :
    sineFloor i l A = ⌊(A : ℝ) * (1 - Real.cos (2 * Real.pi * i / l)) / 2⌋₊ := by
  obtain ⟨hlo, hhi⟩ := sineBounds A hi hil h2 hl
  rcases Nat.eq_zero_or_pos A with rfl | hA
  · simp [sineFloor, sineSearch] at hlo ⊢
    exact hlo
  have hlt := floor_sine_lt hil h2 hA
  refine sineSearch_eq_floor hlo (by omega) fun n hn hk => ?_
  rw [← cos_sineFold hil]
  exact sineReaches_iff (by omega) (by rw [sineFold]; omega) (by omega) (by omega)

/-! ### Where the cosine is rational -/

/-- By Niven's theorem the cosine is irrational off the phases that are multiples of 1/4 or of 1/6. -/
theorem irrational_cos_of_phase {i l : ℕ} (hil : i < l) (hp : ¬((4 * i) % l = 0 ∨ (6 * i) % l = 0)) :
    Irrational (Real.cos (2 * Real.pi * i / l)) := by
  have hl : (l : ℝ) ≠ 0 := by exact_mod_cast (show l ≠ 0 by omega)
  have hlp : (0 : ℝ) < l := by exact_mod_cast (show 0 < l by omega)
  have hf : 2 * (sineFold i l : ℝ) ≤ l := by exact_mod_cast (show 2 * sineFold i l ≤ l by rw [sineFold]; omega)
  have hπ := Real.pi_pos
  rw [← cos_sineFold hil]
  intro hq
  have hr : ∃ r : ℚ, 2 * Real.pi * (sineFold i l : ℕ) / l = r * Real.pi :=
    ⟨2 * (sineFold i l : ℕ) / l, by push_cast; field_simp⟩
  have hmul : ∀ a b : ℕ, (a : ℝ) * (sineFold i l : ℕ) = b * l → (a * i) % l = 0 := by
    intro a b hab
    have hab' : a * sineFold i l = b * l := by exact_mod_cast hab
    rcases le_total i (l - i) with h | h
    · rw [sineFold, min_eq_left h] at hab'
      rw [hab', Nat.mul_mod_left]
    · rw [sineFold, min_eq_right h, Nat.mul_sub] at hab'
      have hle : a * i ≤ a * l := Nat.mul_le_mul_left a hil.le
      have hai : a * i = (a - b) * l := by rw [Nat.sub_mul]; omega
      rw [hai, Nat.mul_mod_left]
  obtain ⟨q, hq⟩ := hq
  have hbnd : 2 * Real.pi * (sineFold i l : ℕ) / l ∈ Set.Icc 0 Real.pi :=
    ⟨by positivity, by rw [div_le_iff₀ hlp]; nlinarith⟩
  have hang := niven_angle_eq hr ⟨q, hq.symm⟩ hbnd
  have hsol : ∀ c : ℝ, 2 * Real.pi * (sineFold i l : ℕ) / l = c * Real.pi → 2 * (sineFold i l : ℝ) = c * l := by
    intro c hc
    rw [div_eq_iff hl] at hc
    exact mul_left_cancel₀ hπ.ne' (by linarith)
  simp only [Set.mem_insert_iff, Set.mem_singleton_iff] at hang
  refine hp ?_
  rcases hang with h | h | h | h | h
  · have := hsol 0 (by rw [h]; ring)
    exact .inl (hmul 4 0 (by push_cast; linarith))
  · have := hsol (1 / 3) (by rw [h]; ring)
    exact .inr (hmul 6 1 (by push_cast; linarith))
  · have := hsol (1 / 2) (by rw [h]; ring)
    exact .inl (hmul 4 1 (by push_cast; linarith))
  · have := hsol (2 / 3) (by rw [h]; ring)
    exact .inr (hmul 6 2 (by push_cast; linarith))
  · have := hsol 1 (by rw [h]; ring)
    exact .inl (hmul 4 2 (by push_cast; linarith))

end Sys2Proof.Machine
end

