-- ==== Sys2Proof/Tests/Slice0.lean ====
section
/-! SUPPORT. Tests whose expected results come from spec/ (95_test_vectors.md and the rules' own examples), and for every
statement of Certificates/Slice0/Obligations.lean that has hypotheses a witness that meets them. -/

namespace Sys2Proof.Tests

open Sys2Proof.Machine

/-! ### Helpers -/

/-- The outcome is a next state that passes a check. -/
def passes (r : Res) (check : State → Bool) : Bool :=
  match r with
  | .next t => check t
  | .fault _ => false
  | .refused _ => false

/-- The outcome is a next state. -/
def goesOn (r : Res) : Bool := passes r fun _ => true

theorem goesOn_iff (r : Res) : goesOn r = true ↔ ∃ t, r = .next t := by
  cases r <;> simp [goesOn, passes]

/-- The outcome is a refusal for this reason. -/
def refuses (r : Res) (e : Refusal) : Bool :=
  match r with
  | .next _ => false
  | .fault _ => false
  | .refused e' => e' = e

theorem refuses_iff (r : Res) (e : Refusal) : refuses r e = true ↔ r = .refused e := by
  cases r <;> simp [refuses]

/-- The cells from `a` on, `n` of them, as numbers. -/
def cellsFrom (s : State) (a n : Nat) : List Nat := (List.range n).map fun i => (s.cell (a + i)).toNat

/-- RAMP as numbers. -/
def rampNats (s : State) : List Nat := s.ramp.map BitVec.toNat

/-- VC after reset, with the arguments of a command and the cell 0x1000 = 2048 of the vectors' bufA. -/
def argued (a l r m : Word) : State :=
  { State.reset with argAddr := a, argLen := l, argRate := r, argAmp := m, mem := [(0x2001, 8)] }

/-- Stopped, with the target of 95_test_vectors.md 2.6 in ARG. -/
def stopped : State := argued 0x1000 100 8000 0

/-- RampingUp at its first sample, as P1 leaves it after START. -/
def rampingUp : State :=
  { stopped with state := .rampingUp, actLen := 8, remain := 8, run := true, outEn := true, irqEn := true,
                 timerPeriod := 49, tgtAddr := 0x1000, tgtLen := 100, tgtRate := 8000,
                 ramp := [256, 512, 768, 1024, 1280, 1536, 1792, 2048] }

/-- RampingUp after its eight ticks. -/
def endedUp : State := { rampingUp with remain := 0, run := false, irqPend := true, dacHold := 2048 }

/-- Playing bufA from its first sample, as P1 leaves it after COMPLETE. -/
def playing : State :=
  { rampingUp with state := .playing, actSel := .external, actAddr := 0x1000, actLen := 100, remain := 100,
                   mode := .autoRepeat, timerPeriod := 124, irqEn := false }

/-- RampingDown at its first sample. -/
def rampingDown : State := { rampingUp with state := .rampingDown }

/-- RampingDown after its eight ticks. -/
def endedDown : State := { rampingDown with remain := 0, run := false, irqPend := true }

/-! ### WellFormed: an ill-formed term for each check -/

theorem test_wf_badWaveLo_below : (Instr.genBadWaveLo 3).wellFormed = false := by decide
theorem test_wf_badWaveLo_above : (Instr.genBadWaveLo 8).wellFormed = false := by decide
theorem test_wf_badWaveHi_below : (Instr.genBadWaveHi 7).wellFormed = false := by decide
theorem test_wf_tdiv_too_wide : (Instr.tdiv 4294967296).wellFormed = false := by decide

/-! ### Decode: the words of 30_encoding.md R81 and R82, field by field (mbz1, wave, mbz0, opcode) -/

theorem test_decode_init : decode (.cmd 0b00000000000000000000_0000_0000_0001#32) = .ok .init := by decide
theorem test_decode_start : decode (.cmd 0b00000000000000000000_0000_0000_0010#32) = .ok .start := by decide
theorem test_decode_stop : decode (.cmd 0b00000000000000000000_0000_0000_0011#32) = .ok .stop := by decide
theorem test_decode_sine : decode (.cmd 0b00000000000000000000_0000_0000_0100#32) = .ok .genSine := by decide
theorem test_decode_tri : decode (.cmd 0b00000000000000000000_0001_0000_0100#32) = .ok .genTri := by decide
theorem test_decode_saw : decode (.cmd 0b00000000000000000000_0010_0000_0100#32) = .ok .genSaw := by decide
theorem test_decode_square : decode (.cmd 0b00000000000000000000_0011_0000_0100#32) = .ok .genSquare := by decide
theorem test_decode_wave_7 :
    decode (.cmd 0b00000000000000000000_0111_0000_0100#32) = .ok (.genBadWaveLo 7) := by decide
theorem test_decode_wave_8 :
    decode (.cmd 0b00000000000000000000_1000_0000_0100#32) = .ok (.genBadWaveHi 8) := by decide
theorem test_decode_tick : decode (.evt 0b01#2) = .ok .tick := by decide
theorem test_decode_complete : decode (.evt 0b10#2) = .ok .complete := by decide
theorem test_decode_cursamp : decode (.uop 0b00#2 0 0) = .ok .cursamp := by decide
theorem test_decode_rampfill : decode (.uop 0b01#2 4095 0) = .ok (.rampfill 4095 0) := by decide
theorem test_decode_tdiv : decode (.uop 0b10#2 44100 0) = .ok (.tdiv 44100) := by decide

/-- V-EN10 to V-EN15. -/
theorem test_decode_reserved :
    decode (.cmd 0x00000000#32) = .error .reservedOpcode ∧ decode (.cmd 0x00000005#32) = .error .reservedOpcode ∧
    decode (.cmd 0x00000102#32) = .error .reservedWave ∧ decode (.cmd 0x00000012#32) = .error .reservedBits ∧
    decode (.cmd 0x00001004#32) = .error .reservedBits ∧ decode (.cmd 0x80000001#32) = .error .reservedBits := by
  decide

/-- R82: tags that name nothing. -/
theorem test_decode_unnamed :
    decode (.evt 0b00#2) = .error .unnamedTag ∧ decode (.evt 0b11#2) = .error .unnamedTag ∧
    decode (.uop 0b11#2 0 0) = .error .unnamedTag := by decide

theorem test_tableWord :
    decodeTableWord 32 0x00000204 = some .genSaw ∧ decodeTableWord 8 1 = some .tick ∧
    decodeTableWord 8 2 = some .complete ∧ decodeTableWord 8 0 = some .cursamp ∧
    decodeTableWord 32 0x00000102 = none := by decide

/-! ### One step, results from 95_test_vectors.md -/

/-- V-SQ14. -/
theorem test_init_stopped : passes (exec .init stopped) (fun t => statusWord t = 0) = true := by decide

/-- V-SQ13. -/
theorem test_init_playing_refused : refuses (exec .init playing) .initWhileActive = true := by decide

/-- V-SQ1 and P1: STATUS, the ramp, the period. -/
theorem test_start_stopped :
    passes (exec .start stopped) (fun t => statusWord t = 0x2D ∧ t.remain = 8 ∧ t.timerPeriod = 49 ∧
      rampNats t = [256, 512, 768, 1024, 1280, 1536, 1792, 2048]) = true := by decide

/-- V-SR4. -/
theorem test_start_out_of_range : refuses (exec .start (argued 65535 2 8000 0)) .bufferOutOfRange = true := by decide

/-- V-SQ5. -/
theorem test_stop_stopped : passes (exec .stop stopped) (fun t => t = stopped) = true := by decide

/-- V-SQ7 and P1: idx = 30, the seed is cell 0x101E = 2348 = 0x092C, in little-endian bytes. -/
theorem test_stop_playing :
    passes (exec .stop { playing with remain := 70, mem := [(0x203C, 0x2C), (0x203D, 0x09)] })
      (fun t => statusWord t = 0x2F ∧ rampNats t = [2055, 1762, 1469, 1176, 883, 590, 297, 4]) = true := by decide

/-- V-GN4: all four points exact. -/
theorem test_sine_quarters :
    passes (exec .genSine (argued 0x3000 4 0 1000)) (fun t => cellsFrom t 0x3000 4 = [0, 500, 1000, 500]) = true := by
  decide

/-- V-GN13: all six points exact. -/
theorem test_sine_sixths :
    passes (exec .genSine (argued 0x3000 6 0 1000))
      (fun t => cellsFrom t 0x3000 6 = [0, 250, 750, 1000, 750, 250]) = true := by decide

/-- V-GN12: under VC the reference SineSample, and under another admitted choice 586 at point 1 (x = 585.786..). -/
theorem test_sine_eighths :
    passes (exec .genSine (argued 0x3000 8 0 4000))
      (fun t => cellsFrom t 0x3000 8 = [0, 585, 2000, 3414, 4000, 3414, 2000, 585]) = true ∧
    sineSample [⟨1, 8, 4000⟩] 1 8 4000 = 586 := by decide

/-- 43_wavegen.md R176: x at phase 1/6 is A/4 exactly, where the comparison must hold for 250 and fail for 251; and x at
phase 1/8 is 585.786.. . -/
theorem test_sine_comparison :
    sineReaches 1 6 1000 250 = true ∧ sineReaches 1 6 1000 251 = false ∧
    sineReaches 1 8 4000 585 = true ∧ sineReaches 1 8 4000 586 = false := by decide

/-- V-GN8. -/
theorem test_tri_odd :
    passes (exec .genTri (argued 0x3000 5 0 1000)) (fun t => cellsFrom t 0x3000 5 = [0, 400, 800, 800, 400]) =
      true := by decide

/-- V-GN18. -/
theorem test_tri_length_zero :
    passes (exec .genTri (argued 0x3000 0 0 4000)) (fun t => t.result = .invalidArgument ∧ t.mem = [(0x2001, 8)]) =
      true := by decide

/-- V-GN5. -/
theorem test_saw_rounds_down :
    passes (exec .genSaw (argued 0x3000 3 0 1000)) (fun t => cellsFrom t 0x3000 3 = [0, 333, 666] ∧ t.result = .ok) =
      true := by decide

/-- V-GN20. -/
theorem test_saw_out_of_range : refuses (exec .genSaw (argued 65534 3 0 1000)) .bufferOutOfRange = true := by decide

/-- V-GN11. -/
theorem test_square_odd_amplitude :
    passes (exec .genSquare (argued 0x3000 4 0 1001)) (fun t => cellsFrom t 0x3000 4 = [0, 0, 500, 1001]) = true := by
  decide

/-- V-GN15, at the last two cells of memory. -/
theorem test_square_two :
    passes (exec .genSquare (argued 65534 2 0 1000)) (fun t => cellsFrom t 65534 2 = [0, 500]) = true := by decide

/-- V-GN19. -/
theorem test_badWaveLo :
    passes (runCode (.cmd 0x00000404) (argued 0x3000 4 0 4000))
      (fun t => t.result = .invalidArgument ∧ t.mem = [(0x2001, 8)]) = true := by decide

/-- V-EN9, and R178 with a length of 0. -/
theorem test_badWaveHi :
    passes (runCode (.cmd 0x00000F04) (argued 0x3000 0 0 4000)) (fun t => t.result = .invalidArgument) = true := by decide

/-- V-TK2. -/
theorem test_tick_ramp_end :
    passes (exec .tick { rampingUp with remain := 1 })
      (fun t => t.out = [2048] ∧ t.dacHold = 2048 ∧ t.remain = 0 ∧ t.run = false ∧ t.irqPend = true) = true := by decide

/-- V-TK3: cell 0x3003 = 3000 = 0x0BB8. -/
theorem test_tick_wrap :
    passes
      (exec .tick { playing with actAddr := 0x3000, actLen := 4, remain := 1, mem := [(0x6006, 0xB8), (0x6007, 0x0B)] })
      (fun t => t.out = [3000] ∧ t.remain = 4 ∧ t.run = true ∧ t.irqPend = true) = true := by decide

/-- V-SQ9 and the example of R148. -/
theorem test_complete_up :
    passes (exec .complete endedUp)
      (fun t => statusWord t = 0xE6 ∧ t.actAddr = 0x1000 ∧ t.actLen = 100 ∧ t.remain = 100 ∧ t.timerPeriod = 124) =
      true := by decide

/-- V-SQ10. -/
theorem test_complete_down : passes (exec .complete endedDown) (fun t => statusWord t = 0) = true := by decide

/-- V-SQ11: the spurious handler body in Playing leaves 0xF6. -/
theorem test_handler_playing :
    passes (handlerBody { playing with irqPend := true }) (fun t => statusWord t = 0xF6) = true := by decide

/-- V-CS7. -/
theorem test_cursamp_rampingDown :
    passes (exec .cursamp { rampingDown with remain := 5 }) (fun t => t.uopRet = 1024) = true := by decide

/-- V-CS5: a counter above the length is clamped to index 0. -/
theorem test_cursamp_clamped :
    passes (exec .cursamp { playing with remain := 101 }) (fun t => t.uopRet = 2048) = true := by decide

/-- V-RF3: truncation toward zero. -/
theorem test_rampfill_falling :
    passes (exec (.rampfill 4095 0) stopped)
      (fun t => rampNats t = [3584, 3073, 2562, 2051, 1540, 1029, 518, 7]) = true := by decide

/-- V-RF16: N_RAMP = 4. -/
theorem test_rampfill_four :
    passes (exec (.rampfill 0 10) { stopped with cfg := { Cfg.vc with nRamp := 4 } })
      (fun t => rampNats t = [2, 4, 6, 8]) = true := by decide

/-- V-TD3. -/
theorem test_tdiv_truncates : passes (exec (.tdiv 44100) stopped) (fun t => t.uopRet = 21) = true := by decide

/-- V-TD9, and V-TD8 beside it. -/
theorem test_tdiv_overflow :
    refuses (exec (.tdiv 15) stopped) .periodOverflow = true ∧
      passes (exec (.tdiv 16) stopped) (fun t => t.uopRet = 62499) = true := by decide

/-- 95_test_vectors.md 2.1: `WR ARG_LEN, 0x12345678` then `RD ARG_LEN` returns 0x00005678. -/
theorem test_register_arg_len :
    passes (hostWrite 4 0x0C 0x12345678 stopped) (fun t => readReg t 0x0C = 0x00005678) = true := by decide

/-- 95_test_vectors.md 2.1: `WR STATUS, 0xFFFFFFFF` changes nothing; CMD and 0x1C read 0. -/
theorem test_register_status :
    passes (hostWrite 4 0x04 0xFFFFFFFF playing) (fun t => t = playing) = true ∧ readReg playing 0x00 = 0 ∧
      readReg playing 0x1C = 0 := by decide

/-! ### Witnesses: states and operands that meet a statement's hypotheses, clause by clause at its boundaries -/

/-- VC with CLEAR_ON_ARM false. -/
def uncleared (s : State) : State := { s with cfg := { s.cfg with clearOnArm := false } }

/-- The state with these actions ahead. -/
def ahead (l : List Action) (s : State) : State := { s with agenda := l }

theorem vc_valid : Cfg.vc.Valid := by decide

/-- Every parameter at its least value, but for the clock and the timer. -/
theorem least_cfg_valid :
    Cfg.Valid { Cfg.vc with nRamp := 1, rampRate := 1, clockRate := 1, sampleBits := 1, timerBits := 1, addrBits := 1,
                            lenBits := 1, rateBits := 1, memCells := 1, silence := 1, regBase := 0x40000000 } := by
  decide

theorem reset_inv : State.reset.Inv :=
  ⟨by decide, by constructor <;> decide, by constructor <;> decide, by constructor <;> decide⟩

theorem stopped_inv : stopped.Inv :=
  ⟨by decide, by constructor <;> decide, by constructor <;> decide, by constructor <;> decide⟩

theorem rampingUp_inv : rampingUp.Inv :=
  ⟨by decide, by constructor <;> decide, by constructor <;> decide, by constructor <;> decide⟩

theorem endedUp_inv : endedUp.Inv :=
  ⟨by decide, by constructor <;> decide, by constructor <;> decide, by constructor <;> decide⟩

theorem playing_inv : playing.Inv :=
  ⟨by decide, by constructor <;> decide, by constructor <;> decide, by constructor <;> decide⟩

theorem rampingDown_inv : rampingDown.Inv :=
  ⟨by decide, by constructor <;> decide, by constructor <;> decide, by constructor <;> decide⟩

theorem endedDown_inv : endedDown.Inv :=
  ⟨by decide, by constructor <;> decide, by constructor <;> decide, by constructor <;> decide⟩

/-- DecodeOfEncodeIsIdentity, at the edges of each check. -/
theorem witness_DecodeOfEncode :
    (Instr.genBadWaveLo 4).wellFormed = true ∧ (Instr.genBadWaveLo 7).wellFormed = true ∧
    (Instr.genBadWaveHi 8).wellFormed = true ∧ (Instr.genBadWaveHi 15).wellFormed = true ∧
    (Instr.rampfill 65535 0).wellFormed = true ∧ (Instr.tdiv 4294967295).wellFormed = true := by decide

/-- AcceptedCodeIsCanonical. -/
theorem witness_AcceptedCode :
    decode (.uop 1 0xFFFF 0xFFFF) = .ok (.rampfill 0xFFFF 0xFFFF) ∧
    decode (.uop 2 0xFFFFFFFF 0) = .ok (.tdiv 4294967295) := by decide

/-- The fields of a CMD word as numbers: opcode, mbz0, wave, mbz1. -/
def wordParts (w : Word) : Nat × Nat × Nat × Nat :=
  (w.toNat % 16, w.toNat / 16 % 16, w.toNat / 256 % 16, w.toNat / 4096)

/-- CmdWordDecodingIsTotal: a word for each clause. -/
theorem witness_CmdWord :
    [0x00000011, 0x00001001, 0x00000001, 0x00000002, 0x00000003, 0x00000103, 0x00000F01, 0x00000004].map wordParts =
      [(1, 1, 0, 0), (1, 0, 0, 1), (1, 0, 0, 0), (2, 0, 0, 0), (3, 0, 0, 0), (3, 0, 1, 0), (1, 0, 15, 0),
       (4, 0, 0, 0)] ∧
    [0x00000104, 0x00000204, 0x00000304, 0x00000404, 0x00000F04, 0x00000000, 0x00000005, 0x0000000F].map wordParts =
      [(4, 0, 1, 0), (4, 0, 2, 0), (4, 0, 3, 0), (4, 0, 4, 0), (4, 0, 15, 0), (0, 0, 0, 0), (5, 0, 0, 0),
       (15, 0, 0, 0)] ∧
    decode (.cmd 0x00000011) = .error .reservedBits := by decide

/-- OpcodeTableRowsAreDisjoint. -/
theorem witness_OpcodeTable :
    (⟨"GEN.BADWAVE_LO", .cmd, 0x00000404, 0xFFFFFCFF⟩ : Row) ∈ opcodeTable ∧
    (⟨"GEN.BADWAVE_LO", .cmd, 0x00000404, 0xFFFFFCFF⟩ : Row).accepts (.cmd 0x00000704) = true ∧
    decode (.cmd 0x00000704) = .ok (.genBadWaveLo 7) := by decide

/-- StepRunsTheDecodedOperation. -/
theorem witness_StepRuns :
    (ahead [.wr 4 0 1] stopped).agenda = [.wr 4 (ahead [.wr 4 0 1] stopped).cfg.regBase 1] ∧
    decode (.cmd 1) = .ok .init ∧ decode (.evt 1) = .ok .tick ∧ decode (.uop 0 0 0) = .ok .cursamp ∧
    (ahead [.evt 1] stopped).agenda = [.evt 1] ∧ (ahead [.uop 0 0 0] stopped).agenda = [.uop 0 0 0] ∧
    (ahead [.handler] stopped).agenda = [.handler] ∧ stopped.agenda = [] ∧
    tableCode 32 1 = some (.cmd 1) ∧ tableCode 2 1 = some (.evt 1) := by decide

/-- RegisterAccessRights, ArgRegistersKeepTheirWidths, StatusViewLayout: an access at each offset a clause names. -/
theorem witness_Registers :
    (∀ off ∈ [0x00, 0x04, 0x08, 0x0C, 0x10, 0x14, 0x18, 0x1C, 0x20], off % 4 = 0 ∧
      (ahead [.rd 4 off] playing).agenda = [.rd 4 (playing.cfg.regBase + off)] ∧
      (ahead [.wr 4 off 5] playing).agenda = [.wr 4 (playing.cfg.regBase + off) 5]) ∧
    goesOn (exec .stop playing) = true ∧
    passes (step (ahead [.rd 4 0x18] playing)) (fun t => t.busData = 0) = true ∧
    passes (step (ahead [.rd 4 0x18] { playing with result := .invalidArgument })) (fun t => t.busData = 1) = true := by
  decide

/-- NarrowOrMisalignedAccessIsRefused. -/
theorem witness_NarrowOrMisaligned :
    ((2 : Nat) ≠ 4 ∨ 0 % 4 ≠ 0) ∧ ((4 : Nat) ≠ 4 ∨ 3 % 4 ≠ 0) ∧
    (ahead [.rd 4 3] playing).agenda = [.rd 4 (playing.cfg.regBase + 3)] ∧
    (ahead [.wr 2 0 1] playing).agenda = [.wr 2 (playing.cfg.regBase + 0) 1] := by decide

/-- ResetEstablishesStopped: the start, and a reset in the middle of a sound. -/
theorem witness_Reset :
    State.reset = State.resetWith Cfg.vc ∧ goesOn (perform .rst playing) = true := by decide

/-- EveryStepKeepsTheInvariant, NoStepChangesTheConfiguration: with rampingUp_inv, playing_inv and the others, a step. -/
theorem witness_Steps :
    (∀ a ∈ [Action.rd 4 4, .wr 4 0 2, .wr 4 8 7, .poke 0x1000 7, .evt 1, .evt 2, .handler, .uop 0 0 0, .rst],
      goesOn (step (ahead [a] playing)) = true ∧ goesOn (step (ahead [a] rampingUp)) = true) ∧
    goesOn (step stopped) = true := by decide

/-- NoEventRefuses: with rampingUp_inv. -/
theorem witness_NoEventRefuses : rampingUp.state = .rampingUp ∧ endedUp.state = .rampingUp := by decide

/-- CursampReadsTheLiveSample: stopped; the ramp's first and last cell; the last cell of memory. -/
theorem witness_Cursamp :
    stopped.state = .stopped ∧
    (rampingUp.state ≠ .stopped ∧ rampingUp.actSel = .ramp ∧ rampingUp.ramp[0]? = some 256) ∧
    rampingUp.ramp[8 - 1]? = some 2048 ∧
    (playing.state ≠ .stopped ∧ playing.actSel = .external ∧ 65535 + 0 < playing.cfg.memCells ∧
      65535 + 0 ∉ playing.unsettled) := by decide

/-- RampfillWritesTheRamp, RampStaysBetweenItsEnds, RampEndsOneRemainderShort: N_RAMP = 1 and 8, both ends at most
SAMPLE_MAX. -/
theorem witness_Rampfill :
    1 ≤ State.reset.cfg.nRamp ∧ 0 < (1 : Nat) ∧ 0 + 1 < (2 : Nat) ∧ (4095 : Sample).toNat ≤ Cfg.vc.sampleMax ∧
    (0 : Sample).toNat ≤ Cfg.vc.sampleMax ∧ decode (.uop 1#2 5 6) = .ok (.rampfill 5 6) := by decide

/-- TdivDividesTruncates: 0, just above the clock, the last rate that overflows, the first that fits. -/
theorem witness_Tdiv :
    stopped.cfg.clockRate < 1000001 ∧
    (1 ≤ 15 ∧ 15 ≤ stopped.cfg.clockRate ∧ 2 ^ stopped.cfg.timerBits ≤ stopped.cfg.clockRate / 15 - 1) ∧
    (1 ≤ 16 ∧ 16 ≤ stopped.cfg.clockRate ∧ stopped.cfg.clockRate / 16 - 1 < 2 ^ stopped.cfg.timerBits) ∧
    stopped.cfg.clockRate / 1000000 - 1 < 2 ^ stopped.cfg.timerBits := by decide

/-- ObtainedRateIsNotBelowRequested: a rate that divides the clock and one that does not. -/
theorem witness_ObtainedRate :
    timerDivide Cfg.vc 8000 = .ok 124 ∧ 8000 ∣ Cfg.vc.clockRate ∧ timerDivide Cfg.vc 44100 = .ok 21 ∧
    ¬ 44100 ∣ Cfg.vc.clockRate := by decide

/-- TickEmitsOneSample: two samples left, the last of a ramp, the last of a loop. -/
theorem witness_Tick :
    (rampingUp.run = true ∧ 2 ≤ rampingUp.remain ∧ rampingUp.remain ≤ rampingUp.actLen ∧ rampingUp.actSel = .ramp ∧
      rampingUp.actLen - 1 < rampingUp.ramp.length ∧ rampingUp.mode = .oneShot) ∧
    (playing.run = true ∧ 1 ≤ playing.actLen ∧ playing.actSel = .external ∧ playing.mode = .autoRepeat ∧
      playing.actAddr + (playing.actLen - 1) < playing.cfg.memCells ∧
      playing.actAddr + (playing.actLen - 1) ∉ playing.unsettled) := by decide

/-- DisabledEventsChangeNothing. -/
theorem witness_Disabled :
    endedUp.run = false ∧ rampingUp.irqPend = false ∧ { playing with irqPend := true }.irqEn = false := by decide

/-- OneShotTransferPlaysTheRampOnce: the ramp at its start with its N_RAMP ticks ahead. -/
theorem witness_OneShot :
    let s := ahead (List.replicate 8 (.evt 1) ++ [.evt 2]) rampingUp
    s.Inv ∧ s.run = true ∧ s.mode = .oneShot ∧ s.actSel = .ramp ∧ s.actLen = s.cfg.nRamp ∧ s.remain = s.cfg.nRamp ∧
    s.agenda = List.replicate s.cfg.nRamp (.evt 1) ++ [.evt 2] :=
  ⟨⟨by decide, by constructor <;> decide, by constructor <;> decide, by constructor <;> decide⟩, by decide⟩

/-- AutoRepeatTransferLoopsTheBuffer: the loop at its start, with more ticks ahead than its length. -/
theorem witness_AutoRepeat :
    let s := ahead (List.replicate 3 (.evt 1)) { playing with actLen := 2, remain := 2 }
    s.Inv ∧ s.state = .playing ∧ s.remain = s.actLen ∧ (∀ i, i < s.actLen → s.actAddr + i ∉ s.unsettled) ∧
    s.agenda = List.replicate 3 (.evt 1) ++ [] :=
  ⟨⟨by decide, by constructor <;> decide, by constructor <;> decide, by constructor <;> decide⟩, by decide⟩

/-- InitEstablishesStopped. -/
theorem witness_Init : stopped.state = .stopped ∧ playing.state ≠ .stopped ∧ goesOn (exec .init stopped) = true := by decide

/-- StartRampsToTheTarget: with stopped_inv and the like; a buffer of one sample in the last cell, at the least and the
greatest rate that fit. -/
theorem witness_Start :
    let ok (a l r : Nat) := l ≠ 0 ∧ a + l ≤ Cfg.vc.memCells ∧ 1 ≤ r ∧ r ≤ Cfg.vc.clockRate ∧
      Cfg.vc.clockRate / r - 1 < 2 ^ Cfg.vc.timerBits
    ok 65535 1 16 ∧ ok 0x1000 100 1000000 ∧ goesOn (exec .start (argued 65535 1 16 0)) = true := by decide

theorem lastCell_inv : (argued 65535 1 16 0).Inv :=
  ⟨by decide, by constructor <;> decide, by constructor <;> decide, by constructor <;> decide⟩

/-- StartRefusesBadOperands: V-SR1, V-SR4, V-SR5, V-SR9, V-SR7. -/
theorem witness_StartRefuses :
    refuses (exec .start (argued 0x1000 0 8000 0)) .lengthZero = true ∧
    refuses (exec .start (argued 65535 2 8000 0)) .bufferOutOfRange = true ∧
    refuses (exec .start (argued 0x1000 100 0 0)) .rateZero = true ∧
    refuses (exec .start (argued 0x1000 100 1000001 0)) .rateAboveClock = true ∧
    refuses (exec .start (argued 0x1000 100 15 0)) .periodOverflow = true := by decide

/-- StopRampsToSilence, SeedIsTheLiveSampleOfEachState: with the invariants above. -/
theorem witness_Stop :
    stopped.state = .stopped ∧ playing.state ≠ .stopped ∧
    (playing.state = .playing ∧ playing.actAddr + (playing.actLen - playing.remain) ∉ playing.unsettled) ∧
    (rampingUp.ramping ∧ rampingUp.run = true) ∧ (endedDown.ramping ∧ endedDown.run = false) := by decide

/-- CompleteRunsTheHandler, HandlerBodyIsIdempotent. -/
theorem witness_Complete :
    (endedDown.irqPend = true ∧ endedDown.irqEn = true ∧ endedDown.state = .rampingDown) ∧
    (endedUp.irqPend = true ∧ endedUp.irqEn = true ∧ endedUp.state = .rampingUp ∧
      timerDivide endedUp.cfg endedUp.tgtRate = .ok 124) ∧
    { playing with irqPend := true, irqEn := true }.state = .playing ∧
    { stopped with irqPend := true, irqEn := true }.state = .stopped ∧
    passes (handlerBody endedUp) (fun t => t.irqPend ∧ t.state = .playing) = true ∧
    passes (handlerBody endedDown) (fun t => t.irqPend ∧ t.state = .stopped) = true ∧
    rampingUp.state = .rampingUp ∧ rampingUp.irqPend = false ∧ timerDivide rampingUp.cfg rampingUp.tgtRate = .ok 124 ∧
    rampingDown.state = .rampingDown ∧ rampingDown.irqPend = false := by decide

/-- TransitionTable, TimerPeriodHasThreeWriters, CompletionFlagSetAndCleared, OperationFrames: every operation has a
next state from some state of each kind the clauses name. -/
theorem witness_Operations :
    (∀ s ∈ [stopped, rampingUp, playing, rampingDown], goesOn (exec .start s) = true ∧ goesOn (exec .stop s) = true) ∧
    goesOn (exec .init { stopped with irqPend := true }) = true ∧
    (irqLine endedUp = true ∧ goesOn (exec .complete endedUp) = true) ∧
    (irqLine endedDown = true ∧ goesOn (exec .complete endedDown) = true) ∧
    (irqLine playing = false ∧ goesOn (exec .complete playing) = true) ∧
    goesOn (exec .complete { playing with irqPend := true, irqEn := true }) = true ∧
    passes (exec .tick { rampingUp with remain := 1 }) (fun t => t.irqPend = true) = true ∧
    passes (exec .start endedUp) (fun t => t.irqPend = false) = true ∧ endedUp.irqPend = true ∧
    (∀ i ∈ [Instr.genSine, .genTri, .genSaw, .genSquare], goesOn (exec i (argued 0x3000 4 0 1000)) = true) := by decide

/-- OnlySequencerStepsChangeState: one action of each kind that changes STATE. -/
theorem witness_OnlySequencer :
    passes (step (ahead [.wr 4 0 2] stopped)) (fun t => t.state ≠ .stopped) = true ∧
    passes (step (ahead [.wr 4 0 3] playing)) (fun t => t.state ≠ .playing) = true ∧
    passes (step (ahead [.evt 2] endedUp)) (fun t => t.state ≠ .rampingUp) = true ∧
    passes (step (ahead [.handler] rampingDown)) (fun t => t.state ≠ .rampingDown) = true ∧
    passes (step (ahead [.rst] playing)) (fun t => t.state ≠ .playing) = true := by decide

/-- CompletionIsNeverLost: a ramp with one tick left, and an ended one. -/
theorem witness_NeverLost :
    let s := ahead (List.replicate 1 (.evt 1)) { rampingUp with remain := 1 }
    s.Inv ∧ s.ramping ∧ s.run = true ∧ s.agenda = List.replicate s.remain (.evt 1) ++ [] ∧
    endedUp.ramping ∧ endedUp.run = false :=
  ⟨⟨by decide, by constructor <;> decide, by constructor <;> decide, by constructor <;> decide⟩, by decide⟩

/-- StartThenRampThenLoop. -/
theorem witness_StartThenRamp :
    let s := ahead (List.replicate 8 (.evt 1) ++ [.evt 2]) stopped
    s.Inv ∧ s.agenda = List.replicate s.cfg.nRamp (.evt 1) ++ [.evt 2] ∧ goesOn (exec .start s) = true :=
  ⟨⟨by decide, by constructor <;> decide, by constructor <;> decide, by constructor <;> decide⟩, by decide⟩

/-- StopThenRampThenSilence. -/
theorem witness_StopThenRamp :
    let s := ahead (List.replicate 8 (.evt 1) ++ [.evt 2]) playing
    s.Inv ∧ s.state ≠ .stopped ∧ s.agenda = List.replicate s.cfg.nRamp (.evt 1) ++ [.evt 2] ∧
    goesOn (exec .stop s) = true :=
  ⟨⟨by decide, by constructor <;> decide, by constructor <;> decide, by constructor <;> decide⟩, by decide⟩

/-- StaleCompletionEndsARampOnlyUncleared: an ended ramp under either setting. -/
theorem witness_Stale :
    (uncleared endedUp).Inv ∧ (uncleared endedUp).irqPend = true ∧ (uncleared endedUp).cfg.clearOnArm = false ∧
    goesOn (exec .start (uncleared endedUp)) = true ∧ endedUp.cfg.clearOnArm = true ∧ endedUp.irqPend = true ∧
    goesOn (exec .start endedUp) = true :=
  ⟨⟨by decide, by constructor <;> decide, by constructor <;> decide, by constructor <;> decide⟩, by decide⟩

/-- GenSawWritesTheSawtooth, GenSquareWritesTheSquare, GenTriWritesTheTriangle, GenSineWritesSineSamples: a buffer that
ends with memory. -/
theorem witness_Gen :
    (argued 65534 2 0 1000).mem.wf ∧ opLen (argued 65534 2 0 1000) ≠ 0 ∧
    opAddr (argued 65534 2 0 1000) + opLen (argued 65534 2 0 1000) ≤ (argued 65534 2 0 1000).cfg.memCells := by decide

/-- GenReportsLengthZero, GenReportsUnrecognizedWave. -/
theorem witness_GenReports :
    opLen (argued 65535 0 0 0) = 0 ∧
    (opLen (argued 65534 3 0 0) ≠ 0 ∧
      (argued 65534 3 0 0).cfg.memCells < opAddr (argued 65534 3 0 0) + opLen (argued 65534 3 0 0)) ∧
    4 ≤ (4 : BitVec 4).toNat ∧ 4 ≤ (15 : BitVec 4).toNat := by decide

/-- SineSampleMeetsItsBounds, WaveValuesStartAtZeroAndFit: the largest operands, and phases at multiples of 1/4 and 1/6. -/
theorem witness_Sine :
    (4294967294 < 4294967295 ∧ 4294967295 < 2 ^ 32 ∧ 65535 < 2 ^ 16) ∧ (3 < 4 ∧ (4 * 3) % 4 = 0) ∧
    (5 < 6 ∧ (6 * 5) % 6 = 0) ∧ (1 < 2 ∧ 2 < 2 ^ 32 ∧ 0 < 2 ^ 16) := by decide

/-- SineSampleMeetsItsBounds: the cosine is rational at phase 0 and irrational at phase 1/8. -/
theorem witness_SineRational :
    ¬Irrational (Real.cos (2 * Real.pi * (0 : ℕ) / (1 : ℕ))) ∧ Irrational (Real.cos (2 * Real.pi * (1 : ℕ) / (8 : ℕ))) := by
  refine ⟨fun h => h ⟨1, by simp⟩, irrational_cos_of_phase (by decide) (by decide)⟩

/-- EveryAdmittedSineSampleIsConfigurable: the floor is such a function. -/
theorem witness_SineAdmitted : ∃ g : ℕ → ℕ → ℕ → ℕ, ∀ i l A : ℕ, i < l → l < 2 ^ 32 → A < 2 ^ 16 →
    let cosine : ℝ := Real.cos (2 * Real.pi * i / l)
    let x : ℝ := A * (1 - cosine) / 2
    g i l A ≤ A ∧ |(g i l A : ℝ) - x| < 1 ∧ (¬Irrational cosine → g i l A = ⌊x⌋₊) := by
  refine ⟨fun i l A => ⌊(A : ℝ) * (1 - Real.cos (2 * Real.pi * i / l)) / 2⌋₊, fun i l A _ _ _ => ?_⟩
  intro cosine x
  have hA : (0 : ℝ) ≤ A := Nat.cast_nonneg A
  have h1 : cosine ≤ 1 := Real.cos_le_one _
  have h2 : -1 ≤ cosine := Real.neg_one_le_cos _
  have h0 : 0 ≤ x := by
    have : 0 ≤ 1 - cosine := by linarith
    positivity
  have hle : x ≤ A := by
    show (A : ℝ) * (1 - cosine) / 2 ≤ A
    nlinarith
  have := Nat.floor_le h0
  have := Nat.lt_floor_add_one x
  exact ⟨Nat.floor_le_of_le hle, show |(⌊x⌋₊ : ℝ) - x| < 1 by rw [abs_lt]; constructor <;> linarith, fun _ => rfl⟩

/-- BorrowedCellWrittenReadsAsAnyValue: the first and the last cell of the looped buffer, a marked cell, a GEN over the
buffer. -/
theorem witness_Borrowed :
    (4096 < playing.cfg.memCells ∧ playing.references 4096 = true ∧ playing.references 4195 = true ∧
      playing.references 4196 = false ∧ rampingUp.references 4195 = true ∧ playing.mem.wf) ∧
    passes (perform (.poke 4096 7) playing) (fun t => 4096 ∈ t.unsettled) = true ∧
    passes (perform (.poke 4196 7) playing) (fun t => t.unsettled = [] ∧ t.cell 4196 = 7) = true ∧
    (playing.cfg.memCells ≤ 65536 ∧ 65535 < playing.cfg.memCells) ∧ goesOn (perform (.poke 65535 7) playing) = true ∧
    goesOn (step (ahead [.evt 2] { playing with unsettled := [4096] })) = true ∧
    (ahead [.evt 2] playing).agenda.head? ≠ some .rst ∧
    passes (exec .genSaw { playing with argLen := 4 }) (fun t => t.unsettled = [4096, 4097, 4098, 4099]) = true := by
  decide

/-- ByteOrderIsNotObservable: the same cell 0x1000 = 2048 in either order. -/
theorem witness_ByteOrder :
    let big : State := { playing with cfg := { Cfg.vc with byteOrder := .big }, mem := [(0x2000, 8)] }
    playing.SameCells big ∧ goesOn (step playing) = true := by
  refine ⟨⟨rfl, by decide, by decide, fun a => ?_⟩, by decide⟩
  have h : State.cell playing a = Memory.readCell .little [(0x2001, 8)] a := rfl
  rw [h]
  show Memory.readCell .big [(0x2000, 8)] a = _
  by_cases ha : a = 0x1000
  · subst ha
    decide
  · have h0 : 2 * a ≠ 0x2000 := by omega
    have h1 : 2 * a + 1 ≠ 0x2001 := by omega
    have h2 : 2 * a + 1 ≠ 0x2000 := by omega
    have h3 : 2 * a ≠ 0x2001 := by omega
    show ((if 2 * a = 0x2000 then 8 else unlistedByte) ++ (if 2 * a + 1 = 0x2000 then 8 else unlistedByte) : Sample) =
      (if 2 * a + 1 = 0x2001 then 8 else unlistedByte) ++ (if 2 * a = 0x2001 then 8 else unlistedByte)
    rw [if_neg h0, if_neg h1, if_neg h2, if_neg h3]

end Sys2Proof.Tests
end

section
/-! The family of 00_scope.md: the parameters stay (R8), and the list of points can hold every SineSample within the bounds of R176. -/

namespace Sys2Proof.Machine

/-! ### No operation, no agent and no step writes a parameter -/

theorem countDown_cfg (s : State) : (countDown s).cfg = s.cfg := by
  unfold countDown
  split
  · split <;> rfl
  · rfl

theorem handlerBody_keeps_cfg {s t : State} (h : handlerBody s = .next t) : t.cfg = s.cfg := by
  rcases handlerBody_next h with ⟨-, rfl⟩ | ⟨-, p, -, rfl⟩ | ⟨-, rfl⟩
  · rw [shutDown_eq]
  · rw [beginLoop_eq]
  · rfl

theorem exec_keeps_cfg {i : Instr} {s t : State} (h : exec i s = .next t) : t.cfg = s.cfg := by
  cases exec_next h with
  | unchanged ht => rw [ht]
  | init _ _ ht => rw [ht, initBody_eq]
  | start _ _ _ _ _ _ _ _ ht => rw [ht, State.setDraws_cfg, startBody_eq]
  | stop _ _ _ _ _ _ ht => rw [ht, State.setDraws_cfg, stopBody_eq]
  | wave _ _ _ _ ht => rw [ht, State.setResult_cfg, fillCells_cfg]
  | invalid _ ht => rw [ht, State.setResult_cfg]
  | tick _ _ _ _ _ _ ht => rw [ht, countDown_cfg, State.setDraws_cfg, State.emitSample_cfg]
  | shutDown _ _ _ ht => rw [ht, shutDown_eq, takeCompletion_eq]
  | loop _ _ _ _ _ ht => rw [ht, beginLoop_eq, takeCompletion_eq]
  | acknowledge _ _ _ ht => rw [ht, takeCompletion_eq]
  | cursamp _ _ _ ht => rw [ht, State.setDraws_cfg, State.setUopRet_cfg]
  | rampfill _ _ _ ht => rw [ht, rampFill_eq]
  | tdiv _ _ _ _ ht => rw [ht, State.setUopRet_cfg]

theorem runCode_keeps_cfg {c : Code} {s t : State} (h : runCode c s = .next t) : t.cfg = s.cfg := by
  obtain ⟨i, -, h⟩ := runCode_next h
  exact exec_keeps_cfg h

theorem writeReg_keeps_cfg {off : Nat} {w : Word} {s t : State} (h : writeReg s off w = .next t) : t.cfg = s.cfg := by
  rcases writeReg_next h with ⟨-, h⟩ | ⟨-, rfl⟩ | ⟨-, rfl⟩ | ⟨-, rfl⟩ | ⟨-, rfl⟩ | rfl
  · exact runCode_keeps_cfg h
  all_goals rfl

theorem perform_keeps_cfg {a : Action} {s t : State} (h : perform a s = .next t) : t.cfg = s.cfg := by
  rcases perform_next h with ⟨_, _, _, -, -, rfl⟩ | ⟨_, _, _, _, -, -, h⟩ | ⟨_, _, -, -, rfl⟩ | ⟨_, -, h⟩ | ⟨-, h⟩ |
    ⟨_, _, _, -, h⟩ | ⟨-, rfl⟩
  · rw [State.setBusData_cfg]
  · exact writeReg_keeps_cfg h
  · rw [storeSample_cfg]
  · exact runCode_keeps_cfg h
  · exact handlerBody_keeps_cfg h
  · exact runCode_keeps_cfg h
  · rfl

theorem step_keeps_cfg {s t : State} (h : step s = .next t) : t.cfg = s.cfg := by
  rcases step_next h with ⟨-, rfl⟩ | ⟨a, rest, -, h⟩
  · rfl
  · rw [perform_keeps_cfg h, State.setAgenda_cfg]

/-- Settles O14: each agent's action keeps the parameters, and the type of faults is empty (60_exceptions.md R190). -/
theorem noStepChangesTheConfiguration : Obligations.NoStepChangesTheConfiguration :=
  ⟨fun _ _ h => step_keeps_cfg h, fun _ e => nomatch e⟩

/-! ### SineSample, by the phase -/

/-- The phases at which sineSample has a value of its own, as multiples of 1/4 or of 1/6. -/
theorem phase_mod_iff {i l : ℕ} (hi : i < l) :
    ((4 * i) % l = 0 ∨ (6 * i) % l = 0) ↔
      i = 0 ∨ 2 * i = l ∨ (4 * i = l ∨ 4 * i = 3 * l) ∨ (6 * i = l ∨ 6 * i = 5 * l) ∨ (3 * i = l ∨ 3 * i = 2 * l) := by
  constructor
  · rintro (h | h)
    · obtain ⟨q, hq⟩ := Nat.dvd_of_mod_eq_zero h
      have : q < 4 := by nlinarith
      interval_cases q <;> omega
    · obtain ⟨q, hq⟩ := Nat.dvd_of_mod_eq_zero h
      have : q < 6 := by nlinarith
      interval_cases q <;> omega
  · have multiple : ∀ b a : ℕ, b * i = a * l → (b * i) % l = 0 := fun b a h => by rw [h, Nat.mul_mod_left]
    rintro (h | h | (h | h) | (h | h) | (h | h))
    · exact .inl (multiple 4 0 (by omega))
    · exact .inl (multiple 4 2 (by omega))
    · exact .inl (multiple 4 1 (by omega))
    · exact .inl (multiple 4 3 (by omega))
    · exact .inr (multiple 6 1 (by omega))
    · exact .inr (multiple 6 5 (by omega))
    · exact .inr (multiple 6 2 (by omega))
    · exact .inr (multiple 6 4 (by omega))

/-- The cosine where the mirror index is one b-th of the length. -/
theorem cos_of_sineFold_eq {i l b : ℕ} (hi : i < l) (h : b * sineFold i l = l) :
    Real.cos (2 * Real.pi * i / l) = Real.cos (2 * Real.pi / b) := by
  have hl : (b * (sineFold i l : ℕ) : ℝ) = l := by exact_mod_cast h
  have hne : (b * (sineFold i l : ℕ) : ℝ) ≠ 0 := by rw [hl]; exact_mod_cast (show l ≠ 0 by omega)
  obtain ⟨hb, hf⟩ := mul_ne_zero_iff.1 hne
  rw [← cos_sineFold hi, ← hl]
  congr 1
  field_simp

/-- At a rational phase the sample is the floor of a number of quarters of the amplitude, and that number gives the
cosine. -/
theorem sineSample_of_rational_phase (above : List SinePoint) {i l : ℕ} (A : ℕ) (hi : i < l)
    (hp : (4 * i) % l = 0 ∨ (6 * i) % l = 0) :
    ∃ k : ℕ, Real.cos (2 * Real.pi * i / l) = 1 - k / 2 ∧ sineSample above i l A = k * A / 4 := by
  have hfold : sineFold i l = min i (l - i) := rfl
  unfold sineSample
  rw [phase_mod_iff hi] at hp
  split_ifs with h0 h2 h4 h6 h3
  · exact ⟨0, by simp [h0], by omega⟩
  · refine ⟨4, ?_, by omega⟩
    rw [cos_of_sineFold_eq (b := 2) hi (by omega), show 2 * Real.pi / (2 : ℕ) = Real.pi by push_cast; ring, Real.cos_pi]
    norm_num
  · refine ⟨2, ?_, by omega⟩
    rw [cos_of_sineFold_eq (b := 4) hi (by omega), show 2 * Real.pi / (4 : ℕ) = Real.pi / 2 by push_cast; ring,
      Real.cos_pi_div_two]
    norm_num
  · refine ⟨1, ?_, by omega⟩
    rw [cos_of_sineFold_eq (b := 6) hi (by omega), show 2 * Real.pi / (6 : ℕ) = Real.pi / 3 by push_cast; ring,
      Real.cos_pi_div_three]
    norm_num
  · refine ⟨3, ?_, rfl⟩
    rw [cos_of_sineFold_eq (b := 3) hi (by omega), show 2 * Real.pi / (3 : ℕ) = Real.pi - Real.pi / 3 by push_cast; ring,
      Real.cos_pi_sub, Real.cos_pi_div_three]
    norm_num
  all_goals omega

/-- At a rational phase the cosine is rational and the sample is the floor of the exact value. -/
theorem sineSample_eq_floor_of_rational_phase (above : List SinePoint) {i l : ℕ} (A : ℕ) (hi : i < l)
    (hp : (4 * i) % l = 0 ∨ (6 * i) % l = 0) :
    ¬Irrational (Real.cos (2 * Real.pi * i / l)) ∧
      sineSample above i l A = ⌊(A : ℝ) * (1 - Real.cos (2 * Real.pi * i / l)) / 2⌋₊ := by
  obtain ⟨k, hcos, hk⟩ := sineSample_of_rational_phase above A hi hp
  rw [hcos, hk]
  refine ⟨fun h => h ⟨1 - k / 2, by push_cast; ring⟩, ?_⟩
  rw [← Nat.floor_div_eq_div (K := ℝ)]
  congr 1
  push_cast
  ring

/-- At every other phase the sample is the floor of the exact value or, at a listed point, one above it, but at most A. -/
theorem sineSample_of_irrational_phase (above : List SinePoint) {i l : ℕ} (A : ℕ) (hi : i < l) (hl : l < 2 ^ 32)
    (hp : ¬((4 * i) % l = 0 ∨ (6 * i) % l = 0)) :
    sineFloor i l A = ⌊(A : ℝ) * (1 - Real.cos (2 * Real.pi * i / l)) / 2⌋₊ ∧
    sineSample above i l A =
      min A (if (⟨i, l, A⟩ : SinePoint) ∈ above then sineFloor i l A + 1 else sineFloor i l A) := by
  rw [phase_mod_iff hi] at hp
  simp only [not_or] at hp
  obtain ⟨h0, h2, ⟨h4, h4'⟩, ⟨h6, h6'⟩, h3, h3'⟩ := hp
  exact ⟨sineFloor_eq_floor A (Nat.pos_of_ne_zero h0) hi h2 hl, by simp [sineSample, *]⟩

/-! ### The list of points a sample function within the bounds is raised at -/

/-- The points of the operands below the two bounds at which `g` is one above the floor. -/
def raisedPoints (g : Nat → Nat → Nat → Nat) (lenBound ampBound : Nat) : List SinePoint :=
  (List.range lenBound).flatMap fun l => (List.range l).flatMap fun i =>
    ((List.range ampBound).filter fun A => g i l A = sineFloor i l A + 1).map fun A => ⟨i, l, A⟩

theorem mem_raisedPoints {g : Nat → Nat → Nat → Nat} {lenBound ampBound i l A : Nat} :
    (⟨i, l, A⟩ : SinePoint) ∈ raisedPoints g lenBound ampBound ↔
      l < lenBound ∧ i < l ∧ A < ampBound ∧ g i l A = sineFloor i l A + 1 := by
  simp only [raisedPoints, List.mem_flatMap, List.mem_map, List.mem_filter, List.mem_range, decide_eq_true_eq,
    SinePoint.mk.injEq]
  constructor
  · rintro ⟨l', hl, i', hi, A', ⟨hA, hg⟩, rfl, rfl, rfl⟩
    exact ⟨hl, hi, hA, hg⟩
  · rintro ⟨hl, hi, hA, hg⟩
    exact ⟨l, hl, i, hi, A, ⟨hA, hg⟩, rfl, rfl, rfl⟩

/-- The two integers less than 1 from x, at most. -/
theorem eq_floor_or_succ_of_abs_sub_lt_one {n : ℕ} {x : ℝ} (h : |(n : ℝ) - x| < 1) : n = ⌊x⌋₊ ∨ n = ⌊x⌋₊ + 1 := by
  obtain ⟨hlo, hhi⟩ := abs_lt.1 h
  have hle : ⌊x⌋₊ < n + 1 := (Nat.floor_lt' n.succ_ne_zero).2 (by push_cast; linarith)
  have hlt : n < ⌊x⌋₊ + 2 := by
    have : (n : ℝ) < (⌊x⌋₊ + 2 : ℕ) := by push_cast; linarith [Nat.lt_floor_add_one x]
    exact_mod_cast this
  omega

/-- A value n within the three bounds of R176 is the sample, if the point is listed exactly when n lies one above the floor:
at a rational phase both are the floor, elsewhere n is the floor or one above it. -/
theorem sineSample_eq_of_bounds {above : List SinePoint} {i l A n : ℕ} (hi : i < l) (hl : l < 2 ^ 32) (hle : n ≤ A)
    (hnear : |(n : ℝ) - A * (1 - Real.cos (2 * Real.pi * i / l)) / 2| < 1)
    (hrat : ¬Irrational (Real.cos (2 * Real.pi * i / l)) → n = ⌊(A : ℝ) * (1 - Real.cos (2 * Real.pi * i / l)) / 2⌋₊)
    (hmem : (⟨i, l, A⟩ : SinePoint) ∈ above ↔ n = sineFloor i l A + 1) : sineSample above i l A = n := by
  by_cases hp : (4 * i) % l = 0 ∨ (6 * i) % l = 0
  · obtain ⟨hcos, hsample⟩ := sineSample_eq_floor_of_rational_phase above A hi hp
    rw [hsample, hrat hcos]
  · obtain ⟨hfloor, hsample⟩ := sineSample_of_irrational_phase above A hi hl hp
    have htwo : n = sineFloor i l A ∨ n = sineFloor i l A + 1 := by
      rw [hfloor]
      exact eq_floor_or_succ_of_abs_sub_lt_one hnear
    rw [hsample]
    split_ifs with hin
    · rw [← hmem.1 hin, min_eq_right hle]
    · rw [← htwo.resolve_right (hin ∘ hmem.2), min_eq_right hle]

/-- No constraint of 00_scope.md R8 binds the list of points. -/
theorem valid_with_sineAbove {c : Cfg} (h : c.Valid) (points : List SinePoint) :
    Cfg.Valid { c with sineAbove := points } := h

/-- Settles O52: the list of the points at which the function is one above the floor gives it back. -/
theorem everyAdmittedSineSampleIsConfigurable : Obligations.EveryAdmittedSineSampleIsConfigurable := by
  intro g hg
  refine ⟨_, valid_with_sineAbove Tests.vc_valid (raisedPoints g (2 ^ 32) (2 ^ 16)), fun i l A hi hl hA => ?_⟩
  obtain ⟨hle, hnear, hrat⟩ := hg i l A hi hl hA
  refine sineSample_eq_of_bounds hi hl hle hnear hrat ?_
  rw [mem_raisedPoints]
  exact ⟨fun ⟨_, _, _, h⟩ => h, fun h => ⟨hl, hi, hA, h⟩⟩

end Sys2Proof.Machine
end

section
/-! The register space of 10_state.md (R32 to R44): what each offset reads and writes, and the bus in front of it. -/

namespace Sys2Proof.Machine

/-! ### The bus -/

theorem busOffset_aligned (c : Cfg) {off : Nat} (h : off % 4 = 0) : busOffset c 4 (c.regBase + off) = .ok off :=
  busOffset_ok_iff.2 ⟨rfl, rfl, h⟩

theorem busOffset_narrow_or_misaligned (c : Cfg) {size off : Nat} (h : size ≠ 4 ∨ off % 4 ≠ 0) :
    busOffset c size (c.regBase + off) = .error .badRegisterAccess := by
  unfold busOffset
  rw [if_neg (by omega), if_pos (by omega)]

theorem hostRead_aligned (s : State) {off : Nat} (h : off % 4 = 0) :
    hostRead 4 (s.cfg.regBase + off) s = .next (s.setBusData (readReg s off)) := by
  rw [hostRead, busOffset_aligned _ h, withVal_ok]

theorem hostWrite_aligned (s : State) (w : Word) {off : Nat} (h : off % 4 = 0) :
    hostWrite 4 (s.cfg.regBase + off) w s = writeReg s off w := by
  rw [hostWrite, busOffset_aligned _ h, withVal_ok]

theorem step_read {s : State} {off : Nat} {rest : List Action} (h : off % 4 = 0)
    (ha : s.agenda = .rd 4 (s.cfg.regBase + off) :: rest) :
    step s = .next ((s.setAgenda rest).setBusData (readReg s off)) := by
  rw [step_cons ha]
  exact hostRead_aligned (s.setAgenda rest) h

theorem step_write {s : State} {off : Nat} {w : Word} {rest : List Action} (h : off % 4 = 0)
    (ha : s.agenda = .wr 4 (s.cfg.regBase + off) w :: rest) : step s = writeReg (s.setAgenda rest) off w := by
  rw [step_cons ha]
  exact hostWrite_aligned (s.setAgenda rest) w h

/-! ### The registers -/

theorem readReg_reserved (s : State) {off : Nat} (h : off = 0x00 ∨ 0x1C ≤ off) : readReg s off = 0 := by
  unfold readReg
  rw [if_neg (by omega), if_neg (by omega), if_neg (by omega), if_neg (by omega), if_neg (by omega), if_neg (by omega)]

theorem writeReg_read_only (s : State) (w : Word) {off : Nat} (h : off = 0x04 ∨ off = 0x18 ∨ 0x1C ≤ off) :
    writeReg s off w = .next s := by
  unfold writeReg
  rw [if_neg (by omega), if_neg (by omega), if_neg (by omega), if_neg (by omega), if_neg (by omega)]

/-- A write of a register other than CMD reaches at most the ARG registers. -/
theorem writeReg_not_cmd (s : State) (w : Word) {off : Nat} (h : off ≠ 0x00) :
    ∃ a l r m : Word, writeReg s off w = .next { s with argAddr := a, argLen := l, argRate := r, argAmp := m } := by
  unfold writeReg
  rw [if_neg h]
  split_ifs
  · exact ⟨_, s.argLen, s.argRate, s.argAmp, rfl⟩
  · exact ⟨s.argAddr, _, s.argRate, s.argAmp, rfl⟩
  · exact ⟨s.argAddr, s.argLen, _, s.argAmp, rfl⟩
  · exact ⟨s.argAddr, s.argLen, s.argRate, _, rfl⟩
  · exact ⟨s.argAddr, s.argLen, s.argRate, s.argAmp, rfl⟩

/-! ### STATUS -/

theorem toNat_append_eq_add {m n : Nat} (x : BitVec m) (y : BitVec n) :
    (x ++ y).toNat = x.toNat * 2 ^ n + y.toNat := by
  rw [BitVec.toNat_append, ← Nat.shiftLeft_add_eq_or_of_lt y.isLt, Nat.shiftLeft_eq]

theorem statusWord_toNat (s : State) :
    (statusWord s).toNat = s.state.code.toNat + 4 * s.outEn.toNat + 8 * s.irqEn.toNat + 16 * s.irqPend.toNat +
      32 * s.run.toNat + 64 * s.mode.bit.toNat + 128 * s.actSel.bit.toNat := by
  simp only [statusWord, toNat_append_eq_add, BitVec.toNat_ofBool, BitVec.toNat_ofNat]
  omega

theorem statusWord_lt (s : State) : (statusWord s).toNat < 256 := by
  rw [statusWord_toNat]
  have := s.state.code.isLt
  have bit := Bool.toNat_le
  linarith [bit s.outEn, bit s.irqEn, bit s.irqPend, bit s.run, bit s.mode.bit, bit s.actSel.bit]

/-- Settles O7, offset by offset: a read changes the read-data port alone, a write other than CMD's at most ARG. -/
theorem registerAccessRights : Obligations.RegisterAccessRights := by
  intro s off rest hoff
  constructor
  · intro ha
    refine ⟨readReg s off, step_read hoff ha, readReg_reserved s, ?_, ?_, ?_, ?_, ?_, ?_⟩ <;> rintro rfl
    · exact ⟨rfl, statusWord_lt s⟩
    · exact lowBits_toNat _ _
    · exact lowBits_toNat _ _
    · exact lowBits_toNat _ _
    · exact lowBits_toNat _ _
    · have hread : readReg s 0x18 = s.result.code := rfl
      rw [hread]
      constructor <;> intro hr <;> rw [hr] <;> rfl
  · intro w ha
    rw [step_write hoff ha]
    exact ⟨writeReg_read_only _ w, writeReg_not_cmd (s.setAgenda rest) w⟩

/-- Settles O9: STATUS is the sum of its fields at their places, read without an effect and never written. -/
theorem statusViewLayout : Obligations.StatusViewLayout := by
  intro s
  refine ⟨?_, fun rest ha => step_read (off := 4) rfl ha, fun w rest ha => ?_⟩
  · rw [statusWord_toNat]
    cases s.state <;> cases s.mode <;> cases s.actSel <;> rfl
  · rw [step_write (off := 4) rfl ha]
    rfl

/-- Settles O10: the bus offset is refused before the register is looked at. -/
theorem narrowOrMisalignedAccessIsRefused : Obligations.NarrowOrMisalignedAccessIsRefused := by
  intro s size off w rest hbad
  have hoff := busOffset_narrow_or_misaligned s.cfg hbad
  constructor <;> intro ha <;> rw [step_cons ha]
  · rw [perform, hostRead, State.setAgenda_cfg, hoff, withVal_error]
  · rw [perform, hostWrite, State.setAgenda_cfg, hoff, withVal_error]

/-! ### ARG -/

/-- ARG[0] to ARG[3] (R32). -/
def State.args (s : State) : Word × Word × Word × Word := (s.argAddr, s.argLen, s.argRate, s.argAmp)

/-- Counting down changes nothing but REMAIN, RUN and IRQ_PEND. -/
theorem countDown_eq (s : State) :
    countDown s = { s with remain := (countDown s).remain, run := (countDown s).run,
                           irqPend := (countDown s).irqPend } := by
  unfold countDown
  split
  · split <;> rfl
  · rfl

theorem exec_keeps_args {i : Instr} {s t : State} (h : exec i s = .next t) : t.args = s.args := by
  cases exec_next h with
  | unchanged ht => rw [ht]
  | init _ _ ht => rw [ht, initBody_eq]; rfl
  | start _ _ _ _ _ _ _ _ ht => rw [ht, startBody_eq]; rfl
  | stop _ _ _ _ _ _ ht => rw [ht, stopBody_eq]; rfl
  | wave _ _ _ _ ht => rw [ht, fillCells_eq]; rfl
  | invalid _ ht => rw [ht]; rfl
  | tick _ _ _ _ _ _ ht => rw [ht, countDown_eq]; rfl
  | shutDown _ _ _ ht => rw [ht, shutDown_eq]; rfl
  | loop _ _ _ _ _ ht => rw [ht, beginLoop_eq]; rfl
  | acknowledge _ _ _ ht => rw [ht]; rfl
  | cursamp _ _ _ ht => rw [ht]; rfl
  | rampfill _ _ _ ht => rw [ht]; rfl
  | tdiv _ _ _ _ ht => rw [ht]; rfl

theorem lowBits_lowBits (n : Nat) (w : Word) : lowBits n (lowBits n w) = lowBits n w :=
  lowBits_of_lt (lowBits_lt n w)

/-- Settles O8: a write cuts the word, a second cut on reading changes nothing, and each operation frames ARG. -/
theorem argRegistersKeepTheirWidths : Obligations.ArgRegistersKeepTheirWidths := by
  refine ⟨fun s w => ⟨?_, ?_, ?_, ?_, ?_, ?_, ?_, ?_⟩, fun i s t h => ?_⟩
  · exact hostWrite_aligned s w rfl
  · exact hostWrite_aligned s w rfl
  · exact hostWrite_aligned s w rfl
  · exact hostWrite_aligned s w rfl
  · exact lowBits_lowBits _ w
  · exact lowBits_lowBits _ w
  · exact lowBits_lowBits _ w
  · exact lowBits_lowBits _ w
  · simpa only [State.args, Prod.mk.injEq] using exec_keeps_args h

end Sys2Proof.Machine
end

section
/-! The step as decode and exec (10_state.md R33, 20_memory.md R68), and which steps change STATE (10_state.md R21). -/

namespace Sys2Proof.Machine

/-! ### The decoded operation -/

/-- The host's write of CMD runs its word. -/
theorem perform_write_cmd (s : State) (w : Word) : perform (.wr 4 s.cfg.regBase w) s = runCode (.cmd w) s :=
  hostWrite_aligned s w (off := 0) rfl

theorem perform_codeAction (s : State) (c : Code) : perform (codeAction s.cfg c) s = runCode c s := by
  cases c with
  | cmd w => exact perform_write_cmd s w
  | evt tag => rfl
  | uop tag x y => rfl

theorem step_codeAction {s : State} {c : Code} {i : Instr} {rest : List Action}
    (ha : s.agenda = codeAction s.cfg c :: rest) (hd : decode c = .ok i) : step s = exec i (s.setAgenda rest) := by
  rw [step_cons ha, ← runCode_ok hd]
  exact perform_codeAction (s.setAgenda rest) c

theorem withFetchWord_of_tableCode (s : State) {nbits w : Nat} {c : Code} (h : tableCode nbits w = some c) :
    s.withFetchWord nbits w = s.setAgenda (codeAction s.cfg c :: s.agenda) := by
  rw [State.withFetchWord, scheduleWord, h]

/-- Settles O6: each code's action runs the code, and withFetchWord puts that action in front. -/
theorem stepRunsTheDecodedOperation : Obligations.StepRunsTheDecodedOperation := by
  refine ⟨fun s w i rest ha hd => step_codeAction (c := .cmd w) ha hd,
    fun s tag i rest ha hd => step_codeAction (c := .evt tag) ha hd,
    fun s tag x y i rest ha hd => step_codeAction (c := .uop tag x y) ha hd,
    fun s rest ha => step_cons ha, fun s ha => step_nil ha, fun s nbits w c i hc hd => ?_⟩
  rw [withFetchWord_of_tableCode s hc]
  exact step_codeAction (rest := s.agenda) rfl hd

/-! ### Which codes name a sequencer operation -/

theorem needWaveZero_ok {wave : BitVec 4} {i j : Instr} (h : needWaveZero wave i = .ok j) : wave = 0 ∧ j = i := by
  unfold needWaveZero at h
  split at h
  · cases h
    exact ⟨by assumption, rfl⟩
  · cases h

/-- The words R85 accepts, by opcode. -/
theorem decodeCmd_ok {w : Word} {i : Instr} (h : decodeCmd w = .ok i) :
    cmdMbz0 w = 0 ∧ cmdMbz1 w = 0 ∧
      ((cmdOpcode w = 1 ∧ cmdWave w = 0 ∧ i = .init) ∨ (cmdOpcode w = 2 ∧ cmdWave w = 0 ∧ i = .start) ∨
        (cmdOpcode w = 3 ∧ cmdWave w = 0 ∧ i = .stop) ∨ (cmdOpcode w = 4 ∧ i = decodeWave (cmdWave w))) := by
  unfold decodeCmd at h
  split at h
  · cases h
  · rename_i hz
    rw [not_or, not_not, not_not] at hz
    refine ⟨hz.1, hz.2, ?_⟩
    split at h
    · exact .inl ⟨by assumption, needWaveZero_ok h⟩
    · split at h
      · exact .inr (.inl ⟨by assumption, needWaveZero_ok h⟩)
      · split at h
        · exact .inr (.inr (.inl ⟨by assumption, needWaveZero_ok h⟩))
        · split at h
          · cases h
            exact .inr (.inr (.inr ⟨by assumption, rfl⟩))
          · cases h

/-- A CMD word is its four fields (R81). -/
theorem cmdWord_of_fields (w : Word) : cmdMbz1 w ++ cmdWave w ++ cmdMbz0 w ++ cmdOpcode w = w := by
  apply BitVec.eq_of_toNat_eq
  simp only [cmdMbz1, cmdWave, cmdMbz0, cmdOpcode, toNat_append_eq_add, BitVec.extractLsb'_toNat,
    Nat.shiftRight_eq_div_pow]
  omega

/-- GEN's wave field never gives START, STOP or COMPLETE. -/
theorem decodeWave_ne :
    ∀ wave, decodeWave wave ≠ .start ∧ decodeWave wave ≠ .stop ∧ decodeWave wave ≠ .complete := by decide

theorem decodeCmd_start {w : Word} (h : decodeCmd w = .ok .start) : w = 2 := by
  obtain ⟨h0, h1, ⟨-, -, h⟩ | ⟨ho, hw, -⟩ | ⟨-, -, h⟩ | ⟨-, h⟩⟩ := decodeCmd_ok h
  · cases h
  · rw [← cmdWord_of_fields w, h0, h1, ho, hw]
    rfl
  · cases h
  · exact absurd h.symm (decodeWave_ne _).1

theorem decodeCmd_ne_complete (w : Word) : decodeCmd w ≠ .ok .complete := by
  intro h
  obtain ⟨-, -, ⟨-, -, h⟩ | ⟨-, -, h⟩ | ⟨-, -, h⟩ | ⟨-, h⟩⟩ := decodeCmd_ok h
  · cases h
  · cases h
  · cases h
  · exact (decodeWave_ne _).2.2 h.symm

theorem decodeEvt_ok {tag : BitVec 2} {i : Instr} (h : decodeEvt tag = .ok i) :
    (tag = 1 ∧ i = .tick) ∨ (tag = 2 ∧ i = .complete) := by
  unfold decodeEvt at h
  split_ifs at h with h1 h2 <;> cases h
  · exact .inl ⟨h1, rfl⟩
  · exact .inr ⟨h2, rfl⟩

theorem decodeUop_ok {tag : BitVec 2} {x y : Word} {i : Instr} (h : decodeUop tag x y = .ok i) :
    i = .cursamp ∨ (∃ seed goal, i = .rampfill seed goal) ∨ ∃ rate, i = .tdiv rate := by
  unfold decodeUop at h
  split_ifs at h <;> cases h
  · exact .inl rfl
  · exact .inr (.inl ⟨_, _, rfl⟩)
  · exact .inr (.inr ⟨_, rfl⟩)

/-! ### STATE -/

/-- The operations that change STATE, and the one that leaves Stopped. -/
theorem exec_changes_state {i : Instr} {s t : State} (h : exec i s = .next t) (hne : t.state ≠ s.state) :
    i = .start ∨ ((i = .stop ∨ i = .complete) ∧ s.state ≠ .stopped) := by
  cases exec_next h with
  | start hi => exact .inl hi
  | stop hi hn => exact .inr ⟨.inl hi, hn⟩
  | shutDown hi _ hs => exact .inr ⟨.inr hi, by simp [hs]⟩
  | loop hi _ hs => exact .inr ⟨.inr hi, by simp [hs]⟩
  | init _ hs ht => exact absurd (by rw [ht, initBody_eq, hs]) hne
  | wave _ _ _ _ ht => exact absurd (by rw [ht, fillCells_eq]; rfl) hne
  | tick _ _ _ _ _ _ ht => exact absurd (by rw [ht, countDown_eq]; rfl) hne
  | unchanged ht => exact absurd (by rw [ht]) hne
  | invalid _ ht => exact absurd (by rw [ht]; rfl) hne
  | acknowledge _ _ _ ht => exact absurd (by rw [ht]; rfl) hne
  | cursamp _ _ _ ht => exact absurd (by rw [ht]; rfl) hne
  | rampfill _ _ _ ht => exact absurd (by rw [ht]; rfl) hne
  | tdiv _ _ _ _ ht => exact absurd (by rw [ht]; rfl) hne

theorem handlerBody_changes_state {s t : State} (h : handlerBody s = .next t) (hne : t.state ≠ s.state) :
    s.state ≠ .stopped := by
  rcases handlerBody_next h with ⟨hs, -⟩ | ⟨hs, -⟩ | ⟨-, rfl⟩
  · simp [hs]
  · simp [hs]
  · exact absurd rfl hne

/-- The commands that change STATE. -/
theorem writeReg_changes_state {off : Nat} {w : Word} {s t : State} (h : writeReg s off w = .next t)
    (hne : t.state ≠ s.state) :
    off = 0 ∧ (decode (.cmd w) = .ok .start ∨ (decode (.cmd w) = .ok .stop ∧ s.state ≠ .stopped)) := by
  rcases writeReg_next h with ⟨hoff, h⟩ | ⟨-, rfl⟩ | ⟨-, rfl⟩ | ⟨-, rfl⟩ | ⟨-, rfl⟩ | rfl
  · obtain ⟨i, hd, h⟩ := runCode_next h
    rcases exec_changes_state h hne with rfl | ⟨rfl | rfl, hs⟩
    · exact ⟨hoff, .inl hd⟩
    · exact ⟨hoff, .inr ⟨hd, hs⟩⟩
    · exact absurd hd (decodeCmd_ne_complete w)
  all_goals exact absurd rfl hne

theorem runCode_evt_changes_state {tag : BitVec 2} {s t : State} (h : runCode (.evt tag) s = .next t)
    (hne : t.state ≠ s.state) : tag = 2 ∧ s.state ≠ .stopped := by
  obtain ⟨i, hd, h⟩ := runCode_next h
  rcases decodeEvt_ok hd with ⟨rfl, rfl⟩ | ⟨rfl, rfl⟩ <;> simpa using exec_changes_state h hne

theorem runCode_uop_keeps_state {tag : BitVec 2} {x y : Word} {s t : State} (h : runCode (.uop tag x y) s = .next t) :
    t.state = s.state := by
  obtain ⟨i, hd, h⟩ := runCode_next h
  by_contra hne
  have hi := exec_changes_state h hne
  rcases decodeUop_ok hd with rfl | ⟨_, _, rfl⟩ | ⟨_, rfl⟩ <;> simp at hi

/-- The actions that change STATE, and the one that leaves Stopped. -/
theorem perform_changes_state {a : Action} {s t : State} (h : perform a s = .next t) (hne : t.state ≠ s.state) :
    (∃ w, a = .wr 4 s.cfg.regBase w ∧ decode (.cmd w) = .ok .start) ∨
      (((∃ w, a = .wr 4 s.cfg.regBase w ∧ decode (.cmd w) = .ok .stop) ∨
          a = .evt 2 ∨ a = .handler ∨ a = .rst) ∧ s.state ≠ .stopped) := by
  rcases perform_next h with ⟨_, _, _, -, -, rfl⟩ | ⟨size, addr, w, off, ha, hb, h⟩ | ⟨_, _, -, -, rfl⟩ |
    ⟨tag, ha, h⟩ | ⟨ha, h⟩ | ⟨_, _, _, -, h⟩ | ⟨ha, rfl⟩
  · exact absurd rfl hne
  · obtain ⟨rfl, rfl, -⟩ := busOffset_ok_iff.1 hb
    obtain ⟨rfl, hd | ⟨hd, hs⟩⟩ := writeReg_changes_state h hne
    · exact .inl ⟨w, ha, hd⟩
    · exact .inr ⟨.inl ⟨w, ha, hd⟩, hs⟩
  · exact absurd rfl hne
  · obtain ⟨rfl, hs⟩ := runCode_evt_changes_state h hne
    exact .inr ⟨.inr (.inl ha), hs⟩
  · exact .inr ⟨.inr (.inr (.inl ha)), handlerBody_changes_state h hne⟩
  · exact absurd (runCode_uop_keeps_state h) hne
  · exact .inr ⟨.inr (.inr (.inr ha)), Ne.symm hne⟩

/-- Settles O35: of the actions that change STATE only START's word, which is 2, does so in Stopped. -/
theorem onlySequencerStepsChangeState : Obligations.OnlySequencerStepsChangeState := by
  intro s t a rest ha h hne
  rw [step_cons ha] at h
  rcases perform_changes_state h hne with ⟨w, haw, hd⟩ | ⟨⟨w, haw, hd⟩ | hevent, hs⟩
  · exact ⟨.inl ⟨w, haw, .inl hd⟩, fun _ => decodeCmd_start hd ▸ haw⟩
  · exact ⟨.inl ⟨w, haw, .inr hd⟩, fun h => absurd h hs⟩
  · exact ⟨.inr hevent, fun h => absurd h hs⟩

end Sys2Proof.Machine
end

section
/-! The invariant State.Inv (10_state.md R39, R40): it holds at reset, and each operation keeps it, one lemma each. -/

namespace Sys2Proof.Machine

/-! ### The sequencer's part, where everything was just turned off and where a ramp was just begun -/

/-- A stopped state with everything off meets R39 and R40, whatever else it holds. -/
theorem sequenced_of_off {s : State} (hstate : s.state = .stopped) (hout : s.outEn = false) (hrun : s.run = false)
    (hirq : s.irqEn = false) : s.Sequenced := by
  constructor <;> simp [hstate, hout, hrun, hirq]

/-- The start of a ramp meets R39 and R40, if the target of a ramp up is one START accepts. -/
theorem sequenced_of_ramp_begun {s : State} (hn : 1 ≤ s.cfg.nRamp) (hstate : s.ramping) (hout : s.outEn = true)
    (hsel : s.actSel = .ramp) (hlen : s.actLen = s.cfg.nRamp) (hmode : s.mode = .oneShot) (hrun : s.run = true)
    (hremain : s.remain = s.cfg.nRamp) (hirq : s.irqEn = true)
    (htarget : s.state = .rampingUp → 1 ≤ s.tgtLen ∧ s.tgtAddr + s.tgtLen ≤ s.cfg.memCells ∧
      (timerDivide s.cfg s.tgtRate).toOption.isSome = true) : s.Sequenced where
  position _ := ⟨hremain ▸ hn, by rw [hremain, hlen]⟩
  runEnabled _ := hout
  stopped h := by simp [State.ramping, h] at hstate
  active _ := hout
  playing h := by simp [State.ramping, h] at hstate
  ramping _ := ⟨hsel, hlen, hmode, hirq⟩
  rampEnded _ h := by simp [hrun] at h
  target := htarget
  looped h := by simp [State.ramping, h] at hstate

/-! ### The memory's part -/

theorem storeSample_storeOk {s : State} (h : s.StoreOk) {a : Nat} (ha : a < s.cfg.memCells) (v : Sample) :
    (s.storeSample a v).StoreOk where
  memWf := Memory.writeCell_wf h.memWf _ _ _
  memInside p hp := by
    rw [storeSample_cfg]
    rcases Memory.mem_writeCell hp with hp | hp
    · exact h.memInside p hp
    · omega
  marksRise := by
    rw [storeSample_unsettled]
    split
    · exact markCell_rises h.marksRise a
    · exact h.marksRise
  marksInside b hb := by
    rw [storeSample_unsettled] at hb
    split at hb
    · rcases mem_markCell.1 hb with rfl | hb
      · exact ha
      · exact h.marksInside b hb
    · exact h.marksInside b hb

/-! ### Reset -/

theorem resetWith_widths (c : Cfg) : (State.resetWith c).Widths where
  actAddr := Nat.two_pow_pos _
  actLen := Nat.two_pow_pos _
  tgtAddr := Nat.two_pow_pos _
  tgtLen := Nat.two_pow_pos _
  tgtRate := Nat.two_pow_pos _
  remain := Nat.two_pow_pos _
  timerPeriod := Nat.two_pow_pos _
  argAddr := Nat.two_pow_pos _
  argLen := Nat.two_pow_pos _
  argRate := Nat.two_pow_pos _
  argAmp := Nat.two_pow_pos _
  ramp := List.length_replicate

theorem resetWith_storeOk (c : Cfg) : (State.resetWith c).StoreOk where
  memWf := Memory.wf_nil
  memInside _ hp := absurd hp List.not_mem_nil
  marksRise := List.Pairwise.nil
  marksInside _ ha := absurd ha List.not_mem_nil

theorem resetWith_inv {c : Cfg} (h : c.Valid) : (State.resetWith c).Inv :=
  ⟨h, resetWith_widths c, resetWith_storeOk c, sequenced_of_off rfl rfl rfl rfl⟩

theorem statusWord_of_off {s : State} (hstate : s.state = .stopped) (hsel : s.actSel = .ramp)
    (hmode : s.mode = .oneShot) (hrun : s.run = false) (hout : s.outEn = false) (hirq : s.irqEn = false)
    (hpend : s.irqPend = false) : statusWord s = 0 := by
  rw [statusWord, hstate, hsel, hmode, hrun, hout, hirq, hpend]
  rfl

/-- Settles O11: both forms of reset give the record of State.resetWith, up to the agenda and the draw counter. -/
theorem resetEstablishesStopped : Obligations.ResetEstablishesStopped := by
  intro s t h
  have hreset : ∃ c draws agenda, t = ((State.resetWith c).setDraws draws).setAgenda agenda := by
    rcases h with ⟨c, rfl⟩ | h
    · exact ⟨c, 0, [], rfl⟩
    · cases h
      exact ⟨s.cfg, s.draws, s.agenda, rfl⟩
  obtain ⟨c, draws, agenda, rfl⟩ := hreset
  exact ⟨rfl, rfl, rfl, rfl, rfl, rfl, rfl, rfl, rfl, rfl, rfl, rfl, rfl, rfl,
    statusWord_of_off rfl rfl rfl rfl rfl rfl rfl⟩

/-- Settles O12: everything is off, every register fits and the memory is empty; VC is admitted. -/
theorem resetMeetsTheInvariant : Obligations.ResetMeetsTheInvariant :=
  ⟨fun _ h => resetWith_inv h, resetWith_inv Tests.vc_valid⟩

/-! ### The operations -/

section

variable {s : State}

/-- The invariant reads none of RESULT, OUT, DAC_HOLD and the model's own fields but the marks. -/
theorem State.Inv.of_unread (h : s.Inv) {result : GenStatus} {out : List Sample} {dacHold : Sample} {draws uopRet : Nat}
    {busData : Word} {agenda : List Action} :
    State.Inv { s with result := result, out := out, dacHold := dacHold, draws := draws, uopRet := uopRet,
                       busData := busData, agenda := agenda } :=
  ⟨h.cfgValid, { h.widths with }, { h.store with }, { h.sequenced with }⟩

theorem initBody_keeps_inv (h : s.Inv) : (initBody s).Inv :=
  ⟨h.cfgValid, { h.widths with remain := Nat.two_pow_pos _ }, { h.store with }, sequenced_of_off rfl rfl rfl rfl⟩

theorem startBody_keeps_inv (h : s.Inv) (hc : startCheck s = .ok ()) (seed goal : Sample) {p : Nat}
    (hp : timerDivide s.cfg s.cfg.rampRate = .ok p) :
    (startBody (opAddr s) (opLen s) (opRate s) seed goal p s).Inv := by
  obtain ⟨⟨hn, hfits⟩, -⟩ := h.cfgValid
  obtain ⟨hlen, hmem, hrate⟩ := startCheck_ok_iff.1 hc
  rw [startBody_eq]
  exact {
    cfgValid := h.cfgValid
    widths := { h.widths with
      actLen := hfits
      remain := hfits
      tgtAddr := opAddr_lt s
      tgtLen := opLen_lt s
      tgtRate := opRate_lt s
      timerPeriod := (timerDivide_ok_iff.1 hp).2.2.2
      ramp := rampCells_length _ _ _ }
    store := { h.store with }
    sequenced := sequenced_of_ramp_begun hn (.inl rfl) rfl rfl rfl rfl rfl rfl rfl fun _ =>
      ⟨Nat.pos_of_ne_zero hlen, hmem, timerDivide_isSome_iff.2 hrate⟩ }

theorem stopBody_keeps_inv (h : s.Inv) (hs : s.state ≠ .stopped) (seed : Sample) {p : Nat}
    (hp : timerDivide s.cfg s.cfg.rampRate = .ok p) : (stopBody seed p s).Inv := by
  obtain ⟨⟨hn, hfits⟩, -⟩ := h.cfgValid
  rw [stopBody_eq]
  exact {
    cfgValid := h.cfgValid
    widths := { h.widths with
      actLen := hfits
      remain := hfits
      timerPeriod := (timerDivide_ok_iff.1 hp).2.2.2
      ramp := rampCells_length _ _ _ }
    store := { h.store with }
    sequenced := sequenced_of_ramp_begun hn (.inr rfl) (h.sequenced.active hs) rfl rfl rfl rfl rfl rfl
      fun hup => by simp at hup }

theorem storeSample_keeps_inv (h : s.Inv) {a : Nat} (ha : a < s.cfg.memCells) (v : Sample) : (s.storeSample a v).Inv :=
  ⟨h.cfgValid, { h.widths with }, storeSample_storeOk h.store ha v, { h.sequenced with }⟩

theorem fillCells_keeps_inv (h : s.Inv) (f : Nat → Nat) {a n i : Nat} (hfit : a + i + n ≤ s.cfg.memCells) :
    (fillCells f a n i s).Inv := by
  induction n generalizing i s with
  | zero => exact h
  | succ n ih => exact ih (storeSample_keeps_inv h (by omega) _) (by rw [storeSample_cfg]; omega)

/-- The tick that leaves samples counts one off; the last one reloads the loop or ends the ramp with IRQ_PEND set. -/
theorem countDown_keeps_inv (h : s.Inv) (hrun : s.run = true) : (countDown s).Inv := by
  obtain ⟨hcfg, hwidths, hstore, hseq⟩ := h
  obtain ⟨hlow, hhigh⟩ := hseq.position hrun
  have hfits := hwidths.remain
  by_cases hmore : 2 ≤ s.remain
  · rw [countDown_more hmore]
    have hsub : s.remain - 1 < 2 ^ s.cfg.lenBits := by omega
    have hposition : 1 ≤ s.remain - 1 ∧ s.remain - 1 ≤ s.actLen := by omega
    exact ⟨hcfg, { hwidths with remain := hsub }, { hstore with }, { hseq with
      position := fun _ => hposition
      rampEnded := fun _ hstop => by simp [hrun] at hstop }⟩
  · cases hm : s.mode with
    | autoRepeat =>
      rw [countDown_last_autoRepeat (by omega) hm]
      exact ⟨hcfg, { hwidths with remain := hwidths.actLen }, { hstore with }, { hseq with
        position := fun _ => ⟨le_trans hlow hhigh, le_refl _⟩
        rampEnded := fun _ hstop => by simp [hrun] at hstop }⟩
    | oneShot =>
      rw [countDown_last_oneShot (by omega) hm]
      exact ⟨hcfg, { hwidths with remain := Nat.two_pow_pos _ }, { hstore with }, { hseq with
        position := fun hgo => by simp at hgo
        runEnabled := fun hgo => by simp at hgo
        stopped := fun hs => ⟨(hseq.stopped hs).1, rfl, (hseq.stopped hs).2.2⟩
        playing := fun hs => by simp [(hseq.playing hs).1] at hm
        rampEnded := fun _ _ => ⟨rfl, rfl⟩ }⟩

theorem shutDown_keeps_inv (h : s.Inv) : (shutDown s).Inv :=
  ⟨h.cfgValid, { h.widths with }, { h.store with }, sequenced_of_off rfl rfl rfl rfl⟩

theorem beginLoop_keeps_inv (h : s.Inv) (hs : s.state = .rampingUp) {p : Nat}
    (hp : timerDivide s.cfg s.tgtRate = .ok p) : (beginLoop p s).Inv := by
  obtain ⟨hlen, hfit, -⟩ := h.sequenced.target hs
  have hout : s.outEn = true := h.sequenced.active (by simp [hs])
  rw [beginLoop_eq]
  exact {
    cfgValid := h.cfgValid
    widths := { h.widths with
      actAddr := h.widths.tgtAddr
      actLen := h.widths.tgtLen
      remain := h.widths.tgtLen
      timerPeriod := (timerDivide_ok_iff.1 hp).2.2.2 }
    store := { h.store with }
    sequenced := {
      position := fun _ => ⟨hlen, le_refl _⟩
      runEnabled := fun _ => hout
      stopped := fun hstop => by simp at hstop
      active := fun _ => hout
      playing := fun _ => ⟨rfl, rfl, rfl, rfl⟩
      ramping := fun hramp => by simp [State.ramping] at hramp
      rampEnded := fun hramp => by simp [State.ramping] at hramp
      target := fun hup => by simp at hup
      looped := fun _ => hfit } }

/-- The acknowledge breaks no rule outside a ramp: only R40(f) reads IRQ_PEND. -/
theorem takeCompletion_keeps_inv (h : s.Inv) (hr : ¬ s.ramping) : (takeCompletion s).Inv :=
  ⟨h.cfgValid, { h.widths with }, { h.store with },
    { h.sequenced with rampEnded := fun hramping => absurd hramping hr }⟩

theorem rampFill_keeps_inv (h : s.Inv) (seed goal : Sample) : (rampFill seed goal s).Inv :=
  ⟨h.cfgValid, { h.widths with ramp := rampCells_length _ _ _ }, { h.store with }, { h.sequenced with }⟩

end

/-- The acknowledge of a ramp's COMPLETE commutes with the arm's body, which leaves the ramp. -/
theorem exec_keeps_inv {i : Instr} {s t : State} (h : s.Inv) (he : exec i s = .next t) : t.Inv := by
  cases exec_next he with
  | unchanged ht => exact ht ▸ h
  | init _ _ ht => exact ht ▸ initBody_keeps_inv h
  | start _ hc _ _ _ _ _ hp ht => exact ht ▸ (startBody_keeps_inv h hc _ _ hp).of_unread
  | stop _ hn _ _ _ hp ht => exact ht ▸ (stopBody_keeps_inv h hn _ hp).of_unread
  | wave _ _ _ hfit ht => exact ht ▸ (fillCells_keeps_inv h _ (by omega)).of_unread
  | invalid _ ht => exact ht ▸ h.of_unread
  | tick _ hr _ _ v _ ht => exact ht ▸ countDown_keeps_inv h.of_unread hr
  | shutDown _ _ _ ht =>
    exact ht ▸ takeCompletion_keeps_inv (shutDown_keeps_inv h) (by simp [State.ramping, shutDown_eq])
  | loop _ _ hs p hp ht =>
    exact ht ▸ takeCompletion_keeps_inv (beginLoop_keeps_inv h hs hp) (by simp [State.ramping, beginLoop_eq])
  | acknowledge _ _ hs ht =>
    exact ht ▸ takeCompletion_keeps_inv h (by rcases hs with hs | hs <;> simp [State.ramping, hs])
  | cursamp _ _ _ ht => exact ht ▸ h.of_unread
  | rampfill _ _ _ ht => exact ht ▸ rampFill_keeps_inv h _ _
  | tdiv _ _ _ _ ht => exact ht ▸ h.of_unread

/-! ### The agents and the step -/

theorem runCode_keeps_inv {c : Code} {s t : State} (h : s.Inv) (he : runCode c s = .next t) : t.Inv := by
  obtain ⟨i, -, he⟩ := runCode_next he
  exact exec_keeps_inv h he

theorem handlerBody_keeps_inv {s t : State} (h : s.Inv) (he : handlerBody s = .next t) : t.Inv := by
  rcases handlerBody_next he with ⟨-, rfl⟩ | ⟨hs, p, hp, rfl⟩ | ⟨-, rfl⟩
  · exact shutDown_keeps_inv h
  · exact beginLoop_keeps_inv h hs hp
  · exact h

theorem writeReg_keeps_inv {off : Nat} {w : Word} {s t : State} (h : s.Inv) (he : writeReg s off w = .next t) :
    t.Inv := by
  rcases writeReg_next he with ⟨-, he⟩ | ⟨-, rfl⟩ | ⟨-, rfl⟩ | ⟨-, rfl⟩ | ⟨-, rfl⟩ | rfl
  · exact runCode_keeps_inv h he
  · exact ⟨h.cfgValid, { h.widths with argAddr := lowBits_lt _ _ }, { h.store with }, { h.sequenced with }⟩
  · exact ⟨h.cfgValid, { h.widths with argLen := lowBits_lt _ _ }, { h.store with }, { h.sequenced with }⟩
  · exact ⟨h.cfgValid, { h.widths with argRate := lowBits_lt _ _ }, { h.store with }, { h.sequenced with }⟩
  · exact ⟨h.cfgValid, { h.widths with argAmp := lowBits_lt _ _ }, { h.store with }, { h.sequenced with }⟩
  · exact h

theorem perform_keeps_inv {a : Action} {s t : State} (h : s.Inv) (he : perform a s = .next t) : t.Inv := by
  rcases perform_next he with ⟨_, _, _, -, -, rfl⟩ | ⟨_, _, _, _, -, -, he⟩ | ⟨_, _, -, hc, rfl⟩ | ⟨_, -, he⟩ | ⟨-, he⟩ |
    ⟨_, _, _, -, he⟩ | ⟨-, rfl⟩
  · exact h.of_unread
  · exact writeReg_keeps_inv h he
  · exact storeSample_keeps_inv h hc _
  · exact runCode_keeps_inv h he
  · exact handlerBody_keeps_inv h he
  · exact runCode_keeps_inv h he
  · exact (resetWith_inv h.cfgValid).of_unread

/-- Settles O13: taking an action off the agenda is not seen by the invariant, and every agent's action keeps it. -/
theorem everyStepKeepsTheInvariant : Obligations.EveryStepKeepsTheInvariant := by
  intro s t h he
  rcases step_next he with ⟨-, rfl⟩ | ⟨a, rest, -, he⟩
  · exact h
  · exact perform_keeps_inv h.of_unread he

end Sys2Proof.Machine
end

section
/-! The byte order of 20_memory.md R62 is not observable: two machines with the same cells answer every action alike. -/

namespace Sys2Proof.Machine

/-! ### The same machine over another overlay of its cells -/

/-- The machine with its sample memory replaced by the bytes `m`, laid out in the order `o`. -/
def State.relaid (s : State) (o : ByteOrder) (m : Memory) : State :=
  { s with cfg := { s.cfg with byteOrder := o }, mem := m }

/-- An update that neither reads nor writes the layout of the sample memory. -/
def LayoutBlind (f : State → State) : Prop := ∀ s o m, f (s.relaid o m) = (f s).relaid o m

/-- A machine is its own relaying, so a blind update leaves it the layout it had. -/
theorem LayoutBlind.eq_relaid {f : State → State} (hf : LayoutBlind f) (s : State) :
    f s = (f s).relaid s.cfg.byteOrder s.mem :=
  hf s s.cfg.byteOrder s.mem

theorem LayoutBlind.mem {f : State → State} (hf : LayoutBlind f) (s : State) : (f s).mem = s.mem := by
  rw [hf.eq_relaid]
  rfl

theorem LayoutBlind.cell {f : State → State} (hf : LayoutBlind f) (s : State) (a : Nat) : (f s).cell a = s.cell a := by
  rw [hf.eq_relaid]
  rfl

theorem countDown_layoutBlind : LayoutBlind countDown := by
  intro s o m
  unfold countDown
  show (if s.remain - 1 = 0 then _ else _) = _
  split
  · show (match s.mode with | .autoRepeat => _ | .oneShot => _) = _
    cases s.mode <;> rfl
  · rfl

/-! ### Machines with the same cells -/

namespace State.SameCells

variable {s t : State}

theorem eq_relaid (h : s.SameCells t) : t = s.relaid t.cfg.byteOrder t.mem := h.1

theorem cell (h : s.SameCells t) (a : Nat) : t.cell a = s.cell a :=
  have ⟨_, _, _, hcell⟩ := h
  hcell a

/-- What does not depend on the layout is the same in both machines. -/
theorem eq_of_blind {α : Type} (h : s.SameCells t) (f : State → α) (hf : ∀ o m, f (s.relaid o m) = f s) : f t = f s :=
  (congrArg f h.eq_relaid).trans (hf _ _)

/-- An update that does not see the layout leaves machines with the same cells. -/
theorem map (h : s.SameCells t) (f : State → State) (hf : LayoutBlind f) : (f s).SameCells (f t) := by
  have ⟨_, hs, ht, _⟩ := h
  refine ⟨?_, by rwa [hf.mem], by rwa [hf.mem], fun a => by rw [hf.cell, hf.cell, h.cell]⟩
  have hft : f t = (f s).relaid t.cfg.byteOrder t.mem := (congrArg f h.eq_relaid).trans (hf _ _ _)
  rw [hft]
  rfl

theorem storeSample (h : s.SameCells t) (a : Nat) (v : Sample) : (s.storeSample a v).SameCells (t.storeSample a v) := by
  have ⟨_, hs, ht, _⟩ := h
  refine ⟨?_, Memory.writeCell_wf hs _ _ _, Memory.writeCell_wf ht _ _ _, fun b => ?_⟩
  · rw [h.eq_relaid]
    rfl
  · by_cases hb : b = a
    · rw [hb, cell_storeSample_self hs, cell_storeSample_self ht]
    · rw [cell_storeSample_ne _ _ hb, cell_storeSample_ne _ _ hb, h.cell]

theorem fillCells (h : s.SameCells t) (f : Nat → Nat) (a n i : Nat) :
    (fillCells f a n i s).SameCells (fillCells f a n i t) := by
  induction n generalizing i s t with
  | zero => exact h
  | succ n ih => exact ih (h.storeSample _ _) (i + 1)

/-- After a reset both memories are empty, and an unlisted byte reads alike at either place of a cell. -/
theorem hardReset (h : s.SameCells t) : (hardReset s).SameCells (hardReset t) := by
  refine ⟨?_, Memory.wf_nil, Memory.wf_nil, fun _ => rfl⟩
  rw [h.eq_relaid]
  rfl

/-! ### What both machines read -/

theorem state_eq (h : s.SameCells t) : t.state = s.state := h.eq_of_blind (·.state) fun _ _ => rfl

theorem memCells_eq (h : s.SameCells t) : t.cfg.memCells = s.cfg.memCells :=
  h.eq_of_blind (·.cfg.memCells) fun _ _ => rfl

theorem rampPeriod_eq (h : s.SameCells t) :
    timerDivide t.cfg t.cfg.rampRate = timerDivide s.cfg s.cfg.rampRate :=
  h.eq_of_blind (fun u => timerDivide u.cfg u.cfg.rampRate) fun _ _ => rfl

theorem memRead (h : s.SameCells t) (k a : Nat) : memRead k t a = memRead k s a := by
  have hmarks : t.unsettled = s.unsettled := h.eq_of_blind (·.unsettled) fun _ _ => rfl
  rw [Machine.memRead, Machine.memRead, h.memCells_eq, hmarks, h.cell]

theorem actRead (h : s.SameCells t) (k i : Nat) : actRead k t i = actRead k s i := by
  have hsel : t.actSel = s.actSel := h.eq_of_blind (·.actSel) fun _ _ => rfl
  cases hs : s.actSel with
  | ramp =>
    rw [actRead_ramp hs, actRead_ramp (hsel.trans hs)]
    exact h.eq_of_blind (rampRead · i) fun _ _ => rfl
  | external =>
    rw [actRead_external hs, actRead_external (hsel.trans hs), h.memRead]
    exact h.eq_of_blind (fun u => Machine.memRead k s (u.actAddr + i)) fun _ _ => rfl

theorem curSamp (h : s.SameCells t) (k : Nat) : curSamp k t = curSamp k s := by
  by_cases hs : s.state = .stopped
  · rw [curSamp_stopped hs, curSamp_stopped (h.state_eq.trans hs)]
    exact h.eq_of_blind (fun u => Except.ok u.cfg.silence) fun _ _ => rfl
  · rw [curSamp_active hs, curSamp_active (h.state_eq ▸ hs), h.actRead]
    exact h.eq_of_blind (fun u => Machine.actRead k s (liveIndex u)) fun _ _ => rfl

/-- CURSAMP as the operations call it, with the draw counter's own number. -/
theorem curSamp_draws (h : s.SameCells t) : Machine.curSamp t.draws t = Machine.curSamp s.draws s :=
  (h.curSamp _).trans (h.eq_of_blind (fun u => Machine.curSamp u.draws s) fun _ _ => rfl)

end State.SameCells

/-! ### Answers that differ in the layout alone -/

/-- Next states with the same cells, or the same refusal. -/
inductive SameAnswer : Res → Res → Prop
  | next {s t : State} (h : s.SameCells t) : SameAnswer (.next s) (.next t)
  | refused (e : Refusal) : SameAnswer (.refused e) (.refused e)

theorem SameAnswer.withVal {α : Type} {r : Except Refusal α} {k k' : α → Res} (h : ∀ v, SameAnswer (k v) (k' v)) :
    SameAnswer (withVal r k) (withVal r k') := by
  cases r with
  | ok v => exact h v
  | error e => exact .refused e

theorem SameAnswer.of_next {s : State} {r : Res} (h : SameAnswer (.next s) r) : ∃ t, r = .next t ∧ s.SameCells t := by
  cases h with
  | next h => exact ⟨_, rfl, h⟩

theorem SameAnswer.of_refused {e : Refusal} {r : Res} (h : SameAnswer (.refused e) r) : r = .refused e := by
  cases h
  rfl

/-! ### The operations -/

section

variable {s t : State}

theorem execInit_sameAnswer (h : s.SameCells t) : SameAnswer (execInit s) (execInit t) := by
  rw [execInit, execInit, h.state_eq]
  cases s.state with
  | stopped => exact .next (h.map initBody fun _ _ _ => rfl)
  | rampingUp | playing | rampingDown => exact .refused _

theorem execStart_sameAnswer (h : s.SameCells t) : SameAnswer (execStart s) (execStart t) := by
  have hcheck : startCheck t = startCheck s := h.eq_of_blind startCheck fun _ _ => rfl
  have hgoal : memRead (t.draws + 1) t (opAddr t) = memRead (s.draws + 1) s (opAddr s) :=
    (h.memRead _ _).trans (h.eq_of_blind (fun u => memRead (u.draws + 1) s (opAddr u)) fun _ _ => rfl)
  rw [execStart, execStart, hcheck, h.curSamp_draws, hgoal, h.rampPeriod_eq]
  exact .withVal fun _ => .withVal fun seed => .withVal fun goal => .withVal fun p => .next <|
    h.map (fun u => (startBody (opAddr u) (opLen u) (opRate u) seed goal p u).setDraws (u.draws + 2))
      fun _ _ _ => rfl

theorem stopActive_sameAnswer (h : s.SameCells t) : SameAnswer (stopActive s) (stopActive t) := by
  rw [stopActive, stopActive, h.curSamp_draws, h.rampPeriod_eq]
  exact .withVal fun seed => .withVal fun p => .next <|
    h.map (fun u => (stopBody seed p u).setDraws (u.draws + 1)) fun _ _ _ => rfl

theorem execStop_sameAnswer (h : s.SameCells t) : SameAnswer (execStop s) (execStop t) := by
  rw [execStop, execStop, h.state_eq]
  cases s.state with
  | stopped => exact .next h
  | rampingUp | playing | rampingDown => exact stopActive_sameAnswer h

theorem genWave_sameAnswer (h : s.SameCells t) (f : Nat → Nat → Nat → Nat) :
    SameAnswer (genWave f s) (genWave f t) := by
  have hlen : opLen t = opLen s := h.eq_of_blind opLen fun _ _ => rfl
  have haddr : opAddr t = opAddr s := h.eq_of_blind opAddr fun _ _ => rfl
  have hamp : opAmp t = opAmp s := h.eq_of_blind opAmp fun _ _ => rfl
  rw [genWave, genWave, hlen, haddr, hamp, h.memCells_eq]
  split
  · exact .next (h.map (·.setResult .invalidArgument) fun _ _ _ => rfl)
  · split
    · exact .refused _
    · exact .next ((h.fillCells _ _ _ _).map (·.setResult .ok) fun _ _ _ => rfl)

theorem execGenSine_sameAnswer (h : s.SameCells t) : SameAnswer (execGenSine s) (execGenSine t) := by
  have habove : t.cfg.sineAbove = s.cfg.sineAbove := h.eq_of_blind (·.cfg.sineAbove) fun _ _ => rfl
  rw [execGenSine, execGenSine, habove]
  exact genWave_sameAnswer h _

theorem genBadWave_sameAnswer (h : s.SameCells t) : SameAnswer (genBadWave s) (genBadWave t) :=
  .next (h.map (·.setResult .invalidArgument) fun _ _ _ => rfl)

theorem tickRunning_sameAnswer (h : s.SameCells t) : SameAnswer (tickRunning s) (tickRunning t) := by
  have hremain : t.remain = s.remain := h.eq_of_blind (·.remain) fun _ _ => rfl
  have hlen : t.actLen = s.actLen := h.eq_of_blind (·.actLen) fun _ _ => rfl
  have hdraws : t.draws = s.draws := h.eq_of_blind (·.draws) fun _ _ => rfl
  rw [tickRunning, tickRunning, hremain, hlen, hdraws, h.actRead]
  split
  · exact .refused _
  · exact .withVal fun v => .next <|
      (h.map (fun u => (u.emitSample v).setDraws (s.draws + 1)) fun _ _ _ => rfl).map _ countDown_layoutBlind

theorem execTick_sameAnswer (h : s.SameCells t) : SameAnswer (execTick s) (execTick t) := by
  have hrun : t.run = s.run := h.eq_of_blind (·.run) fun _ _ => rfl
  rw [execTick, execTick, hrun]
  split
  · exact tickRunning_sameAnswer h
  · exact .next h

theorem handlerBody_sameAnswer (h : s.SameCells t) : SameAnswer (handlerBody s) (handlerBody t) := by
  have hperiod : timerDivide t.cfg t.tgtRate = timerDivide s.cfg s.tgtRate :=
    h.eq_of_blind (fun u => timerDivide u.cfg u.tgtRate) fun _ _ => rfl
  rw [handlerBody, handlerBody, h.state_eq, hperiod]
  cases s.state with
  | rampingDown => exact .next (h.map shutDown fun _ _ _ => rfl)
  | rampingUp => exact .withVal fun p => .next (h.map (beginLoop p) fun _ _ _ => rfl)
  | playing | stopped => exact .next h

theorem execComplete_sameAnswer (h : s.SameCells t) : SameAnswer (execComplete s) (execComplete t) := by
  have hline : irqLine t = irqLine s := h.eq_of_blind irqLine fun _ _ => rfl
  rw [execComplete, execComplete, hline]
  split
  · exact handlerBody_sameAnswer (h.map takeCompletion fun _ _ _ => rfl)
  · exact .next h

theorem execCursamp_sameAnswer (h : s.SameCells t) : SameAnswer (execCursamp s) (execCursamp t) := by
  rw [execCursamp, execCursamp, h.curSamp_draws]
  exact .withVal fun v => .next (h.map (fun u => (u.setUopRet v.toNat).setDraws (u.draws + 1)) fun _ _ _ => rfl)

theorem execTdiv_sameAnswer (h : s.SameCells t) (rate : Nat) : SameAnswer (execTdiv rate s) (execTdiv rate t) := by
  have hperiod : timerDivide t.cfg rate = timerDivide s.cfg rate :=
    h.eq_of_blind (fun u => timerDivide u.cfg rate) fun _ _ => rfl
  rw [execTdiv, execTdiv, hperiod]
  exact .withVal fun p => .next (h.map (·.setUopRet p) fun _ _ _ => rfl)

theorem exec_sameAnswer (h : s.SameCells t) (i : Instr) : SameAnswer (exec i s) (exec i t) := by
  cases i with
  | init => exact execInit_sameAnswer h
  | start => exact execStart_sameAnswer h
  | stop => exact execStop_sameAnswer h
  | genSine => exact execGenSine_sameAnswer h
  | genTri | genSaw | genSquare => exact genWave_sameAnswer h _
  | genBadWaveLo | genBadWaveHi => exact genBadWave_sameAnswer h
  | tick => exact execTick_sameAnswer h
  | complete => exact execComplete_sameAnswer h
  | cursamp => exact execCursamp_sameAnswer h
  | rampfill seed goal => exact .next (h.map (rampFill seed goal) fun _ _ _ => rfl)
  | tdiv rate => exact execTdiv_sameAnswer h rate

/-! ### The agents and the step -/

theorem runCode_sameAnswer (h : s.SameCells t) (c : Code) : SameAnswer (runCode c s) (runCode c t) := by
  cases hc : decode c with
  | ok i =>
    rw [runCode_ok hc, runCode_ok hc]
    exact exec_sameAnswer h i
  | error e =>
    rw [runCode_error hc, runCode_error hc]
    exact .refused _

theorem hostRead_sameAnswer (h : s.SameCells t) (size addr : Nat) :
    SameAnswer (hostRead size addr s) (hostRead size addr t) := by
  have hoff : busOffset t.cfg size addr = busOffset s.cfg size addr :=
    h.eq_of_blind (fun u => busOffset u.cfg size addr) fun _ _ => rfl
  rw [hostRead, hostRead, hoff]
  exact .withVal fun off => .next (h.map (fun u => u.setBusData (readReg u off)) fun _ _ _ => rfl)

theorem writeReg_sameAnswer (h : s.SameCells t) (off : Nat) (w : Word) :
    SameAnswer (writeReg s off w) (writeReg t off w) := by
  unfold writeReg
  split_ifs
  · exact runCode_sameAnswer h _
  · exact .next (h.map (fun u => u.setArgAddr (lowBits u.cfg.addrBits w)) fun _ _ _ => rfl)
  · exact .next (h.map (fun u => u.setArgLen (lowBits u.cfg.lenBits w)) fun _ _ _ => rfl)
  · exact .next (h.map (fun u => u.setArgRate (lowBits u.cfg.rateBits w)) fun _ _ _ => rfl)
  · exact .next (h.map (·.setArgAmp (lowBits 16 w)) fun _ _ _ => rfl)
  · exact .next h

theorem hostWrite_sameAnswer (h : s.SameCells t) (size addr : Nat) (w : Word) :
    SameAnswer (hostWrite size addr w s) (hostWrite size addr w t) := by
  have hoff : busOffset t.cfg size addr = busOffset s.cfg size addr :=
    h.eq_of_blind (fun u => busOffset u.cfg size addr) fun _ _ => rfl
  rw [hostWrite, hostWrite, hoff]
  exact .withVal fun off => writeReg_sameAnswer h off w

theorem hostPoke_sameAnswer (h : s.SameCells t) (a : Nat) (v : Sample) :
    SameAnswer (hostPoke a v s) (hostPoke a v t) := by
  rw [hostPoke, hostPoke, h.memCells_eq]
  split
  · exact .refused _
  · exact .next (h.storeSample a v)

theorem perform_sameAnswer (h : s.SameCells t) (a : Action) : SameAnswer (perform a s) (perform a t) := by
  cases a with
  | rd size addr => exact hostRead_sameAnswer h size addr
  | wr size addr w => exact hostWrite_sameAnswer h size addr w
  | poke c v => exact hostPoke_sameAnswer h c v
  | evt tag => exact runCode_sameAnswer h _
  | handler => exact handlerBody_sameAnswer h
  | uop tag x y => exact runCode_sameAnswer h _
  | rst => exact .next h.hardReset

theorem step_sameAnswer (h : s.SameCells t) : SameAnswer (step s) (step t) := by
  have hagenda : t.agenda = s.agenda := h.eq_of_blind (·.agenda) fun _ _ => rfl
  cases ha : s.agenda with
  | nil =>
    rw [step_nil ha, step_nil (hagenda.trans ha)]
    exact .next h
  | cons a rest =>
    rw [step_cons ha, step_cons (hagenda.trans ha)]
    exact perform_sameAnswer (h.map (·.setAgenda rest) fun _ _ _ => rfl) a

end

/-- Settles O51: every read of the block goes through a cell's value, every store replaces a whole cell, and no other
update sees the layout. -/
theorem byteOrderIsNotObservable : Obligations.ByteOrderIsNotObservable := by
  intro s t h
  have hstep := step_sameAnswer h
  constructor
  · intro s' hs
    rw [hs] at hstep
    exact hstep.of_next
  · intro e hs
    rw [hs] at hstep
    exact hstep.of_refused

end Sys2Proof.Machine
end

section
/-! What the operations leave unchanged (20_memory.md R64, 10_state.md R20), and the borrow rule: what a write of a
referenced cell marks, and that a mark stays (20_memory.md R67). -/

namespace Sys2Proof.Machine

/-! ### Frames -/

/-- Settles O49: each way to answer a next state is the update its equation writes out, and the operations exempt from a
clause are those whose update names the clause's field. -/
theorem operationFrames : Obligations.OperationFrames := by
  intro i s t h
  cases exec_next h with
  | unchanged ht => subst ht; simp
  | init hi _ ht => subst hi; rw [ht, initBody_eq]; simp
  | start hi _ _ _ _ _ _ _ ht => subst hi; rw [ht, startBody_eq]; simp
  | stop hi _ _ _ _ _ ht => subst hi; rw [ht, stopBody_eq]; simp
  | wave f hi _ _ ht => rcases hi with ⟨rfl, -⟩ | ⟨rfl, -⟩ | ⟨rfl, -⟩ | ⟨rfl, -⟩ <;> rw [ht, fillCells_eq] <;> simp
  | invalid hi ht => rcases hi with rfl | rfl | rfl | rfl | ⟨w, rfl⟩ | ⟨w, rfl⟩ <;> subst ht <;> simp
  | tick hi _ _ _ _ _ ht => subst hi; rw [ht, countDown_eq]; simp
  | shutDown hi _ _ ht => subst hi; rw [ht, shutDown_eq, takeCompletion_eq]; simp
  | loop hi _ _ _ _ ht => subst hi; rw [ht, beginLoop_eq, takeCompletion_eq]; simp
  | acknowledge hi _ _ ht => subst hi; rw [ht, takeCompletion_eq]; simp
  | cursamp hi _ _ ht => subst hi; rw [ht]; simp
  | rampfill _ _ hi ht => subst hi; rw [ht, rampFill_eq]; simp
  | tdiv _ _ hi _ ht => subst hi; rw [ht]; simp

/-! ### Marks -/

theorem genWave_marks {f : Nat → Nat → Nat → Nat} {s t : State} (h : genWave f s = .next t) (a : Nat) :
    a ∈ t.unsettled ↔ a ∈ s.unsettled ∨ (s.references a = true ∧ opAddr s ≤ a ∧ a < opAddr s + opLen s) := by
  rcases genWave_next h with ⟨hlen, rfl⟩ | ⟨-, -, rfl⟩
  · rw [State.setResult_unsettled, hlen]
    exact ⟨.inl, fun hmark => hmark.resolve_right fun ⟨_, hlow, hhigh⟩ => by omega⟩
  · rw [State.setResult_unsettled]
    exact fillCells_marks _ _ _ 0 s a

section

variable {s t : State} {a : Nat} (ha : a ∈ s.unsettled)

include ha

theorem exec_keeps_mark {i : Instr} (h : exec i s = .next t) : a ∈ t.unsettled := by
  cases i with
  | genSine | genTri | genSaw | genSquare => exact (genWave_marks h a).2 (.inl ha)
  | _ =>
    obtain ⟨hstore, -⟩ := operationFrames _ _ _ h
    rw [(hstore nofun nofun nofun nofun).2]
    exact ha

theorem runCode_keeps_mark {c : Code} (h : runCode c s = .next t) : a ∈ t.unsettled := by
  obtain ⟨i, -, h⟩ := runCode_next h
  exact exec_keeps_mark ha h

theorem handlerBody_keeps_mark (h : handlerBody s = .next t) : a ∈ t.unsettled := by
  rcases handlerBody_next h with ⟨-, rfl⟩ | ⟨-, p, -, rfl⟩ | ⟨-, rfl⟩
  · rwa [shutDown_eq]
  · rwa [beginLoop_eq]
  · exact ha

theorem writeReg_keeps_mark {off : Nat} {w : Word} (h : writeReg s off w = .next t) : a ∈ t.unsettled := by
  rcases writeReg_next h with ⟨-, h⟩ | ⟨-, rfl⟩ | ⟨-, rfl⟩ | ⟨-, rfl⟩ | ⟨-, rfl⟩ | rfl
  · exact runCode_keeps_mark ha h
  all_goals exact ha

theorem storeSample_keeps_mark (c : Nat) (v : Sample) : a ∈ (s.storeSample c v).unsettled := by
  rw [storeSample_unsettled]
  split
  · exact mem_markCell.2 (.inr ha)
  · exact ha

/-- Only the action `rst` removes a mark (log 9). -/
theorem perform_keeps_mark {act : Action} (hrst : act ≠ .rst) (h : perform act s = .next t) : a ∈ t.unsettled := by
  rcases perform_next h with ⟨_, _, _, -, -, rfl⟩ | ⟨_, _, _, _, -, -, h⟩ | ⟨c, v, -, -, rfl⟩ | ⟨_, -, h⟩ | ⟨-, h⟩ |
    ⟨_, _, _, -, h⟩ | ⟨hr, -⟩
  · exact ha
  · exact writeReg_keeps_mark ha h
  · exact storeSample_keeps_mark ha c v
  · exact runCode_keeps_mark ha h
  · exact handlerBody_keeps_mark ha h
  · exact runCode_keeps_mark ha h
  · exact absurd hr hrst

theorem step_keeps_mark (hrst : s.agenda.head? ≠ some .rst) (h : step s = .next t) : a ∈ t.unsettled := by
  rcases step_next h with ⟨-, rfl⟩ | ⟨act, rest, hact, h⟩
  · exact ha
  · refine perform_keeps_mark (s := s.setAgenda rest) ha ?_ h
    rintro rfl
    exact hrst (by rw [hact, List.head?_cons])

end

/-! ### The host's fill -/

theorem perform_poke_outside {s : State} {a : Nat} (v : Sample) (h : s.cfg.memCells ≤ a) :
    perform (.poke a v) s = .refused .bufferOutOfRange := by
  rw [perform, hostPoke, if_pos h]

theorem perform_poke_inside {s : State} {a : Nat} (v : Sample) (h : a < s.cfg.memCells) :
    perform (.poke a v) s = .next (s.storeSample a v) := by
  rw [perform, hostPoke, if_neg (Nat.not_le.2 h)]

/-- Settles O50: a fill is a store of its one cell, a GEN a run of such stores, and nothing but `rst` forgets a mark. -/
theorem borrowedCellWrittenReadsAsAnyValue : Obligations.BorrowedCellWrittenReadsAsAnyValue := by
  refine ⟨fun s a v => ⟨perform_poke_outside v, fun ha =>
      ⟨s.storeSample a v, perform_poke_inside v ha, rfl, ?_, ?_, ?_, ?_⟩⟩,
    fun s t a ha h hrst => step_keeps_mark ha hrst h, fun s t i a hi h _ => ?_, fun s k a ha hlt => ?_⟩
  · exact fun hwf => cell_storeSample_self hwf a v
  · exact fun b hlow hhigh => Memory.readByte_writeCell_ne _ _ v hlow hhigh
  · intro href x
    rw [storeSample_unsettled, if_pos href, mem_markCell]
  · intro href
    rw [storeSample_unsettled, if_neg (by simp [href])]
  · rcases hi with rfl | rfl | rfl | rfl <;> exact genWave_marks h a
  · rw [memRead_of_lt hlt, if_pos ha]

end Sys2Proof.Machine
end

section
/-! The codes (30_encoding.md R80 to R87): encode and decode are inverse to each other, the cases of a CMD word, and the
rows of the opcode table. -/

namespace Sys2Proof.Machine

/-! ### The fields of a CMD word -/

theorem cmdOpcode_toNat (w : Word) : (cmdOpcode w).toNat = w.toNat % 16 := by simp [cmdOpcode]

theorem cmdMbz0_toNat (w : Word) : (cmdMbz0 w).toNat = w.toNat / 16 % 16 := by
  simp [cmdMbz0, Nat.shiftRight_eq_div_pow]

theorem cmdWave_toNat (w : Word) : (cmdWave w).toNat = w.toNat / 256 % 16 := by
  simp [cmdWave, Nat.shiftRight_eq_div_pow]

theorem cmdMbz1_toNat (w : Word) : (cmdMbz1 w).toNat = w.toNat / 4096 := by
  simp only [cmdMbz1, BitVec.extractLsb'_toNat, Nat.shiftRight_eq_div_pow]
  omega

theorem cmdWord_toNat (wave opcode : BitVec 4) : (cmdWord wave opcode).toNat = 256 * wave.toNat + opcode.toNat := by
  simp only [cmdWord, toNat_append_eq_add, BitVec.toNat_ofNat]
  omega

@[simp] theorem cmdOpcode_cmdWord (wave opcode : BitVec 4) : cmdOpcode (cmdWord wave opcode) = opcode := by
  apply BitVec.eq_of_toNat_eq
  rw [cmdOpcode_toNat, cmdWord_toNat]
  omega

@[simp] theorem cmdMbz0_cmdWord (wave opcode : BitVec 4) : cmdMbz0 (cmdWord wave opcode) = 0#4 := by
  apply BitVec.eq_of_toNat_eq
  rw [cmdMbz0_toNat, cmdWord_toNat, BitVec.toNat_ofNat]
  omega

@[simp] theorem cmdWave_cmdWord (wave opcode : BitVec 4) : cmdWave (cmdWord wave opcode) = wave := by
  apply BitVec.eq_of_toNat_eq
  rw [cmdWave_toNat, cmdWord_toNat]
  omega

@[simp] theorem cmdMbz1_cmdWord (wave opcode : BitVec 4) : cmdMbz1 (cmdWord wave opcode) = 0#20 := by
  apply BitVec.eq_of_toNat_eq
  rw [cmdMbz1_toNat, cmdWord_toNat, BitVec.toNat_ofNat]
  omega

/-- A word whose must-be-zero fields are zero is made of its other two. -/
theorem cmdWord_of_mbz_zero {w : Word} (h0 : cmdMbz0 w = 0) (h1 : cmdMbz1 w = 0) :
    cmdWord (cmdWave w) (cmdOpcode w) = w := by
  have h := cmdWord_of_fields w
  rwa [h0, h1] at h

/-! ### GEN's wave field -/

theorem decodeWave_lo :
    ∀ wave : BitVec 4, 4 ≤ wave.toNat → wave.toNat < 8 → decodeWave wave = .genBadWaveLo wave := by decide

theorem decodeWave_hi : ∀ wave : BitVec 4, 8 ≤ wave.toNat → decodeWave wave = .genBadWaveHi wave := by decide

theorem encode_decodeWave : ∀ wave, encode (decodeWave wave) = .cmd (cmdWord wave 4) := by decide

theorem decodeWave_wellFormed : ∀ wave, (decodeWave wave).wellFormed = true := by decide

/-- R85 case 5: an unrecognized wave only sets RESULT (R178). -/
theorem exec_decodeWave_unrecognized {wave : BitVec 4} (h : 4 ≤ wave.toNat) (s : State) :
    exec (decodeWave wave) s = .next (s.setResult .invalidArgument) := by
  by_cases h8 : wave.toNat < 8
  · rw [decodeWave_lo wave h h8]
    rfl
  · rw [decodeWave_hi wave (Nat.not_lt.1 h8)]
    rfl

/-! ### The decoder, code by code -/

theorem decode_cmd_mbz {w : Word} (h : cmdMbz0 w ≠ 0 ∨ cmdMbz1 w ≠ 0) :
    decode (.cmd w) = .error .reservedBits :=
  if_pos h

theorem decode_cmdWord_init (wave : BitVec 4) : decode (.cmd (cmdWord wave 1)) = needWaveZero wave .init := by
  simp [decode, decodeCmd]

theorem decode_cmdWord_start (wave : BitVec 4) : decode (.cmd (cmdWord wave 2)) = needWaveZero wave .start := by
  simp [decode, decodeCmd]

theorem decode_cmdWord_stop (wave : BitVec 4) : decode (.cmd (cmdWord wave 3)) = needWaveZero wave .stop := by
  simp [decode, decodeCmd]

theorem decode_cmdWord_gen (wave : BitVec 4) : decode (.cmd (cmdWord wave 4)) = .ok (decodeWave wave) := by
  simp [decode, decodeCmd]

theorem decode_cmdWord_reserved (wave : BitVec 4) {opcode : BitVec 4} (h : opcode.toNat = 0 ∨ 5 ≤ opcode.toNat) :
    decode (.cmd (cmdWord wave opcode)) = .error .reservedOpcode := by
  have hne : opcode ≠ 1#4 ∧ opcode ≠ 2#4 ∧ opcode ≠ 3#4 ∧ opcode ≠ 4#4 := by
    refine ⟨?_, ?_, ?_, ?_⟩ <;> rintro rfl <;> simp at h
  obtain ⟨h1, h2, h3, h4⟩ := hne
  simp [decode, decodeCmd, h1, h2, h3, h4]

theorem decode_uop_rampfill {x y : Word} (hx : x.toNat < 2 ^ 16) (hy : y.toNat < 2 ^ 16) :
    decode (.uop 1 x y) = .ok (.rampfill (x.setWidth 16) (y.setWidth 16)) :=
  if_pos ⟨hx, hy⟩

theorem decode_uop_tdiv (x : Word) : decode (.uop 2 x 0) = .ok (.tdiv x.toNat) := rfl

/-- The UOP codes that name a micro-operation, with their operand words (R82, R83; log 14). -/
theorem decodeUop_ok_operands {tag : BitVec 2} {x y : Word} {i : Instr} (h : decodeUop tag x y = .ok i) :
    (tag = 0 ∧ x = 0 ∧ y = 0 ∧ i = .cursamp) ∨
    (tag = 1 ∧ x.toNat < 2 ^ 16 ∧ y.toNat < 2 ^ 16 ∧ i = .rampfill (x.setWidth 16) (y.setWidth 16)) ∨
    (tag = 2 ∧ y = 0 ∧ i = .tdiv x.toNat) := by
  unfold decodeUop at h
  split_ifs at h with h0 hxy h1 hxy h2 hy <;> cases h
  · exact .inl ⟨h0, hxy.1, hxy.2, rfl⟩
  · exact .inr (.inl ⟨h1, hxy.1, hxy.2, rfl⟩)
  · exact .inr (.inr ⟨h2, hy, rfl⟩)

/-- A CMD word is rejected for its fields only, and each such word is reserved (R86). -/
theorem rejectReason_of_decodeCmd {w : Word} {e : Reject} (h : decodeCmd w = .error e) :
    rejectReason e = .reservedCommand := by
  unfold decodeCmd needWaveZero at h
  split_ifs at h <;> cases h <;> rfl

/-! ### Decode undoes encode -/

theorem setWidth_sample_lt (v : Sample) : (v.setWidth 32).toNat < 2 ^ 16 := by
  rw [BitVec.toNat_setWidth_of_le (by decide)]
  exact v.isLt

/-- Settles O1: a command comes back by its opcode's equation, GEN through its wave field, a micro-operation with the
operands its words carry. -/
theorem decodeOfEncodeIsIdentity : Obligations.DecodeOfEncodeIsIdentity := by
  intro i hwf
  cases i with
  | init => exact decode_cmdWord_init 0
  | start => exact decode_cmdWord_start 0
  | stop => exact decode_cmdWord_stop 0
  | genSine => exact decode_cmdWord_gen 0
  | genTri => exact decode_cmdWord_gen 1
  | genSaw => exact decode_cmdWord_gen 2
  | genSquare => exact decode_cmdWord_gen 3
  | genBadWaveLo wave =>
    obtain ⟨h4, h8⟩ : 4 ≤ wave.toNat ∧ wave.toNat < 8 := by simpa [Instr.wellFormed] using hwf
    rw [encode, decode_cmdWord_gen, decodeWave_lo wave h4 h8]
  | genBadWaveHi wave =>
    have h8 : 8 ≤ wave.toNat := by simpa [Instr.wellFormed] using hwf
    rw [encode, decode_cmdWord_gen, decodeWave_hi wave h8]
  | tick => rfl
  | complete => rfl
  | cursamp => rfl
  | rampfill seed goal =>
    rw [encode, decode_uop_rampfill (setWidth_sample_lt seed) (setWidth_sample_lt goal)]
    simp only [BitVec.setWidth_setWidth_of_le _ (show 16 ≤ 32 by decide), BitVec.setWidth_eq]
  | tdiv rate =>
    have hr : rate < 2 ^ 32 := by simpa [Instr.wellFormed] using hwf
    rw [encode, decode_uop_tdiv, BitVec.toNat_ofNat, Nat.mod_eq_of_lt hr]

/-! ### Encode undoes decode -/

theorem encode_of_decodeCmd {w : Word} {i : Instr} (h : decodeCmd w = .ok i) :
    encode i = .cmd w ∧ i.wellFormed = true := by
  obtain ⟨h0, h1, hcase⟩ := decodeCmd_ok h
  rw [← cmdWord_of_mbz_zero h0 h1]
  rcases hcase with ⟨ho, hw, rfl⟩ | ⟨ho, hw, rfl⟩ | ⟨ho, hw, rfl⟩ | ⟨ho, rfl⟩
  · exact ⟨by rw [ho, hw]; rfl, rfl⟩
  · exact ⟨by rw [ho, hw]; rfl, rfl⟩
  · exact ⟨by rw [ho, hw]; rfl, rfl⟩
  · exact ⟨by rw [ho, encode_decodeWave], decodeWave_wellFormed _⟩

theorem encode_of_decodeEvt {tag : BitVec 2} {i : Instr} (h : decodeEvt tag = .ok i) :
    encode i = .evt tag ∧ i.wellFormed = true := by
  rcases decodeEvt_ok h with ⟨rfl, rfl⟩ | ⟨rfl, rfl⟩
  · exact ⟨rfl, rfl⟩
  · exact ⟨rfl, rfl⟩

theorem encode_of_decodeUop {tag : BitVec 2} {x y : Word} {i : Instr} (h : decodeUop tag x y = .ok i) :
    encode i = .uop tag x y ∧ i.wellFormed = true := by
  rcases decodeUop_ok_operands h with ⟨rfl, rfl, rfl, rfl⟩ | ⟨rfl, hx, hy, rfl⟩ | ⟨rfl, rfl, rfl⟩
  · exact ⟨rfl, rfl⟩
  · rw [encode, BitVec.setWidth_setWidth_eq_self (BitVec.lt_def.2 hx),
      BitVec.setWidth_setWidth_eq_self (BitVec.lt_def.2 hy)]
    exact ⟨rfl, rfl⟩
  · rw [encode, BitVec.ofNat_toNat, BitVec.setWidth_eq]
    exact ⟨rfl, decide_eq_true x.isLt⟩

/-- Settles O2, format by format. -/
theorem acceptedCodeIsCanonical : Obligations.AcceptedCodeIsCanonical := by
  intro c i h
  cases c with
  | cmd w => exact encode_of_decodeCmd h
  | evt tag => exact encode_of_decodeEvt h
  | uop tag x y => exact encode_of_decodeUop h

/-! ### The cases of R85 -/

theorem needWaveZero_ne_zero {wave : BitVec 4} (h : wave ≠ 0) (i : Instr) :
    needWaveZero wave i = .error .reservedWave :=
  if_neg h

/-- R85 case 3: INIT, START and STOP take no wave type. -/
theorem decode_cmdWord_reservedWave {wave opcode : BitVec 4} (h1 : 1 ≤ opcode.toNat) (h3 : opcode.toNat ≤ 3)
    (hw : wave ≠ 0) : decode (.cmd (cmdWord wave opcode)) = .error .reservedWave := by
  obtain rfl | rfl | rfl : opcode = 1 ∨ opcode = 2 ∨ opcode = 3 := by bv_omega
  · rw [decode_cmdWord_init, needWaveZero_ne_zero hw]
  · rw [decode_cmdWord_start, needWaveZero_ne_zero hw]
  · rw [decode_cmdWord_stop, needWaveZero_ne_zero hw]

/-- A word with the fields of a well-formed command's word decodes to that command. -/
theorem decode_cmdWord_of_encode {i : Instr} {v o : Nat} {wave opcode : BitVec 4}
    (hi : encode i = .cmd (cmdWord (BitVec.ofNat 4 v) (BitVec.ofNat 4 o))) (hwf : i.wellFormed = true)
    (ho : opcode.toNat = o) (hw : wave.toNat = v) : decode (.cmd (cmdWord wave opcode)) = .ok i := by
  subst ho hw
  rw [BitVec.ofNat_toNat, BitVec.ofNat_toNat, BitVec.setWidth_eq, BitVec.setWidth_eq] at hi
  rw [← hi]
  exact decodeOfEncodeIsIdentity i hwf

/-- R85 case 5. -/
theorem runCode_cmdWord_unrecognized {wave opcode : BitVec 4} (ho : opcode.toNat = 4) (hw : 4 ≤ wave.toNat)
    (s : State) : runCode (.cmd (cmdWord wave opcode)) s = .next (s.setResult .invalidArgument) := by
  obtain rfl : opcode = 4 := BitVec.eq_of_toNat_eq ho
  rw [runCode_ok (decode_cmdWord_gen wave), exec_decodeWave_unrecognized hw]

/-- Settles O3: a word with a must-be-zero bit set is reserved; any other is made of its wave and its opcode, and is
then the code of an operation or has one of the fields that make it reserved. -/
theorem cmdWordDecodingIsTotal : Obligations.CmdWordDecodingIsTotal := by
  intro w
  simp only [← cmdOpcode_toNat, ← cmdMbz0_toNat, ← cmdWave_toNat, ← cmdMbz1_toNat]
  refine ⟨fun h => decode_cmd_mbz (h.imp (mt (congrArg _)) (mt (congrArg _))), fun h0 h1 => ?_,
    fun e he s => by rw [runCode_error he, rejectReason_of_decodeCmd he]⟩
  rw [← cmdWord_of_mbz_zero (BitVec.eq_of_toNat_eq h0) (BitVec.eq_of_toNat_eq h1), cmdOpcode_cmdWord,
    cmdWave_cmdWord]
  exact ⟨decode_cmdWord_of_encode rfl rfl, decode_cmdWord_of_encode rfl rfl, decode_cmdWord_of_encode rfl rfl,
    fun h1 h3 hw => decode_cmdWord_reservedWave h1 h3 (mt (congrArg _) hw),
    decode_cmdWord_of_encode rfl rfl, decode_cmdWord_of_encode rfl rfl, decode_cmdWord_of_encode rfl rfl,
    decode_cmdWord_of_encode rfl rfl, runCode_cmdWord_unrecognized, decode_cmdWord_reserved _⟩

/-! ### The opcode table -/

/-- Two rows that accept one code have one format, and their patterns agree on the bits both masks keep. -/
theorem rows_agree_of_accepts {c : Code} {r r' : Row} (h : r.accepts c = true) (h' : r'.accepts c = true) :
    r.format = r'.format ∧ r.pattern &&& r'.mask = r'.pattern &&& r.mask := by
  simp only [Row.accepts, Bool.and_eq_true, decide_eq_true_eq] at h h'
  obtain ⟨hf, hp⟩ := h
  obtain ⟨hf', hp'⟩ := h'
  exact ⟨hf.symm.trans hf', by rw [← hp, ← hp', Nat.and_right_comm]⟩

/-- Different rows of the table differ in their format or on a bit that both their masks keep. -/
theorem rows_eq_of_agree : ∀ r ∈ opcodeTable, ∀ r' ∈ opcodeTable,
    r.format = r'.format → r.pattern &&& r'.mask = r'.pattern &&& r.mask → r = r' := by decide

theorem encode_in_row (i : Instr) : Laws.TableRow.Statement i := by
  cases i with
  | init => exact Laws.TableRow.init
  | start => exact Laws.TableRow.start
  | stop => exact Laws.TableRow.stop
  | genSine => exact Laws.TableRow.genSine
  | genTri => exact Laws.TableRow.genTri
  | genSaw => exact Laws.TableRow.genSaw
  | genSquare => exact Laws.TableRow.genSquare
  | genBadWaveLo wave => exact Laws.TableRow.genBadWaveLo wave
  | genBadWaveHi wave => exact Laws.TableRow.genBadWaveHi wave
  | tick => exact Laws.TableRow.tick
  | complete => exact Laws.TableRow.complete
  | cursamp => exact Laws.TableRow.cursamp
  | rampfill seed goal => exact Laws.TableRow.rampfill seed goal
  | tdiv rate => exact Laws.TableRow.tdiv rate

/-- Settles O5: rows that share a code agree wherever both look, which no two of the table do; and an accepted code is
its operation's, which lies in its row. -/
theorem opcodeTableRowsAreDisjoint : Obligations.OpcodeTableRowsAreDisjoint := by
  refine ⟨fun c r hr r' hr' h h' => ?_, fun c i h => ?_⟩
  · obtain ⟨hformat, hbits⟩ := rows_agree_of_accepts h h'
    exact rows_eq_of_agree r hr r' hr' hformat hbits
  · obtain ⟨rfl, hwf⟩ := acceptedCodeIsCanonical c i h
    exact encode_in_row i hwf

/-! ### The worked words -/

/-- Settles O4: the decoder evaluates each word of R87 and the two EVT tags of R82. -/
theorem workedEncodingsDecode : Obligations.WorkedEncodingsDecode := by
  unfold Obligations.WorkedEncodingsDecode
  decide

end Sys2Proof.Machine
end

section
/-! The ramp generator of 40_ramp.md: CURSAMP reads the live sample, and RAMPFILL writes a linear ramp. -/

namespace Sys2Proof.Machine

/-! ### CURSAMP -/

/-- R101, R102: the live index, on the counter as it stands. -/
theorem liveIndex_eq (s : State) :
    liveIndex s = if 1 ≤ s.remain ∧ s.remain ≤ s.actLen then s.actLen - s.remain else 0 := by
  split
  · next h => exact liveIndex_of_running h.1 h.2
  · exact liveIndex_of_clamped (by omega)

/-- As a step of its own, CURSAMP writes what it returns and the draw counter (logs 7, 9). -/
theorem exec_cursamp_of_curSamp {s : State} {v : Sample} (h : curSamp s.draws s = .ok v) :
    exec .cursamp s = .next { s with uopRet := v.toNat, draws := s.draws + 1 } := by
  rw [exec, execCursamp, h]
  rfl

/-- Settles O16: the value is SILENCE in Stopped, and else what the active buffer holds at the live index. -/
theorem cursampReadsTheLiveSample : Obligations.CursampReadsTheLiveSample := by
  intro s idx
  have hidx : liveIndex s = idx := liveIndex_eq s
  refine ⟨fun hs => exec_cursamp_of_curSamp (curSamp_stopped hs), fun hs hsel v hv => ?_, fun hs hsel hin => ?_⟩
  · apply exec_cursamp_of_curSamp
    rw [curSamp_active hs, actRead_ramp hsel, hidx, rampRead_ok_iff.2 hv]
  · obtain ⟨v, hv⟩ : ∃ v, memRead s.draws s (s.actAddr + idx) = .ok v := ⟨_, memRead_of_lt hin⟩
    refine ⟨v, exec_cursamp_of_curSamp ?_, fun hset => ?_⟩
    · rw [curSamp_active hs, actRead_external hsel, hidx, hv]
    · rw [(memRead_ok_iff.1 hv).2, if_neg hset]

/-! ### The ramp's step and its values (R104, R105) -/

section

variable {n : Nat} {seed goal : Sample}

theorem rampStep_swap (n : Nat) (seed goal : Sample) : rampStep n seed goal = -rampStep n goal seed := by
  rw [rampStep, rampStep, ← Int.neg_tdiv, Int.neg_sub]

/-- Of a rising ramp the step is not negative, and its `n` steps fall short of the end by less than `n`. -/
theorem rampStep_rising (hn : 1 ≤ n) (h : seed.toNat ≤ goal.toNat) :
    0 ≤ rampStep n seed goal ∧ rampStep n seed goal * n ≤ (goal.toNat : Int) - seed.toNat ∧
      (goal.toNat : Int) - seed.toNat < rampStep n seed goal * n + n := by
  have hd : (0 : Int) ≤ goal.toNat - seed.toNat := by omega
  rw [Int.mul_comm]
  exact ⟨Int.tdiv_nonneg hd (by omega), Int.mul_tdiv_self_le hd, Int.lt_mul_tdiv_self_add (by omega)⟩

/-- Of a falling ramp the step is not positive: the division truncates toward zero, so it is the rising ramp's the
other way. -/
theorem rampStep_falling (hn : 1 ≤ n) (h : goal.toNat ≤ seed.toNat) :
    rampStep n seed goal ≤ 0 ∧ (goal.toNat : Int) - seed.toNat ≤ rampStep n seed goal * n ∧
      rampStep n seed goal * n - n < (goal.toNat : Int) - seed.toNat := by
  obtain ⟨h0, hle, hlt⟩ := rampStep_rising hn h
  rw [rampStep_swap, Int.neg_mul]
  omega

theorem rampStep_sign (hn : 1 ≤ n) :
    rampStep n seed goal = 0 ∨ (0 < rampStep n seed goal ∧ (0 : Int) < goal.toNat - seed.toNat) ∨
      (rampStep n seed goal < 0 ∧ (goal.toNat : Int) - seed.toNat < 0) := by
  have hup := fun h => (rampStep_rising (seed := seed) (goal := goal) hn h).1
  have hdown := fun h => (rampStep_falling (seed := seed) (goal := goal) hn h).1
  omega

theorem abs_rampStep_mul_le (hn : 1 ≤ n) :
    |rampStep n seed goal * n| ≤ |(goal.toNat : Int) - seed.toNat| := by
  rcases Nat.le_total seed.toNat goal.toNat with h | h
  · obtain ⟨h0, hle, -⟩ := rampStep_rising hn h
    exact abs_le_abs_of_nonneg (Int.mul_nonneg h0 (by omega)) hle
  · obtain ⟨h0, hle, -⟩ := rampStep_falling hn h
    exact abs_le_abs_of_nonpos (Int.mul_nonpos_of_nonpos_of_nonneg h0 (by omega)) hle

theorem rampValue_succ_sub (n : Nat) (seed goal : Sample) (i : Nat) :
    rampValue n seed goal (i + 1) - rampValue n seed goal i = rampStep n seed goal := by
  simp only [rampValue, Nat.cast_succ]
  ring

/-- R105: at cell `i` of `n` no more than the `n` steps are taken, so the value has not passed the end. -/
theorem rampValue_mem_uIcc {i : Nat} (h : i < n) :
    rampValue n seed goal i ∈ Set.uIcc (seed.toNat : Int) goal.toNat := by
  rw [Set.mem_uIcc, rampValue]
  have hn : 1 ≤ n := by omega
  have hi : (i : Int) + 1 ≤ n := by omega
  rcases Nat.le_total seed.toNat goal.toNat with hd | hd
  · obtain ⟨h0, hle, -⟩ := rampStep_rising hn hd
    have := Int.mul_le_mul_of_nonneg_left hi h0
    have := Int.mul_nonneg h0 (show (0 : Int) ≤ i + 1 by omega)
    omega
  · obtain ⟨h0, hle, -⟩ := rampStep_falling hn hd
    have := Int.mul_le_mul_of_nonpos_left h0 hi
    have := Int.mul_nonpos_of_nonpos_of_nonneg h0 (show (0 : Int) ≤ i + 1 by omega)
    omega

/-- R105: every value fits a cell, so the cell holds it exactly. -/
theorem ofInt_rampValue_toNat {i : Nat} (h : i < n) :
    ((BitVec.ofInt 16 (rampValue n seed goal i)).toNat : Int) = rampValue n seed goal i := by
  have hmem := Set.mem_uIcc.1 (rampValue_mem_uIcc (seed := seed) (goal := goal) h)
  have := seed.isLt
  have := goal.isLt
  rw [BitVec.toNat_ofInt]
  omega

theorem rampCells_getD_toNat {i : Nat} (h : i < n) :
    (((rampCells n seed goal).getD i 0).toNat : Int) = rampValue n seed goal i := by
  rw [List.getD_eq_getElem?_getD, rampCells_getElem? seed goal h]
  exact ofInt_rampValue_toNat h

end

/-- Settles O17: no CMD word is RAMPFILL's code, tag 0b01 is RAMPFILL's alone, and the cells hold the values exactly. -/
theorem rampfillWritesTheRamp : Obligations.RampfillWritesTheRamp := by
  refine ⟨fun w seed goal h => ?_, fun x y i h => ?_, fun s seed goal _ => ?_⟩
  · exact nomatch (acceptedCodeIsCanonical _ _ h).1
  · rcases decodeUop_ok_operands h with ⟨h0, -⟩ | ⟨-, -, -, rfl⟩ | ⟨h2, -⟩
    · exact absurd h0 (by decide)
    · exact ⟨_, _, rfl⟩
    · exact absurd h2 (by decide)
  · exact ⟨rampCells s.cfg.nRamp seed goal, rfl, rampCells_length _ _ _, fun i hi =>
      ⟨_, rampCells_getElem? seed goal hi, ofInt_rampValue_toNat hi⟩⟩

/-- Settles O18: the cells hold the values of R104, which go from the start by the step and never pass the end. -/
theorem rampStaysBetweenItsEnds : Obligations.RampStaysBetweenItsEnds := by
  intro n seed goal hn d stp v
  have hv : ∀ i, i < n → v i = rampValue n seed goal i := fun i => rampCells_getD_toNat
  have hends : ∀ i, i < n →
      (seed.toNat ≤ v i ∧ v i ≤ goal.toNat) ∨ (goal.toNat ≤ v i ∧ v i ≤ seed.toNat) := fun i hi => by
    rw [hv i hi]
    exact Set.mem_uIcc.1 (rampValue_mem_uIcc hi)
  have hstep : ∀ i, i + 1 < n → v (i + 1) - v i = stp := fun i hi => by
    rw [hv _ hi, hv i (by omega)]
    exact rampValue_succ_sub n seed goal i
  refine ⟨rampStep_sign hn, abs_rampStep_mul_le hn, ?first, hends, hstep,
    fun i hi => ⟨fun hd => ?up, fun hd => ?down⟩, fun c hs hg i hi => ?max⟩
  case first => rw [hv 0 hn, rampValue, Nat.cast_zero, Int.zero_add, Int.mul_one]; rfl
  case up =>
    have h0 : 0 ≤ stp := (rampStep_rising hn (by omega)).1
    have := hstep i hi
    omega
  case down =>
    have h0 : stp ≤ 0 := (rampStep_falling hn (by omega)).1
    have := hstep i hi
    omega
  case max =>
    have := hends i hi
    omega

/-- Settles O19: the last value is `n` steps from the start, and what the division leaves over is the shortfall. -/
theorem rampEndsOneRemainderShort : Obligations.RampEndsOneRemainderShort := by
  intro n seed goal hn d stp r last
  have hlast : last = seed.toNat + stp * n := by
    have h := rampCells_getD_toNat (seed := seed) (goal := goal) (show n - 1 < n by omega)
    rwa [rampValue, show ((n - 1 : Nat) : Int) + 1 = n by omega] at h
  have hend : last = goal.toNat - r := by omega
  have hup : seed.toNat ≤ goal.toNat → stp * n ≤ d ∧ d < stp * n + n := fun h => (rampStep_rising hn h).2
  have hdown : goal.toNat ≤ seed.toNat → d ≤ stp * n ∧ stp * n - n < d := fun h => (rampStep_falling hn h).2
  have hdvd : (n : Int) ∣ d ↔ r = 0 := by
    rw [Int.dvd_iff_tmod_eq_zero, Int.tmod_def, Int.mul_comm]
  refine ⟨hlast, hend, ?sign, ?bound, ?exact⟩
  case sign => omega
  case bound => rw [abs_le]; omega
  case exact => rw [hdvd]; omega

end Sys2Proof.Machine
end

section
/-! The timer of 41_timer.md: the divider and the rate it gives, who writes TIMER_PERIOD, and what TICK does, alone and
many times in a row. -/

namespace Sys2Proof.Machine

/-! ### TDIV -/

theorem timerDivide_zero (c : Cfg) : timerDivide c 0 = .error .rateZero := by
  rw [timerDivide, if_pos rfl]

theorem timerDivide_above {c : Cfg} {rate : Nat} (h : c.clockRate < rate) :
    timerDivide c rate = .error .rateAboveClock := by
  rw [timerDivide, if_neg (by omega), if_pos (Nat.div_eq_of_lt h)]

theorem timerDivide_overflow {c : Cfg} {rate : Nat} (h0 : 1 ≤ rate) (h1 : rate ≤ c.clockRate)
    (h : 2 ^ c.timerBits ≤ c.clockRate / rate - 1) : timerDivide c rate = .error .periodOverflow := by
  have hquot : c.clockRate / rate ≠ 0 := (Nat.div_pos h1 h0).ne'
  rw [timerDivide, if_neg (by omega), if_neg hquot, if_pos h]

theorem exec_tdiv_of_ok {s : State} {rate p : Nat} (h : timerDivide s.cfg rate = .ok p) :
    exec (.tdiv rate) s = .next { s with uopRet := p } := by
  rw [exec, execTdiv, h]
  rfl

theorem exec_tdiv_of_error {s : State} {rate : Nat} {e : Refusal} (h : timerDivide s.cfg rate = .error e) :
    exec (.tdiv rate) s = .refused e := by
  rw [exec, execTdiv, h, withVal_error]

/-- Settles O20: the step answers what TDIV returns, and each clause is one branch of TDIV. -/
theorem tdivDividesTruncates : Obligations.TdivDividesTruncates := by
  intro s rate
  refine ⟨?zero, fun h => exec_tdiv_of_error (timerDivide_above h),
    fun h0 h1 h => exec_tdiv_of_error (timerDivide_overflow h0 h1 h),
    fun h0 h1 h => exec_tdiv_of_ok (timerDivide_ok_iff.2 ⟨h0, h1, rfl, h⟩)⟩
  case zero =>
    rintro rfl
    exact exec_tdiv_of_error (timerDivide_zero _)

/-- The period counts the divider's quotient less one, so the counter runs through the quotient itself. -/
theorem timerDivide_succ {c : Cfg} {rate p : Nat} (h : timerDivide c rate = .ok p) : p + 1 = c.clockRate / rate := by
  obtain ⟨h0, h1, rfl, -⟩ := timerDivide_ok_iff.1 h
  exact Nat.sub_add_cancel (Nat.div_pos h1 h0)

/-- Settles O21: cleared of the denominator, it is `rate * (CLOCK_RATE / rate) ≤ CLOCK_RATE` for the truncating
quotient, with equality exactly when the division leaves nothing over. -/
theorem obtainedRateIsNotBelowRequested : Obligations.ObtainedRateIsNotBelowRequested := by
  intro c rate p h
  have hpos : (0 : ℚ) < p + 1 := by positivity
  have hle : rate * (p + 1) ≤ c.clockRate := by
    rw [timerDivide_succ h]
    exact Nat.mul_div_le _ _
  have hdvd : rate * (p + 1) = c.clockRate ↔ rate ∣ c.clockRate := by
    rw [timerDivide_succ h]
    exact Nat.mul_div_eq_iff_dvd
  rw [le_div_iff₀ hpos, lt_div_iff₀ hpos, ← hdvd]
  norm_cast
  exact ⟨hle, by omega⟩

/-! ### TIMER_PERIOD -/

/-- Settles O22: START, STOP outside Stopped and COMPLETE's loop store the period TDIV gave them, and the update of every
other way to answer a next state does not name TIMER_PERIOD. -/
theorem timerPeriodHasThreeWriters : Obligations.TimerPeriodHasThreeWriters := by
  intro i s t h
  cases exec_next h with
  | unchanged ht hi =>
    subst ht
    rcases hi with ⟨rfl, hs⟩ | ⟨rfl, -⟩ | ⟨rfl, hl⟩
    · simp [hs]
    · simp
    · simp [hl]
  | init hi _ ht => subst hi; rw [ht, initBody_eq]; simp
  | start hi _ _ _ _ _ _ hp ht => subst hi; rw [ht, startBody_eq]; simpa using hp
  | stop hi hn _ _ _ hp ht => subst hi; rw [ht, stopBody_eq]; simp [hn, hp]
  | wave f hi _ _ ht => rcases hi with ⟨rfl, -⟩ | ⟨rfl, -⟩ | ⟨rfl, -⟩ | ⟨rfl, -⟩ <;> rw [ht, fillCells_eq] <;> simp
  | invalid hi ht => rcases hi with rfl | rfl | rfl | rfl | ⟨w, rfl⟩ | ⟨w, rfl⟩ <;> subst ht <;> simp
  | tick hi _ _ _ _ _ ht => subst hi; rw [ht, countDown_eq]; simp
  | shutDown hi _ hs ht => subst hi; rw [ht, shutDown_eq, takeCompletion_eq]; simp [hs]
  | loop hi hl hs _ hp ht => subst hi; rw [ht, beginLoop_eq]; simp [hl, hs, hp]
  | acknowledge hi _ hs ht => subst hi; rw [ht, takeCompletion_eq]; rcases hs with hs | hs <;> simp [hs]
  | cursamp hi _ _ ht => subst hi; rw [ht]; simp
  | rampfill _ _ hi ht => subst hi; rw [ht, rampFill_eq]; simp
  | tdiv _ _ hi _ ht => subst hi; rw [ht]; simp

/-! ### One event -/

theorem exec_tick_idle {s : State} (h : s.run = false) : exec .tick s = .next s := by
  simp [exec, execTick, h]

theorem exec_complete_disabled {s : State} (h : irqLine s = false) : exec .complete s = .next s := by
  simp [exec, execComplete, h]

/-- Settles O24: both events ask for their enable first. -/
theorem disabledEventsChangeNothing : Obligations.DisabledEventsChangeNothing :=
  fun _ => ⟨exec_tick_idle, fun h => exec_complete_disabled (Bool.and_eq_false_iff.2 h)⟩

/-- R128: TICK emits the sample at POS and counts down. -/
theorem exec_tick_running {s : State} {v : Sample} (hrun : s.run = true) (hlow : 1 ≤ s.remain)
    (hhigh : s.remain ≤ s.actLen) (hv : actRead s.draws s (s.actLen - s.remain) = .ok v) :
    exec .tick s = .next (countDown ((s.emitSample v).setDraws (s.draws + 1))) := by
  rw [exec, execTick, if_pos hrun, tickRunning, if_neg (by omega), hv, withVal_ok]

section

variable {s : State} {v : Sample} (hrun : s.run = true) (hhigh : s.remain ≤ s.actLen)
  (hv : actRead s.draws s (s.actLen - s.remain) = .ok v)

include hrun hhigh hv

theorem exec_tick_more (h : 2 ≤ s.remain) : exec .tick s =
    .next { s with out := s.out ++ [v], dacHold := v, draws := s.draws + 1, remain := s.remain - 1 } := by
  rw [exec_tick_running hrun (by omega) hhigh hv]
  exact congrArg _ (countDown_more h)

theorem exec_tick_last_autoRepeat (h : s.remain = 1) (hm : s.mode = .autoRepeat) : exec .tick s =
    .next { s with out := s.out ++ [v], dacHold := v, draws := s.draws + 1, irqPend := true, remain := s.actLen } := by
  rw [exec_tick_running hrun h.ge hhigh hv]
  exact congrArg _ (countDown_last_autoRepeat h.le hm)

theorem exec_tick_last_oneShot (h : s.remain = 1) (hm : s.mode = .oneShot) : exec .tick s =
    .next { s with out := s.out ++ [v], dacHold := v, draws := s.draws + 1, irqPend := true, remain := 0,
                   run := false } := by
  rw [exec_tick_running hrun h.ge hhigh hv]
  exact congrArg _ (countDown_last_oneShot h.le hm)

end

/-- A cell of the active buffer that exists can be read. -/
theorem exists_actRead {s : State} {i : Nat} (k : Nat) (hramp : s.actSel = .ramp → i < s.ramp.length)
    (hext : s.actSel = .external → s.actAddr + i < s.cfg.memCells) : ∃ v, actRead k s i = .ok v := by
  cases hsel : s.actSel with
  | ramp => exact ⟨_, by rw [actRead_ramp hsel, rampRead_ok_iff, List.getElem?_eq_getElem (hramp hsel)]⟩
  | external => exact ⟨_, by rw [actRead_external hsel, memRead_of_lt (hext hsel)]⟩

/-- Settles O23: the sample is what the active buffer's cell reads as, and the counter has three ways to go on. -/
theorem tickEmitsOneSample : Obligations.TickEmitsOneSample := by
  intro s hrun hlow hhigh idx hramp hext
  obtain ⟨v, hv⟩ := exists_actRead s.draws hramp hext
  refine ⟨v, fun hsel => ?ramp, fun hsel hset => ?external, exec_tick_more hrun hhigh hv,
    exec_tick_last_autoRepeat hrun hhigh hv, exec_tick_last_oneShot hrun hhigh hv⟩
  case ramp => rwa [actRead_ramp hsel, rampRead_ok_iff] at hv
  case external =>
    rw [actRead_external hsel] at hv
    rw [(memRead_ok_iff.1 hv).2, if_neg hset]

/-! ### Ticks in a row -/

/-- The state `n` ticks after a transfer stood at its start, where cell i of the active buffer reads as `f i`: the cells
go out in order, round and round (41_timer.md R129, R130). -/
def State.ticked (f : Nat → Sample) (n : Nat) (rest : List Action) (s : State) : State :=
  { s with out := s.out ++ (List.range n).map (fun k => f (k % s.actLen)),
           dacHold := if n = 0 then s.dacHold else f ((n - 1) % s.actLen),
           draws := s.draws + n, agenda := rest, remain := s.actLen - n % s.actLen,
           irqPend := s.irqPend || decide (s.actLen ≤ n) }

/-- One more tick inside the buffer moves the position on by one, and completes nothing. -/
theorem mod_succ_of_inside {n l : Nat} (h : n % l + 1 < l) : (n + 1) % l = n % l + 1 ∧ (l ≤ n + 1 ↔ l ≤ n) := by
  have h1 : 1 % l = 1 := Nat.mod_eq_of_lt (by omega)
  refine ⟨?_, fun hle => ?_, fun hle => by omega⟩
  · rw [Nat.add_mod_of_add_mod_lt (by omega), h1]
  · by_contra hlt
    rw [Nat.mod_eq_of_lt (by omega)] at h
    omega

/-- One more tick at the buffer's last cell turns the position over. -/
theorem mod_succ_of_last {n l : Nat} (h : n % l + 1 = l) : (n + 1) % l = 0 ∧ l ≤ n + 1 := by
  have := Nat.mod_le n l
  refine ⟨?_, by omega⟩
  rw [← Nat.mod_add_mod, h, Nat.mod_self]

theorem ticked_zero {f : Nat → Sample} {s : State} (hlen : 1 ≤ s.actLen) (hstart : s.remain = s.actLen) :
    s.ticked f 0 s.agenda = s := by
  have hnone : s.actLen ≠ 0 := by omega
  cases s
  simp_all [State.ticked]

section

variable {s : State} {f : Nat → Sample} (hrun : s.run = true) (hlen : 1 ≤ s.actLen)
  (hread : ∀ k i, i < s.actLen → actRead k s i = .ok (f i))

include hlen hread

/-- The ticks change nothing that a read of the active buffer depends on. -/
theorem actRead_ticked (n : Nat) (rest : List Action) :
    let u := s.ticked f n rest
    u.remain ≤ u.actLen ∧ actRead u.draws u (u.actLen - u.remain) = .ok (f (n % s.actLen)) := by
  have hmod : n % s.actLen < s.actLen := Nat.mod_lt _ hlen
  refine ⟨Nat.sub_le _ _, ?_⟩
  rw [show (s.ticked f n rest).actLen - (s.ticked f n rest).remain = n % s.actLen from Nat.sub_sub_self hmod.le]
  exact hread (s.draws + n) _ hmod

include hrun

theorem exec_tick_ticked {n : Nat} (rest : List Action) (hm : s.mode = .autoRepeat ∨ n + 1 < s.actLen) :
    exec .tick (s.ticked f n rest) = .next (s.ticked f (n + 1) rest) := by
  obtain ⟨hhigh, hv⟩ := actRead_ticked hlen hread n rest
  have hmod : n % s.actLen < s.actLen := Nat.mod_lt _ hlen
  by_cases hmore : n % s.actLen + 1 < s.actLen
  · obtain ⟨hpos, hpend⟩ := mod_succ_of_inside hmore
    rw [exec_tick_more (s := s.ticked f n rest) hrun hhigh hv (show 2 ≤ s.actLen - n % s.actLen by omega)]
    simp [State.ticked, List.range_succ, hpos, hpend, Nat.sub_sub, Nat.add_assoc]
  · obtain ⟨hpos, hpend⟩ := mod_succ_of_last (show n % s.actLen + 1 = s.actLen by omega)
    have hauto : s.mode = .autoRepeat := hm.resolve_right (by omega)
    have hlast : (s.ticked f n rest).remain = 1 := show s.actLen - n % s.actLen = 1 by omega
    rw [exec_tick_last_autoRepeat (s := s.ticked f n rest) hrun hhigh hv hlast hauto]
    simp [State.ticked, List.range_succ, hpos, hpend, Nat.add_assoc]

/-- A transfer that loops, or is not at its last sample yet, after any number of ticks. -/
theorem stepsFrom_ticks {n : Nat} {rest : List Action} (hstart : s.remain = s.actLen)
    (hm : s.mode = .autoRepeat ∨ n < s.actLen) (hagenda : s.agenda = List.replicate n (.evt 1) ++ rest) :
    stepsFrom n s = .next (s.ticked f n rest) := by
  induction n generalizing rest with
  | zero =>
    obtain rfl : s.agenda = rest := hagenda
    rw [stepsFrom, ticked_zero hlen hstart]
  | succ n ih =>
    have hprev : stepsFrom n s = .next (s.ticked f n (.evt 1 :: rest)) :=
      ih (hm.imp_right (by omega)) (by rw [hagenda, List.replicate_succ', List.append_assoc]; rfl)
    rw [stepsFrom_succ_end hprev, step_tick rfl]
    exact exec_tick_ticked hrun hlen hread rest hm

/-- A one-shot transfer after its last sample: stopped, with the completion signalled. -/
theorem stepsFrom_ticks_oneShot {rest : List Action} (hstart : s.remain = s.actLen) (hm : s.mode = .oneShot)
    (hagenda : s.agenda = List.replicate s.actLen (.evt 1) ++ rest) :
    stepsFrom s.actLen s = .next { s.ticked f s.actLen rest with remain := 0, run := false } := by
  obtain ⟨n, hn⟩ : ∃ n, s.actLen = n + 1 := ⟨s.actLen - 1, by omega⟩
  have hprev : stepsFrom n s = .next (s.ticked f n (.evt 1 :: rest)) :=
    stepsFrom_ticks hrun hlen hread hstart (.inr (by omega))
      (by rw [hagenda, hn, List.replicate_succ', List.append_assoc]; rfl)
  obtain ⟨hhigh, hv⟩ := actRead_ticked hlen hread n rest
  have hmod : n % s.actLen = n := Nat.mod_eq_of_lt (by omega)
  have hlast : (s.ticked f n rest).remain = 1 := show s.actLen - n % s.actLen = 1 by omega
  calc stepsFrom s.actLen s = exec .tick (s.ticked f n rest) := by
        rw [hn, stepsFrom_succ_end hprev, step_tick rfl]; rfl
    _ = .next { s.ticked f s.actLen rest with remain := 0, run := false } := by
        rw [exec_tick_last_oneShot (s := s.ticked f n rest) hrun hhigh hv hlast hm]
        simp [State.ticked, List.range_succ, hn, Nat.add_assoc]

end

/-- Settles O26: the loop's cells lie in memory and are not marked, so their reads do not depend on the draw counter. -/
theorem autoRepeatTransferLoopsTheBuffer : Obligations.AutoRepeatTransferLoopsTheBuffer := by
  intro s n rest h hs hstart hset hagenda
  obtain ⟨hmode, hrun, -, hsel⟩ := h.sequenced.playing hs
  have hlen : 1 ≤ s.actLen := hstart ▸ (h.sequenced.position hrun).1
  have hfit := h.sequenced.looped hs
  have hread : ∀ k i, i < s.actLen → actRead k s i = .ok (s.cell (s.actAddr + i)) := fun k i hi => by
    rw [actRead_external hsel, memRead_of_lt (by omega), if_neg (hset i hi)]
  exact ⟨_, stepsFrom_ticks hrun hlen hread hstart (.inl hmode) hagenda, rfl, rfl, rfl, rfl, rfl⟩

/-- The first cells of a list, read one by one as an endless loop over it. -/
theorem map_range_getD_mod {α : Type} {xs : List α} (d : α) {n : Nat} (h : n ≤ xs.length) :
    (List.range n).map (fun k => xs.getD (k % xs.length) d) = xs.take n := by
  refine List.ext_getElem (by simp [h]) fun i hi _ => ?_
  rw [List.length_map, List.length_range] at hi
  have hlt : i < xs.length := hi.trans_le h
  simp [Nat.mod_eq_of_lt hlt, hlt]

/-- Settles O25: before its last tick the transfer is as a loop, and the last tick ends it. -/
theorem oneShotTransferPlaysTheRampOnce : Obligations.OneShotTransferPlaysTheRampOnce := by
  intro s rest h hrun hmode hsel hlen hstart hagenda
  have hramp : s.actLen = s.ramp.length := hlen.trans h.widths.ramp.symm
  rw [← hlen] at hstart hagenda ⊢
  have hpos : 1 ≤ s.actLen := hstart ▸ (h.sequenced.position hrun).1
  have hget : ∀ i, i < s.actLen → s.ramp[i]? = some (s.ramp.getD i 0) := fun i hi => by
    rw [hramp] at hi
    rw [List.getD_eq_getElem _ _ hi, List.getElem?_eq_getElem hi]
  have hread : ∀ k i, i < s.actLen → actRead k s i = .ok (s.ramp.getD i 0) := fun k i hi => by
    rw [actRead_ramp hsel, rampRead_ok_iff, hget i hi]
  have hout : ∀ n, n ≤ s.actLen →
      (List.range n).map (fun k => s.ramp.getD (k % s.actLen) 0) = s.ramp.take n := fun n hn => by
    rw [hramp] at hn ⊢
    exact map_range_getD_mod 0 hn
  refine ⟨fun k hk => ?running, _, stepsFrom_ticks_oneShot hrun hpos hread hstart hmode hagenda, ?frame, ?held,
    exec_tick_idle rfl⟩
  case running =>
    refine ⟨_, stepsFrom_ticks hrun hpos hread hstart (.inr hk)
      (rest := List.replicate (s.actLen - k) (.evt 1) ++ rest) ?_, hrun, ?_, congrArg (s.out ++ ·) (hout k hk.le)⟩
    · rw [hagenda, ← List.append_assoc, List.replicate_append_replicate, Nat.add_sub_cancel' hk.le]
    · exact congrArg (s.actLen - ·) (Nat.mod_eq_of_lt hk)
  case frame =>
    rw [State.ticked, hout _ le_rfl, hramp, List.take_length]
    simp
  case held =>
    have hlast : s.actLen - 1 < s.actLen := by omega
    show s.ramp[s.actLen - 1]? = some (if s.actLen = 0 then s.dacHold else s.ramp.getD ((s.actLen - 1) % s.actLen) 0)
    rw [if_neg (by omega), Nat.mod_eq_of_lt hlast, hget _ hlast]

end Sys2Proof.Machine
end

section
/-! The sequencer of 42_playback.md: what INIT, START, STOP, COMPLETE and the handler body answer, where STATE goes, and
the two whole runs, START to the loop and STOP to silence. -/

namespace Sys2Proof.Machine

/-! ### INIT -/

theorem exec_init_of_stopped {s : State} (h : s.state = .stopped) : exec .init s = .next (initBody s) := by
  simp [exec, execInit, h]

theorem exec_init_of_active {s : State} (h : s.state ≠ .stopped) : exec .init s = .refused .initWhileActive := by
  rw [exec, execInit]
  split
  · next hs => exact absurd hs h
  all_goals rfl

theorem initBody_idem (s : State) : initBody (initBody s) = initBody s := by
  simp only [initBody_eq]

theorem statusWord_initBody (s : State) : statusWord (initBody s) = 0 :=
  statusWord_of_off rfl rfl rfl rfl rfl rfl rfl

/-- Settles O27: INIT answers its body exactly in Stopped, the body is idempotent, and it turns everything off. -/
theorem initEstablishesStopped : Obligations.InitEstablishesStopped := by
  refine ⟨by decide, fun s => ⟨fun hs => ?_, exec_init_of_active, fun t ht => ?_⟩⟩
  · rw [exec_init_of_stopped hs, initBody_eq]
  · obtain ⟨-, rfl⟩ := execInit_next ht
    refine ⟨?_, statusWord_initBody s⟩
    rw [exec_init_of_stopped rfl, initBody_idem]

/-! ### The seed of START and STOP -/

section

variable {s : State} (h : s.Inv) (k : Nat)

include h

/-- In Playing the seed is a read of the looped buffer at POS, which lies in memory. -/
theorem curSamp_playing (hs : s.state = .playing) :
    curSamp k s = memRead k s (s.actAddr + (s.actLen - s.remain)) ∧
      s.actAddr + (s.actLen - s.remain) < s.cfg.memCells := by
  obtain ⟨-, hrun, -, hsel⟩ := h.sequenced.playing hs
  obtain ⟨hlow, hhigh⟩ := h.sequenced.position hrun
  have hfit := h.sequenced.looped hs
  refine ⟨?_, by omega⟩
  rw [curSamp_active (by simp [hs]), actRead_external hsel, liveIndex_of_running hlow hhigh]

/-- In a ramp the seed is the ramp's cell at the live index, which exists. -/
theorem curSamp_ramping (hr : s.ramping) : ∃ v, s.ramp[liveIndex s]? = some v ∧ curSamp k s = .ok v := by
  obtain ⟨hsel, hlen, -, -⟩ := h.sequenced.ramping hr
  obtain ⟨⟨hn, -⟩, -⟩ := h.cfgValid
  have hactive : s.state ≠ .stopped := by rcases hr with hs | hs <;> simp [hs]
  have hin : liveIndex s < s.ramp.length := by
    rw [h.widths.ramp, ← hlen]
    exact liveIndex_lt (by omega)
  have hv : s.ramp[liveIndex s]? = some s.ramp[liveIndex s] := List.getElem?_eq_getElem hin
  exact ⟨_, hv, by rw [curSamp_active hactive, actRead_ramp hsel, rampRead_ok_iff.2 hv]⟩

theorem exists_curSamp : ∃ seed, curSamp k s = .ok seed := by
  have hramp (hr : s.ramping) : ∃ seed, curSamp k s = .ok seed := (curSamp_ramping h k hr).imp fun _ => And.right
  cases hs : s.state with
  | stopped => exact ⟨_, curSamp_stopped hs⟩
  | rampingUp => exact hramp (.inl hs)
  | playing =>
    obtain ⟨hread, hin⟩ := curSamp_playing h k hs
    exact ⟨_, hread.trans (memRead_of_lt hin)⟩
  | rampingDown => exact hramp (.inr hs)

end

/-- Settles O31: the live index is POS while the backend runs, and an ended ramp, whose REMAIN is 0, is clamped to 0. -/
theorem seedIsTheLiveSampleOfEachState : Obligations.SeedIsTheLiveSampleOfEachState := by
  refine fun s k h => ⟨curSamp_stopped, fun hs hset => ?playing, fun hr hrun => ?inFlight, fun hr hrun => ?ended⟩
  case playing =>
    obtain ⟨hread, hin⟩ := curSamp_playing h k hs
    rw [hread, memRead_of_lt hin, if_neg hset]
  case inFlight =>
    obtain ⟨hlow, hhigh⟩ := h.sequenced.position hrun
    obtain ⟨-, hlen, -, -⟩ := h.sequenced.ramping hr
    rw [← hlen, ← liveIndex_of_running hlow hhigh]
    exact curSamp_ramping h k hr
  case ended =>
    obtain ⟨hremain, -⟩ := h.sequenced.rampEnded hr hrun
    rw [← liveIndex_of_clamped (.inl hremain)]
    exact curSamp_ramping h k hr

/-! ### START -/

theorem exec_start_of_startCheck_error {s : State} {e : Refusal} (h : startCheck s = .error e) :
    exec .start s = .refused e := by
  rw [exec, execStart, h, withVal_error]

theorem startCheck_lengthZero {s : State} (h : opLen s = 0) : startCheck s = .error .lengthZero := by
  rw [startCheck, if_pos h]

theorem startCheck_outOfRange {s : State} (hlen : opLen s ≠ 0) (h : s.cfg.memCells < opAddr s + opLen s) :
    startCheck s = .error .bufferOutOfRange := by
  rw [startCheck, if_neg hlen, if_pos h]

theorem startCheck_rate {s : State} {e : Refusal} (hlen : opLen s ≠ 0) (hfit : opAddr s + opLen s ≤ s.cfg.memCells)
    (h : timerDivide s.cfg (opRate s) = .error e) : startCheck s = .error e := by
  rw [startCheck, if_neg hlen, if_neg (by omega), h]

/-- Settles O29: START's checks come first, and the last of them answers TDIV's own refusal. -/
theorem startRefusesBadOperands : Obligations.StartRefusesBadOperands := by
  simp only [Obligations.StartRefusesBadOperands, ← opAddr_eq, ← opLen_eq, ← opRate_eq]
  exact fun s => ⟨fun hlen => exec_start_of_startCheck_error (startCheck_lengthZero hlen),
    fun hlen hout => exec_start_of_startCheck_error (startCheck_outOfRange hlen hout),
    fun hlen hfit hrate => exec_start_of_startCheck_error (startCheck_rate hlen hfit (hrate ▸ timerDivide_zero _)),
    fun hlen hfit hrate => exec_start_of_startCheck_error (startCheck_rate hlen hfit (timerDivide_above hrate)),
    fun hlen hfit hlow hhigh hrate =>
      exec_start_of_startCheck_error (startCheck_rate hlen hfit (timerDivide_overflow hlow hhigh hrate))⟩

theorem exec_start_of_reads {s : State} {seed goal : Sample} {p : Nat} (hc : startCheck s = .ok ())
    (hs : curSamp s.draws s = .ok seed) (hg : memRead (s.draws + 1) s (opAddr s) = .ok goal)
    (hp : timerDivide s.cfg s.cfg.rampRate = .ok p) :
    exec .start s =
      .next ((startBody (opAddr s) (opLen s) (opRate s) seed goal p s).setDraws (s.draws + 2)) := by
  rw [exec, execStart, hc, withVal_ok, hs, withVal_ok, hg, withVal_ok, hp, withVal_ok]

/-- Settles O28: the checks pass, the live sample and the first cell can be read, and RAMP_RATE has a period. -/
theorem startRampsToTheTarget : Obligations.StartRampsToTheTarget := by
  simp only [Obligations.StartRampsToTheTarget, ← opAddr_eq, ← opLen_eq, ← opRate_eq]
  intro s h hlen hfit hlow hhigh hperiod
  have hc : startCheck s = .ok () :=
    startCheck_ok_iff.2 ⟨hlen, hfit, _, timerDivide_ok_iff.2 ⟨hlow, hhigh, rfl, hperiod⟩⟩
  obtain ⟨seed, hseed⟩ := exists_curSamp h s.draws
  obtain ⟨goal, hgoal⟩ : ∃ goal, memRead (s.draws + 1) s (opAddr s) = .ok goal := ⟨_, memRead_of_lt (by omega)⟩
  have hcell : opAddr s ∉ s.unsettled → goal = s.cell (opAddr s) := fun hset => by
    rw [(memRead_ok_iff.1 hgoal).2, if_neg hset]
  refine ⟨seed, goal, hseed, hcell, ?_⟩
  rw [exec_start_of_reads hc hseed hgoal (timerDivide_rampRate h.cfgValid), startBody_eq]
  rfl

/-! ### STOP -/

/-- Settles O30: outside Stopped the live sample can be read and RAMP_RATE has a period. -/
theorem stopRampsToSilence : Obligations.StopRampsToSilence := by
  refine fun s => ⟨execStop_of_stopped, fun h hs => ?_⟩
  obtain ⟨seed, hseed⟩ := exists_curSamp h s.draws
  refine ⟨seed, hseed, ?_⟩
  rw [execStop_of_active hs, stopActive, hseed, withVal_ok, timerDivide_rampRate h.cfgValid, withVal_ok, stopBody_eq]
  rfl

/-! ### The handler body and COMPLETE -/

theorem handlerBody_of_idle {s : State} (h : s.state = .playing ∨ s.state = .stopped) : handlerBody s = .next s := by
  rcases h with h | h <;> rw [handlerBody, h]

theorem handlerBody_of_rampingDown {s : State} (h : s.state = .rampingDown) : handlerBody s =
    .next { s with outEn := false, run := false, irqEn := false, state := .stopped } := by
  rw [handlerBody, h, ← shutDown_eq]

theorem handlerBody_of_rampingUp {s : State} {p : Nat} (h : s.state = .rampingUp)
    (hp : timerDivide s.cfg s.tgtRate = .ok p) : handlerBody s =
    .next { s with mode := .autoRepeat, timerPeriod := p, actSel := .external, actAddr := s.tgtAddr,
                   actLen := s.tgtLen, remain := s.tgtLen, run := true, irqEn := false, state := .playing } := by
  rw [handlerBody, h, hp, ← beginLoop_eq]
  rfl

theorem exec_complete_enabled {s : State} (hpend : s.irqPend = true) (hen : s.irqEn = true) :
    exec .complete s = handlerBody { s with irqPend := false } := by
  rw [exec, execComplete, if_pos (by simp [irqLine, hpend, hen]), takeCompletion_eq]

/-- Settles O32: COMPLETE runs the body on the acknowledged state, and each state has its arm of the body. -/
theorem completeRunsTheHandler : Obligations.CompleteRunsTheHandler := by
  exact fun s => ⟨fun hpend hen hs => (exec_complete_enabled hpend hen).trans (handlerBody_of_rampingDown hs),
    fun _ hpend hen hs hp => (exec_complete_enabled hpend hen).trans (handlerBody_of_rampingUp hs hp),
    fun hpend hen hs => (exec_complete_enabled hpend hen).trans (handlerBody_of_idle hs),
    exec_complete_enabled, handlerBody_of_idle, handlerBody_of_rampingDown, fun _ => handlerBody_of_rampingUp⟩

/-- Settles O33: every arm of the body ends in Stopped or in Playing, where the body writes nothing. -/
theorem handlerBodyIsIdempotent : Obligations.HandlerBodyIsIdempotent := by
  intro s t h
  apply handlerBody_of_idle
  rcases handlerBody_next h with ⟨-, rfl⟩ | ⟨-, p, -, rfl⟩ | ⟨hs, rfl⟩
  · exact .inr rfl
  · exact .inl rfl
  · exact hs

/-! ### The transition table -/

/-- Where each arm of the handler body leaves STATE (R142). -/
theorem handlerBody_next_state {s t : State} (h : handlerBody s = .next t) :
    (s.state = .rampingUp → t.state = .playing) ∧ (s.state = .rampingDown → t.state = .stopped) ∧
      (s.state = .playing → t.state = .playing) ∧ (s.state = .stopped → t.state = .stopped) := by
  rcases handlerBody_next h with ⟨hs, rfl⟩ | ⟨hs, p, -, rfl⟩ | ⟨hs | hs, rfl⟩
  · simp [hs, shutDown_eq]
  · simp [hs, beginLoop_eq]
  · simp [hs]
  · simp [hs]

/-- Settles O34: INIT, START, STOP and COMPLETE by what each can answer, and no other operation changes STATE. -/
theorem transitionTable : Obligations.TransitionTable := by
  intro i s t h
  refine ⟨?init, ?start, ?stop, ?enabled, ?disabled, fun _ hstart hstop hcomplete => ?other⟩
  case init =>
    rintro rfl
    obtain ⟨hs, rfl⟩ := execInit_next h
    exact ⟨hs, rfl⟩
  case start =>
    rintro rfl
    obtain ⟨-, _, _, _, -, -, -, rfl⟩ := execStart_next h
    rfl
  case stop =>
    rintro rfl
    obtain ⟨hs, rfl⟩ | ⟨hs, _, _, -, -, rfl⟩ := execStop_next h
    · exact ⟨fun _ => hs, fun hn => absurd hs hn⟩
    · exact ⟨fun hn => absurd hn hs, fun _ => rfl⟩
  case enabled =>
    rintro rfl hl
    obtain ⟨-, h⟩ | ⟨hoff, -⟩ := execComplete_next h
    · exact handlerBody_next_state (s := takeCompletion s) h
    · simp [hl] at hoff
  case disabled =>
    rintro rfl hl
    rw [exec_complete_disabled hl] at h
    cases h
    rfl
  case other =>
    by_contra hne
    rcases exec_changes_state h hne with hi | ⟨hi | hi, -⟩
    · exact hstart hi
    · exact hstop hi
    · exact hcomplete hi

/-! ### A whole ramp and its completion -/

/-- The state in which COMPLETE's handler body runs, once a ramp is played out: the ramp is emitted, the backend has
stopped itself and the completion is acknowledged. -/
def State.rampPlayed (u : State) (hold : Sample) (draws : Nat) (rest : List Action) : State :=
  { u with out := u.out ++ u.ramp, dacHold := hold, draws := draws, agenda := rest, remain := 0, irqPend := false,
           run := false }

/-- N_RAMP ticks from the start of a ramp and the COMPLETE they enable come to one run of the handler body. -/
theorem stepsFrom_ramp_complete {u : State} {rest : List Action} (h : u.Inv) (hr : u.ramping) (hrun : u.run = true)
    (hstart : u.remain = u.cfg.nRamp) (hagenda : u.agenda = List.replicate u.cfg.nRamp (.evt 1) ++ .evt 2 :: rest) :
    ∃ hold draws, stepsFrom (u.cfg.nRamp + 1) u = handlerBody (u.rampPlayed hold draws rest) := by
  obtain ⟨hsel, hlen, hmode, hen⟩ := h.sequenced.ramping hr
  obtain ⟨-, t, ht, hframe, -, -⟩ :=
    oneShotTransferPlaysTheRampOnce u (.evt 2 :: rest) h hrun hmode hsel hlen hstart hagenda
  refine ⟨t.dacHold, t.draws, ?_⟩
  have hnext : t.agenda = .evt 2 :: rest := by rw [hframe]
  rw [stepsFrom_succ_end ht, step_complete hnext, hframe]
  exact exec_complete_enabled rfl hen

/-- Settles O38: START begins a ramp whose pending target is what the ARG registers name, and the handler body loops
that target. -/
theorem startThenRampThenLoop : Obligations.StartThenRampThenLoop := by
  intro s u rest h hagenda hu
  have hinv : u.Inv := exec_keeps_inv h hu
  obtain ⟨hc, seed, goal, p, -, -, -, rfl⟩ := execStart_next hu
  obtain ⟨-, -, q, hq⟩ := startCheck_ok_iff.1 hc
  rw [startBody_eq] at hinv ⊢
  obtain ⟨hold, draws, hrun⟩ := stepsFrom_ramp_complete hinv (.inl rfl) rfl rfl hagenda
  have haddr : opAddr s = s.argAddr.toNat := by rw [opAddr_eq, Nat.mod_eq_of_lt h.widths.argAddr]
  have hlen : opLen s = s.argLen.toNat := by rw [opLen_eq, Nat.mod_eq_of_lt h.widths.argLen]
  have hrate : opRate s = s.argRate.toNat := by rw [opRate_eq, Nat.mod_eq_of_lt h.widths.argRate]
  have hperiod : q = s.cfg.clockRate / s.argRate.toNat - 1 := hrate ▸ (timerDivide_ok_iff.1 hq).2.2.1
  exact ⟨_, hrun.trans (handlerBody_of_rampingUp rfl hq), rfl, rfl, rfl, rfl, haddr, hlen, hlen, hperiod, rfl, rfl, rfl,
    rfl⟩

/-- Settles O39: STOP begins a ramp down, and the handler body turns everything off at its end. -/
theorem stopThenRampThenSilence : Obligations.StopThenRampThenSilence := by
  intro s u rest h hs hagenda hu
  have hinv : u.Inv := exec_keeps_inv h hu
  obtain ⟨hstopped, -⟩ | ⟨-, seed, p, -, -, rfl⟩ := execStop_next hu
  · exact absurd hstopped hs
  rw [stopBody_eq] at hinv ⊢
  obtain ⟨hold, draws, hrun⟩ := stepsFrom_ramp_complete hinv (.inr rfl) rfl rfl hagenda
  exact ⟨_, hrun.trans (handlerBody_of_rampingDown rfl), rfl, rfl, rfl, rfl, rfl, rfl⟩

end Sys2Proof.Machine
end

section
/-! The waveform generator of 43_wavegen.md: the values of the four waves and their bounds, what GEN answers for each
wave and length, and SineSample against the exact sine. -/

namespace Sys2Proof.Machine

/-! ### The values of the waves -/

theorem mul_div_le_of_index_le {k l : ℕ} (A : ℕ) (h : k ≤ l) : k * A / l ≤ A :=
  Nat.div_le_of_le_mul (Nat.mul_le_mul_right A h)

section

variable {i l : ℕ} (A : ℕ) (hi : i < l)

include hi

theorem sawSample_le : sawSample i l A ≤ A := mul_div_le_of_index_le A hi.le

theorem sawSample_lt (hA : 0 < A) : sawSample i l A < A :=
  Nat.div_lt_of_lt_mul (Nat.mul_lt_mul_of_pos_right hi hA)

theorem sawSample_le_last : sawSample i l A ≤ (l - 1) * A / l :=
  Nat.div_le_div_right (Nat.mul_le_mul_right A (Nat.le_sub_one_of_lt hi))

theorem triSample_le : triSample i l A ≤ A := by
  unfold triSample
  split
  · exact mul_div_le_of_index_le A ‹_›
  · exact mul_div_le_of_index_le A (by omega)

/-- The two branches of the triangle agree at phase 1/2, so each is the mirror image of the other. -/
theorem triSample_mirror : triSample i l A = triSample (l - i) l A := by
  rcases Nat.lt_trichotomy (2 * i) l with h | h | h
  · rw [triSample, if_pos h.le, triSample, if_neg (by omega), Nat.sub_sub_self hi.le]
  · rw [show l - i = i by omega]
  · rw [triSample, if_neg (by omega), triSample, if_pos (by omega)]

theorem triSample_peak (h : 2 * i = l) : triSample i l A = A := by
  rw [triSample, if_pos h.le, h, Nat.mul_div_cancel_left A (Nat.zero_lt_of_lt hi)]

end

theorem squareSample_le (i l A : ℕ) : squareSample i l A ≤ A := by
  unfold squareSample
  split_ifs
  · exact Nat.zero_le A
  · exact Nat.div_le_self A 2
  · exact le_rfl

/-- Off the rational phases SineSample is cut at A (log 8); at them it is a part of A. -/
theorem sineSample_le (above : List SinePoint) (i l A : ℕ) : sineSample above i l A ≤ A := by
  unfold sineSample
  split_ifs
  · exact Nat.zero_le A
  · exact le_rfl
  · exact Nat.div_le_self A 2
  · exact Nat.div_le_self A 4
  · omega
  all_goals exact min_le_left _ _

/-- Settles O48: each wave is at most A by its own bound, and its first branch answers 0 at index 0. -/
theorem waveValuesStartAtZeroAndFit : Obligations.WaveValuesStartAtZeroAndFit := by
  intro above i l A hi
  refine ⟨⟨sineSample_le above i l A, triSample_le A hi, sawSample_le A hi, squareSample_le i l A⟩, if_pos rfl, ?_, ?_,
    if_pos (Nat.zero_lt_of_lt hi)⟩
  · simp [triSample]
  · simp [sawSample]

/-! ### What GEN answers -/

section

variable {f : Nat → Nat → Nat → Nat} {s : State}

theorem genWave_lengthZero (h : opLen s = 0) : genWave f s = .next (s.setResult .invalidArgument) := if_pos h

theorem genWave_outOfRange (hlen : opLen s ≠ 0) (h : s.cfg.memCells < opAddr s + opLen s) :
    genWave f s = .refused .bufferOutOfRange := by
  rw [genWave, if_neg hlen, if_pos h]

theorem genWave_inside (hlen : opLen s ≠ 0) (h : opAddr s + opLen s ≤ s.cfg.memCells) : genWave f s =
    .next ((fillCells (fun i => f i (opLen s) (opAmp s)) (opAddr s) (opLen s) 0 s).setResult .ok) := by
  rw [genWave, if_neg hlen, if_neg (Nat.not_lt.2 h)]

/-- R171: a wave that stays within its amplitude fits the cells, so they hold its values. -/
theorem genWave_writes (hf : ∀ i l A, i < l → f i l A ≤ A) (hwf : s.mem.wf) (hlen : opLen s ≠ 0)
    (h : opAddr s + opLen s ≤ s.cfg.memCells) : ∃ t, genWave f s = .next t ∧ GenWrote f s t := by
  refine ⟨_, genWave_inside hlen h, ?_, fun i hi => ?_, fun b hb => ?_⟩
  · rw [fillCells_eq]
    rfl
  · have hfits : f i (opLen s) (opAmp s) < 2 ^ 16 := (hf _ _ _ hi).trans_lt (opAmp_lt s)
    rw [← opAmp_eq, ← Nat.mod_eq_of_lt hfits, ← BitVec.toNat_ofNat]
    exact congrArg _ (fillCells_cell_inside _ _ _ 0 hwf (Nat.zero_le i) (by omega))
  · exact fillCells_byte_outside _ _ _ 0 s (by omega)

end

/-- Settles O46: the two tests of GEN come before any cell is written, for each wave alike. -/
theorem genReportsLengthZero : Obligations.GenReportsLengthZero := by
  rintro s i (rfl | rfl | rfl | rfl) <;> exact ⟨genWave_lengthZero, genWave_outOfRange⟩

theorem ofNat_eq_cmdWord_gen (wave : BitVec 4) : BitVec.ofNat 32 (256 * wave.toNat + 4) = cmdWord wave 4 := by
  apply BitVec.eq_of_toNat_eq
  rw [cmdWord_toNat, BitVec.toNat_ofNat, Nat.mod_eq_of_lt (by omega)]
  rfl

/-- Settles O47: both failure forms only set RESULT, and the word is the CMD word of opcode 4 and the wave (R85 case 5). -/
theorem genReportsUnrecognizedWave : Obligations.GenReportsUnrecognizedWave := by
  refine fun s wave => ⟨rfl, rfl, fun hw => ?_⟩
  rw [ofNat_eq_cmdWord_gen]
  exact runCode_cmdWord_unrecognized rfl hw s

/-- Settles O41: the sawtooth stays below A, so GEN's cells hold it, and its largest value is its last. -/
theorem genSawWritesTheSawtooth : Obligations.GenSawWritesTheSawtooth :=
  ⟨decodeOfEncodeIsIdentity .genSaw rfl, fun _ => genWave_writes fun _ _ A hi => sawSample_le A hi,
    fun _ _ A hi hA => ⟨sawSample_lt A hi hA, sawSample_le_last A hi⟩⟩

/-- Settles O42: the square wave stays within A, so GEN's cells hold it. -/
theorem genSquareWritesTheSquare : Obligations.GenSquareWritesTheSquare :=
  ⟨decodeOfEncodeIsIdentity .genSquare rfl, fun _ => genWave_writes fun i l A _ => squareSample_le i l A⟩

/-- Settles O43: the triangle stays within A, so GEN's cells hold it; its branches mirror each other. -/
theorem genTriWritesTheTriangle : Obligations.GenTriWritesTheTriangle :=
  ⟨fun _ => genWave_writes fun _ _ A hi => triSample_le A hi,
    fun _ _ A _ hi => ⟨triSample_mirror A hi, triSample_peak A hi⟩⟩

/-- Settles O44: SineSample stays within A for every list of points, so GEN's cells hold it. -/
theorem genSineWritesSineSamples : Obligations.GenSineWritesSineSamples :=
  fun _ => genWave_writes fun i l A _ => sineSample_le _ i l A

/-! ### SineSample against the exact value (R176) -/

theorem exact_sine_nonneg (A : ℕ) (φ : ℝ) : 0 ≤ (A : ℝ) * (1 - Real.cos φ) / 2 :=
  div_nonneg (mul_nonneg A.cast_nonneg (sub_nonneg.2 (Real.cos_le_one φ))) two_pos.le

theorem floor_exact_sine_le (A : ℕ) (φ : ℝ) : ⌊(A : ℝ) * (1 - Real.cos φ) / 2⌋₊ ≤ A := by
  refine Nat.floor_le_of_le ?_
  have : (A : ℝ) * (1 - Real.cos φ) ≤ A * 2 :=
    mul_le_mul_of_nonneg_left (by linarith [Real.neg_one_le_cos φ]) A.cast_nonneg
  linarith

theorem irrational_exact_sine {A : ℕ} (hA : A ≠ 0) {c : ℝ} (hc : Irrational c) : Irrational ((A : ℝ) * (1 - c) / 2) := by
  have h : Irrational (1 - c) := by exact_mod_cast hc.natCast_sub 1
  exact_mod_cast (h.natCast_mul hA).div_natCast two_ne_zero

theorem not_irrational_cos_iff {i l : ℕ} (hi : i < l) :
    ¬Irrational (Real.cos (2 * Real.pi * i / l)) ↔ (4 * i) % l = 0 ∨ (6 * i) % l = 0 :=
  ⟨fun h => by_contra fun hp => h (irrational_cos_of_phase hi hp),
    fun hp => (sineSample_eq_floor_of_rational_phase [] 0 hi hp).1⟩

theorem abs_floor_sub_lt_one {x : ℝ} (hx : 0 ≤ x) : |(⌊x⌋₊ : ℝ) - x| < 1 :=
  abs_lt.2 ⟨by linarith [Nat.lt_floor_add_one x], by linarith [Nat.floor_le hx]⟩

/-- One above the floor is near too, if the exact value is no integer. -/
theorem abs_succ_floor_sub_lt_one {x : ℝ} (hx : 0 ≤ x) (hirr : Irrational x) : |((⌊x⌋₊ + 1 : ℕ) : ℝ) - x| < 1 := by
  have hlt : (⌊x⌋₊ : ℝ) < x := (Nat.floor_le hx).lt_of_ne (hirr.ne_nat _).symm
  push_cast
  exact abs_lt.2 ⟨by linarith [Nat.lt_floor_add_one x], by linarith⟩

section

variable {i l : ℕ} (A : ℕ) (hi : i < l) (hl : l < 2 ^ 32)

include hi hl

/-- The reference choice of R176: with no point listed SineSample is the floor everywhere. -/
theorem sineSample_nil_eq_floor :
    sineSample [] i l A = ⌊(A : ℝ) * (1 - Real.cos (2 * Real.pi * i / l)) / 2⌋₊ := by
  by_cases hp : (4 * i) % l = 0 ∨ (6 * i) % l = 0
  · exact (sineSample_eq_floor_of_rational_phase [] A hi hp).2
  · obtain ⟨hfloor, hsample⟩ := sineSample_of_irrational_phase [] A hi hl hp
    rw [hsample, if_neg List.not_mem_nil, hfloor, min_eq_right (floor_exact_sine_le A _)]

/-- A listed point raises the sample only where the cosine is irrational, and with A > 0 so is the exact value there. -/
theorem sineSample_near (above : List SinePoint) :
    |(sineSample above i l A : ℝ) - A * (1 - Real.cos (2 * Real.pi * i / l)) / 2| < 1 := by
  have hx := exact_sine_nonneg A (2 * Real.pi * i / l)
  by_cases hp : (4 * i) % l = 0 ∨ (6 * i) % l = 0
  · rw [(sineSample_eq_floor_of_rational_phase above A hi hp).2]
    exact abs_floor_sub_lt_one hx
  obtain ⟨hfloor, hsample⟩ := sineSample_of_irrational_phase above A hi hl hp
  rcases Nat.eq_zero_or_pos A with rfl | hA
  · rw [Nat.le_zero.1 (sineSample_le above i l 0)]
    simp
  rw [hsample]
  split_ifs
  · have hlt : sineFloor i l A < A := hfloor ▸ floor_sine_lt hi (fun h2 => hp ((phase_mod_iff hi).2 (.inr (.inl h2)))) hA
    rw [min_eq_right hlt, hfloor]
    exact abs_succ_floor_sub_lt_one hx (irrational_exact_sine hA.ne' (irrational_cos_of_phase hi hp))
  · rw [hfloor, min_eq_right (floor_exact_sine_le A _)]
    exact abs_floor_sub_lt_one hx

end

/-- Settles O45: the bounds hold phase by phase, and the list of VC is empty. -/
theorem sineSampleMeetsItsBounds : Obligations.SineSampleMeetsItsBounds := by
  intro above i l A hi hl _ cosine x
  exact ⟨sineSample_le above i l A, sineSample_near A hi hl above,
    fun h => (sineSample_eq_floor_of_rational_phase above A hi ((not_irrational_cos_iff hi).1 h)).2,
    not_irrational_cos_iff hi, sineSample_nil_eq_floor A hi hl⟩

end Sys2Proof.Machine
end

section
/-! The completion of 60_exceptions.md: no event refuses (R192), when IRQ_PEND is set and cleared (R195, R197), and that
a completion is not lost (R198) but can be stale (70_reset_and_hazards.md R235). -/

namespace Sys2Proof.Machine

/-! ### The events from the invariant -/

/-- The handler body refuses only for want of the target's period. -/
theorem exists_handlerBody {s : State} (h : s.state = .rampingUp → ∃ p, timerDivide s.cfg s.tgtRate = .ok p) :
    ∃ t, handlerBody s = .next t := by
  cases hs : s.state with
  | stopped => exact ⟨_, handlerBody_of_idle (.inr hs)⟩
  | rampingUp =>
    obtain ⟨p, hp⟩ := h hs
    exact ⟨_, handlerBody_of_rampingUp hs hp⟩
  | playing => exact ⟨_, handlerBody_of_idle (.inl hs)⟩
  | rampingDown => exact ⟨_, handlerBody_of_rampingDown hs⟩

section

variable {s : State} (h : s.Inv)

include h

theorem exists_targetPeriod (hs : s.state = .rampingUp) : ∃ p, timerDivide s.cfg s.tgtRate = .ok p := by
  obtain ⟨-, -, hrate⟩ := h.sequenced.target hs
  exact timerDivide_isSome_iff.1 hrate

/-- While the backend runs, what TICK reads is what CURSAMP reads: the active buffer at POS. -/
theorem curSamp_running (k : Nat) (hrun : s.run = true) : curSamp k s = actRead k s (s.actLen - s.remain) := by
  obtain ⟨hlow, hhigh⟩ := h.sequenced.position hrun
  have hactive : s.state ≠ .stopped := fun hs => by
    obtain ⟨-, hoff, -⟩ := h.sequenced.stopped hs
    simp [hoff] at hrun
  rw [curSamp_active hactive, liveIndex_of_running hlow hhigh]

theorem exists_exec_tick_running (hrun : s.run = true) :
    ∃ v, exec .tick s = .next (countDown ((s.emitSample v).setDraws (s.draws + 1))) := by
  obtain ⟨hlow, hhigh⟩ := h.sequenced.position hrun
  obtain ⟨v, hv⟩ := exists_curSamp h s.draws
  rw [curSamp_running h _ hrun] at hv
  exact ⟨v, exec_tick_running hrun hlow hhigh hv⟩

theorem exists_exec_tick : ∃ t, exec .tick s = .next t := by
  cases hrun : s.run with
  | false => exact ⟨s, exec_tick_idle hrun⟩
  | true =>
    obtain ⟨v, hv⟩ := exists_exec_tick_running h hrun
    exact ⟨_, hv⟩

/-- The acknowledge leaves STATE and the pending target, which are all the handler body asks for. -/
theorem exists_exec_complete : ∃ t, exec .complete s = .next t := by
  cases hl : irqLine s with
  | false => exact ⟨s, exec_complete_disabled hl⟩
  | true =>
    rw [exec, execComplete, if_pos hl]
    exact exists_handlerBody (s := takeCompletion s) (exists_targetPeriod (s := s) h)

end

/-- Settles O15: the backend's position and the live index lie in the active buffer, and the rates were checked,
RAMP_RATE by the configuration and the target's by START. -/
theorem noEventRefuses : Obligations.NoEventRefuses := by
  intro s h
  obtain ⟨v, hv⟩ := exists_curSamp h s.draws
  exact ⟨exists_exec_tick h, exists_exec_complete h, exists_handlerBody (exists_targetPeriod h),
    ⟨_, exec_cursamp_of_curSamp hv⟩, ⟨_, timerDivide_rampRate h.cfgValid⟩, exists_targetPeriod h⟩

/-! ### IRQ_PEND -/

/-- IRQ_PEND after an operation that answers a next state. -/
def pendAfter (i : Instr) (s : State) : Bool :=
  match i with
  | .tick => s.irqPend || (s.run && decide (s.remain = 1))
  | .complete => s.irqPend && !s.irqEn
  | .init => false
  | .start => !s.cfg.clearOnArm && s.irqPend
  | .stop => if s.state = .stopped then s.irqPend else !s.cfg.clearOnArm && s.irqPend
  | _ => s.irqPend

theorem pendAfter_complete_enabled {s : State} (h : irqLine s = true) : pendAfter .complete s = false := by
  obtain ⟨-, hen⟩ := Bool.and_eq_true_iff.1 h
  simp [pendAfter, hen]

theorem countDown_irqPend {s : State} (h : 1 ≤ s.remain) :
    (countDown s).irqPend = (s.irqPend || decide (s.remain = 1)) := by
  by_cases hmore : 2 ≤ s.remain
  · have hne : s.remain ≠ 1 := by omega
    simp [countDown_more hmore, hne]
  · have hlast : s.remain = 1 := by omega
    cases hm : s.mode with
    | oneShot => simp [countDown_last_oneShot hlast.le hm, hlast]
    | autoRepeat => simp [countDown_last_autoRepeat hlast.le hm, hlast]

theorem exec_irqPend {i : Instr} {s t : State} (h : exec i s = .next t) : t.irqPend = pendAfter i s := by
  cases exec_next h with
  | unchanged ht hi =>
    subst ht
    rcases hi with ⟨rfl, hs⟩ | ⟨rfl, hrun⟩ | ⟨rfl, hl⟩
    · simp [pendAfter, hs]
    · simp [pendAfter, hrun]
    · simpa [pendAfter, irqLine] using hl
  | init hi _ ht => subst hi; rw [ht, initBody_eq]; rfl
  | start hi _ _ _ _ _ _ _ ht => subst hi; rw [ht, startBody_eq]; rfl
  | stop hi hn _ _ _ _ ht => subst hi; rw [ht, stopBody_eq]; simp [pendAfter, hn]
  | wave f hi _ _ ht => rcases hi with ⟨rfl, -⟩ | ⟨rfl, -⟩ | ⟨rfl, -⟩ | ⟨rfl, -⟩ <;> rw [ht, fillCells_eq] <;> rfl
  | invalid hi ht => rcases hi with rfl | rfl | rfl | rfl | ⟨w, rfl⟩ | ⟨w, rfl⟩ <;> rw [ht] <;> rfl
  | tick hi hrun hlow _ _ _ ht => subst hi; rw [ht, pendAfter, hrun, Bool.true_and]; exact countDown_irqPend hlow
  | shutDown hi hl _ ht => subst hi; rw [ht, shutDown_eq, pendAfter_complete_enabled hl]; rfl
  | loop hi hl _ _ _ ht => subst hi; rw [ht, beginLoop_eq, pendAfter_complete_enabled hl]; rfl
  | acknowledge hi hl _ ht => subst hi; rw [ht, pendAfter_complete_enabled hl]; rfl
  | cursamp hi _ _ ht => subst hi; rw [ht]; rfl
  | rampfill _ _ hi ht => subst hi; rw [ht, rampFill_eq]; rfl
  | tdiv _ _ hi _ ht => subst hi; rw [ht]; rfl

/-- Settles O36: each clause is read off the value of IRQ_PEND after the operation. -/
theorem completionFlagSetAndCleared : Obligations.CompletionFlagSetAndCleared := by
  intro i s t h
  rw [exec_irqPend h]
  refine ⟨?rises, ?falls, ?tick, ?complete, ?init, ?start, ?stop⟩
  case rises =>
    intro hoff hon
    cases i with
    | tick => simpa [pendAfter, hoff] using hon
    | _ => simp [pendAfter, hoff] at hon
  case falls =>
    intro hon hoff
    cases i with
    | complete => simpa [pendAfter, hon] using hoff
    | init => simp
    | start => simpa [pendAfter, hon] using hoff
    | stop =>
      have hs : s.state ≠ .stopped := fun hs => by simp [pendAfter, hs, hon] at hoff
      simpa [pendAfter, hon, hs] using hoff
    | _ => simp [pendAfter, hon] at hoff
  case tick =>
    rintro rfl hrun hlast
    simp [pendAfter, hrun, hlast]
  case complete =>
    rintro rfl hl
    exact pendAfter_complete_enabled hl
  case init =>
    rintro rfl
    rfl
  case start =>
    rintro rfl hclear
    simp [pendAfter, hclear]
  case stop =>
    rintro rfl hs hclear
    simp [pendAfter, hs, hclear]

/-! ### A completion is not lost -/

theorem stepsFrom_succ_start {n : Nat} {s u : State} (h : step s = .next u) : stepsFrom (n + 1) s = stepsFrom n u := by
  rw [stepsFrom, h]

theorem irqLine_of_ramp_ended {s : State} (h : s.Inv) (hr : s.ramping) (hrun : s.run = false) : irqLine s = true := by
  obtain ⟨-, hpend⟩ := h.sequenced.rampEnded hr hrun
  obtain ⟨-, -, -, hen⟩ := h.sequenced.ramping hr
  rw [irqLine, hpend, hen, Bool.and_self]

theorem countDown_remain_oneShot {s : State} (hm : s.mode = .oneShot) : (countDown s).remain = s.remain - 1 := by
  by_cases hmore : 2 ≤ s.remain
  · rw [countDown_more hmore]
  · rw [countDown_last_oneShot (by omega) hm]
    exact (Nat.sub_eq_zero_of_le (by omega)).symm

/-- A tick of a ramp counts REMAIN down by one and leaves STATE. -/
theorem step_tick_of_ramping {s : State} {rest : List Action} (h : s.Inv) (hr : s.ramping) (hrun : s.run = true)
    (hagenda : s.agenda = .evt 1 :: rest) :
    ∃ t, step s = .next t ∧ t.state = s.state ∧ t.agenda = rest ∧ t.remain = s.remain - 1 := by
  obtain ⟨-, -, hmode, -⟩ := h.sequenced.ramping hr
  obtain ⟨v, hv⟩ := exists_exec_tick_running (s := s.setAgenda rest) h.of_unread hrun
  exact ⟨_, (step_tick hagenda).trans hv, by rw [countDown_eq]; rfl, by rw [countDown_eq]; rfl,
    countDown_remain_oneShot hmode⟩

/-- The REMAIN ticks of a ramp, none once it has ended, bring it to its completion. -/
theorem stepsFrom_ramp_ends {n : Nat} {s : State} {rest : List Action} (h : s.Inv) (hr : s.ramping)
    (hn : s.remain = n) (hagenda : s.agenda = List.replicate n (.evt 1) ++ rest) :
    ∃ t, stepsFrom n s = .next t ∧ irqLine t = true ∧ t.state = s.state := by
  induction n generalizing s with
  | zero =>
    have hrun : s.run = false := Bool.eq_false_iff.2 fun hgo => by
      obtain ⟨hlow, -⟩ := h.sequenced.position hgo
      omega
    exact ⟨s, rfl, irqLine_of_ramp_ended h hr hrun, rfl⟩
  | succ n ih =>
    have hrun : s.run = true := Bool.eq_true_of_not_eq_false fun hstop => by
      obtain ⟨hnone, -⟩ := h.sequenced.rampEnded hr hstop
      omega
    obtain ⟨u, hu, hstate, hrest, hremain⟩ := step_tick_of_ramping h hr hrun hagenda
    have hur : u.ramping := by rwa [State.ramping, hstate]
    rw [stepsFrom_succ_start hu, ← hstate]
    exact ih (everyStepKeepsTheInvariant s u h hu) hur (by omega) hrest

/-- Settles O37: an ended ramp has both of COMPLETE's conditions, and a running one ends in REMAIN ticks. -/
theorem completionIsNeverLost : Obligations.CompletionIsNeverLost :=
  fun _ _ h hr => ⟨irqLine_of_ramp_ended h hr, fun _ hagenda => stepsFrom_ramp_ends h hr rfl hagenda⟩

/-! ### A stale completion -/

/-- Settles O40: START arms the source on the latched IRQ_PEND or, under CLEAR_ON_ARM, on 0, and its target's rate has a
period for the handler body. -/
theorem staleCompletionEndsARampOnlyUncleared : Obligations.StaleCompletionEndsARampOnlyUncleared := by
  intro s u _ hpend hu
  obtain ⟨hc, seed, goal, p, -, -, -, rfl⟩ := execStart_next hu
  obtain ⟨-, -, q, hq⟩ := startCheck_ok_iff.1 hc
  rw [startBody_eq]
  refine ⟨fun hclear => ?cleared, fun hkeep => ?kept⟩
  case cleared => simp [irqLine, hclear]
  case kept =>
    have hlatched : (!s.cfg.clearOnArm && s.irqPend) = true := by simp [hkeep, hpend]
    exact ⟨by simp [irqLine, hlatched], _,
      (exec_complete_enabled hlatched rfl).trans (handlerBody_of_rampingUp rfl hq), rfl, rfl⟩

end Sys2Proof.Machine
end
